-- ==== Sys2Proof/Word.lean ====
section
/-! DEFINITION. The two word types of the block: a bus level (which is also a logical bit) and a data byte
(00_scope.md R6 and its notation table; 20_memory.md R40). -/

namespace Sys2Proof

/-- A bus level or a logical bit: `false` is 0, dominant; `true` is 1, recessive (R6, R71 last row). -/
abbrev Level := Bool

/-- Level 0 (R6). -/
abbrev dominant : Level := false

/-- Level 1 (R6). -/
abbrev recessive : Level := true

/-- One byte of a frame's payload (R40). -/
abbrev Byte := BitVec 8

end Sys2Proof
end

