-- ==== Sys2Proof/Config.lean ====
section
/-! DEFINITION. What an implementation fixes (00_scope.md R4) and the values the spec leaves open. -/

namespace Sys2Proof.Config

/-- The default of `RXBUF_BITS`, the capacity of the receive buffer, which is a parameter (R4, D9; log 5). -/
abbrev rxbufDefault : Nat := 128

/-- The lower bound of `RXBUF_BITS` (R4, D9). -/
abbrev rxbufMin : Nat := 128

/-- The number of microseconds in a second, of which `BITTIME` is the quotient by the baud rate (R18). -/
abbrev usPerSecond : Nat := 1000000

/-- The largest baud rate `BEGIN` admits (R4, R219, R225; D6). -/
abbrev baudMax : Nat := 1000000

/-- The generator polynomial of the CRC with its x^15 term left implicit (R120). -/
abbrev crcPoly : BitVec 15 := 0x4599#15

/-- The free value number `k`: nothing constrains it. Drawn for what the spec calls unspecified or `any value`
after an operation that goes on (R218, U1: log 2; R12, R170, U6: log 3), and for what a node drives before it is
configured (U2: log 28). -/
opaque freeValue : Nat → BitVec 128

end Sys2Proof.Config
end

