-- ==== Sys2Proof/Syntax.lean ====
section
/-! DEFINITION. Abstract syntax: what the host and the wire present, and the one inductive `Instr` with a
constructor for every row of the opcode table (30_encoding.md R70, R73). -/

namespace Sys2Proof

/-- Eight data bytes, `data[0]` to `data[7]` (20_memory.md R40; ports `tx_data0` to `tx_data7` of R216). -/
structure Data8 where
  d0 : Byte
  d1 : Byte
  d2 : Byte
  d3 : Byte
  d4 : Byte
  d5 : Byte
  d6 : Byte
  d7 : Byte
deriving DecidableEq, Repr

/-- The transmit frame operand `TXF` (R11): `dlc` is the value as the host presents it, 0 to 255. -/
structure TxFrame where
  id   : BitVec 11
  dlc  : BitVec 8
  data : Data8
deriving DecidableEq, Repr

/-- The receive frame result `RXF` (R12). -/
structure RxFrame where
  id   : BitVec 11
  dlc  : BitVec 4
  data : Data8
deriving DecidableEq, Repr

/-- The fields of a data frame on the wire, in transmission order, with the bits a receiver accepts at either
value kept as they are (R61; `rx_accepts` of the table's rows, R67, R68, R170). -/
structure WireFrame where
  /-- identifier, frame positions 1 to 11 -/
  id     : BitVec 11
  /-- RTR, IDE, r0, frame positions 12 to 14, RTR the most significant -/
  ctl    : BitVec 3
  /-- the raw DLC field, frame positions 15 to 18 -/
  rawDlc : BitVec 4
  /-- the payload, one byte for each of the format's `d` -/
  data   : List Byte
  /-- the CRC field -/
  crc    : BitVec 15
  /-- the level the other nodes give the CRC delimiter -/
  crcDel : Level
  /-- the level the other nodes give the ACK slot (`a` of the table: 1 the transmitter releases, 0 another receiver acknowledges) -/
  ack    : Level
  /-- the level the other nodes give the ACK delimiter -/
  ackDel : Level
deriving DecidableEq, Repr

/-- The input ports a command is taken from, all in the one cycle in which it is accepted (R216, R217). -/
structure CmdPorts where
  cmd    : BitVec 2
  baud   : BitVec 32
  now    : BitVec 32
  txId   : BitVec 11
  txDlc  : BitVec 8
  txData : Data8
deriving DecidableEq, Repr

/-- What can be presented to the node: a command on the command port, the bits of a frame on the wire, start-of-frame
bit first, before stuffing (R73 (a) and (b)), or any other bits there (R69; log 29), or its construction, which in hardware is the reset input `rst_n`
(R215, R218, R270) and has no bit pattern. -/
inductive Presented where
  | command (p : CmdPorts)
  | frame (bits : List Level)
  | construct (rxPin txPin : Nat)
deriving DecidableEq, Repr

/-- The instructions: one constructor per row of the opcode table. -/
inductive Instr where
  -- the host commands (R70)
  | nop
  | begin (baud now : BitVec 32)
  | send (f : TxFrame)
  | read (now : BitVec 32)
  -- the frame formats (R61), one per payload length
  | df0 (f : WireFrame)
  | df1 (f : WireFrame)
  | df2 (f : WireFrame)
  | df3 (f : WireFrame)
  | df4 (f : WireFrame)
  | df5 (f : WireFrame)
  | df6 (f : WireFrame)
  | df7 (f : WireFrame)
  | df8 (f : WireFrame)
  -- the internal operations (R73 (c))
  | new (rxPin txPin : Nat)
  | driveDominant
  | driveRecessive
  | release
  | sampleRx
  | encInit
  | encBit (b : Level)
  | encSeq (bits : List Level)
  | decInit
  | decBit (s : Level)
  | crc15Step (reg : BitVec 15) (b : Level)
  | crc15 (bits : List Level)
  | txBuild
  | rxStep (s : Level)
  | rxDecode
  | ackCheck
  | classify
  | onTxFailure
  | onRxFailure
  | onTxSuccess
  | onRxSuccess
deriving DecidableEq, Repr

/-- The operations nothing presents: they are invoked by the rules of the commands (R73 (c)). `NEW` has no bit pattern
either, but the host presents it, by construction or the reset input (R215, R218). -/
def Instr.isInternal : Instr → Bool
  | .nop | .begin _ _ | .send _ | .read _ => false
  | .df0 _ | .df1 _ | .df2 _ | .df3 _ | .df4 _ | .df5 _ | .df6 _ | .df7 _ | .df8 _ => false
  | .new _ _ => false
  | .driveDominant | .driveRecessive | .release | .sampleRx => true
  | .encInit | .encBit _ | .encSeq _ | .decInit | .decBit _ | .crc15Step _ _ | .crc15 _ => true
  | .txBuild | .rxStep _ | .rxDecode | .ackCheck => true
  | .classify | .onTxFailure | .onRxFailure | .onTxSuccess | .onRxSuccess => true

end Sys2Proof
end

