-- ==== Sys2Proof/WellFormed.lean ====
section
/-! DEFINITION. Well-formed instructions: what the field widths of the syntax do not already say. Only the frame
formats have such conditions (30_encoding.md R61, R68). -/

namespace Sys2Proof

/-- The fields of a frame of format `DFd`: the raw DLC announces `d` bytes once clamped to 8 (R61, R68), and there
are `d` of them. -/
def WireFrame.fits (d : Nat) (f : WireFrame) : Bool :=
  decide (min f.rawDlc.toNat 8 = d) && decide (f.data.length = d)

/-- The check on an instruction. The commands and the internal operations have no ill-formed operands: their widths
are in the types, and a baud rate out of range is refused by the operation, not by its syntax (R225). -/
def Instr.wellFormed : Instr → Bool
  | .df0 f => f.fits 0
  | .df1 f => f.fits 1
  | .df2 f => f.fits 2
  | .df3 f => f.fits 3
  | .df4 f => f.fits 4
  | .df5 f => f.fits 5
  | .df6 f => f.fits 6
  | .df7 f => f.fits 7
  | .df8 f => f.fits 8
  | .nop | .begin _ _ | .send _ | .read _ => true
  | .new _ _ | .driveDominant | .driveRecessive | .release | .sampleRx => true
  | .encInit | .encBit _ | .encSeq _ | .decInit | .decBit _ | .crc15Step _ _ | .crc15 _ => true
  | .txBuild | .rxStep _ | .rxDecode | .ackCheck => true
  | .classify | .onTxFailure | .onRxFailure | .onTxSuccess | .onRxSuccess => true

end Sys2Proof
end

