-- ==== Sys2Proof/Decode.lean ====
section
/-! DEFINITION. Field serialisation, the decoder of what is presented to the node, and the encoder
(30_encoding.md R60 to R73; 20_memory.md R41, R42). -/

namespace Sys2Proof

/-- `ser_n(v)`: the bits of `v`, most significant first (00_scope.md notation; R41). -/
def ser (n : Nat) (v : BitVec n) : List Level :=
  (List.range n).map fun i => v.getMsbD i

/-- `int(s)`: the unsigned integer whose most significant bit comes first (00_scope.md notation). -/
def intOf (bits : List Level) : Nat :=
  bits.foldl (fun acc b => 2 * acc + b.toNat) 0

/-- The `n` bits of a sequence from index `i` on. -/
def subBits (bits : List Level) (i n : Nat) : List Level :=
  (bits.drop i).take n

/-- A field of a sequence as a word, most significant bit first, zero-extended (R41, R44). -/
def fieldOf (bits : List Level) (i n w : Nat) : BitVec w :=
  BitVec.ofNat w (intOf (subBits bits i n))

/-- The frame format for payload length `d` (`DF0` to `DF8`); there is none above 8. -/
def Instr.ofFormat : Nat → WireFrame → Option Instr
  | 0, f => some (.df0 f)
  | 1, f => some (.df1 f)
  | 2, f => some (.df2 f)
  | 3, f => some (.df3 f)
  | 4, f => some (.df4 f)
  | 5, f => some (.df5 f)
  | 6, f => some (.df6 f)
  | 7, f => some (.df7 f)
  | 8, f => some (.df8 f)
  | _, _ => none

/-- The payload length and the fields of a frame format. -/
def Instr.format : Instr → Option (Nat × WireFrame)
  | .df0 f => some (0, f)
  | .df1 f => some (1, f)
  | .df2 f => some (2, f)
  | .df3 f => some (3, f)
  | .df4 f => some (4, f)
  | .df5 f => some (5, f)
  | .df6 f => some (6, f)
  | .df7 f => some (7, f)
  | .df8 f => some (8, f)
  | .nop | .begin _ _ | .send _ | .read _ => none
  | .new _ _ | .driveDominant | .driveRecessive | .release | .sampleRx => none
  | .encInit | .encBit _ | .encSeq _ | .decInit | .decBit _ | .crc15Step _ _ | .crc15 _ => none
  | .txBuild | .rxStep _ | .rxDecode | .ackCheck => none
  | .classify | .onTxFailure | .onRxFailure | .onTxSuccess | .onRxSuccess => none

/-- Why presented bits are no frame format, so no instruction; the node receives them all the same (R69; log 29). -/
inductive Reject where
  /-- not 44 + 8d bits for any payload length d from 0 to 8 (R62) -/
  | badLength
  /-- the start-of-frame bit is not dominant (R60) -/
  | badSof
  /-- the DLC field does not announce the payload length the frame has (R61, R68) -/
  | badDlc
  /-- the seven end-of-frame bits are not all recessive (R60, R69) -/
  | badEof
deriving DecidableEq, Repr

/-- The command of a command code with the operands taken from the ports it uses (R70, R216); all four codes are used. -/
def decodeCommand (p : CmdPorts) : Instr :=
  if p.cmd = 0b00#2 then .nop
  else if p.cmd = 0b01#2 then .begin p.baud p.now
  else if p.cmd = 0b10#2 then .send { id := p.txId, dlc := p.txDlc, data := p.txData }
  else .read p.now

/-- The fields of a frame of payload length `d`, at the positions of R61. -/
def frameFields (d : Nat) (bits : List Level) : WireFrame where
  id     := fieldOf bits 1 11 11
  ctl    := fieldOf bits 12 3 3
  rawDlc := fieldOf bits 15 4 4
  data   := (List.range d).map fun k => fieldOf bits (19 + 8 * k) 8 8
  crc    := fieldOf bits (19 + 8 * d) 15 15
  crcDel := bits.getD (34 + 8 * d) recessive
  ack    := bits.getD (35 + 8 * d) recessive
  ackDel := bits.getD (36 + 8 * d) recessive

/-- The frame format of a sequence of frame bits before stuffing: the table's `rx_accepts` patterns (R61, R65, R67, R68). -/
def decodeFrame (bits : List Level) : Except Reject Instr :=
  let d := (bits.length - 44) / 8
  if bits.length = 44 + 8 * d then
    match Instr.ofFormat d (frameFields d bits) with
    | none => .error .badLength
    | some i =>
      if bits.getD 0 recessive = recessive then .error .badSof
      else if min (fieldOf bits 15 4 4).toNat 8 = d then
        if subBits bits (37 + 8 * d) 7 = List.replicate 7 recessive then .ok i else .error .badEof
      else .error .badDlc
  else .error .badLength

/-- The decoder: total, rejecting by name. -/
def decode : Presented → Except Reject Instr
  | .command p => .ok (decodeCommand p)
  | .frame bits => decodeFrame bits
  | .construct rxPin txPin => .ok (.new rxPin txPin)

/-- Eight zero bytes. -/
def Data8.zero : Data8 := ⟨0, 0, 0, 0, 0, 0, 0, 0⟩

/-- The ports with a command code and every operand 0. -/
def CmdPorts.ofCode (c : BitVec 2) : CmdPorts :=
  { cmd := c, baud := 0, now := 0, txId := 0, txDlc := 0, txData := Data8.zero }

/-- The bits of a frame before stuffing, in transmission order (R60, R61). -/
def frameBits (f : WireFrame) : List Level :=
  dominant :: (ser 11 f.id ++ ser 3 f.ctl ++ ser 4 f.rawDlc ++ f.data.flatMap (ser 8) ++ ser 15 f.crc ++
    [f.crcDel, f.ack, f.ackDel] ++ List.replicate 7 recessive)

/-- The encoder: how an instruction is presented, by port values, frame bits or construction; the internal operations
are not (R70, R73, R218). Ports a command does not use are 0. -/
def encode : Instr → Option Presented
  | .nop => some (.command (CmdPorts.ofCode 0b00#2))
  | .begin baud now => some (.command { CmdPorts.ofCode 0b01#2 with baud := baud, now := now })
  | .send f => some (.command { CmdPorts.ofCode 0b10#2 with txId := f.id, txDlc := f.dlc, txData := f.data })
  | .read now => some (.command { CmdPorts.ofCode 0b11#2 with now := now })
  | .df0 f | .df1 f | .df2 f | .df3 f | .df4 f | .df5 f | .df6 f | .df7 f | .df8 f => some (.frame (frameBits f))
  | .new rxPin txPin => some (.construct rxPin txPin)
  | .driveDominant | .driveRecessive | .release | .sampleRx => none
  | .encInit | .encBit _ | .encSeq _ | .decInit | .decBit _ | .crc15Step _ _ | .crc15 _ => none
  | .txBuild | .rxStep _ | .rxDecode | .ackCheck => none
  | .classify | .onTxFailure | .onRxFailure | .onTxSuccess | .onRxSuccess => none

/-- How a table word is presented (log 11): up to 8 bits, the command code in bits 1 to 0 with every operand port 0;
longer, the frame whose position `k` (R61) is bit `k` of the word, 44 + 8d positions in whole bytes. -/
def presentWord (nbits w : Nat) : Presented :=
  if nbits ≤ 8 then .command (CmdPorts.ofCode (BitVec.ofNat 2 w))
  else
    let width := if nbits % 8 = 4 then nbits else nbits - 4
    .frame ((List.range width).map fun k => w.testBit k)

end Sys2Proof

/-- The instruction the decoder reads from a table word. -/
def Sys2Proof.decodeTableWord (nbits w : Nat) : Option Sys2Proof.Instr :=
  (Sys2Proof.decode (Sys2Proof.presentWord nbits w)).toOption
end

