-- ==== Sys2Proof/Machine/State.lean ====
section
/-! DEFINITION. The state of one node (10_state.md): every register of R10 in the groups of its table, and the model's
own input and output fields; the reasons a step can stop; the state after reset. -/

namespace Sys2Proof.Machine

/-- The node state `STATE` (R17, R71). -/
inductive NodeState where
  | errorActive
  | errorPassive
  | busOff
deriving DecidableEq, Repr

/-- The result of a `READ`, `READ_STATUS` (R14, R71). -/
inductive ReadStatus where
  | noMessage
  | messageOk
  | frameError
deriving DecidableEq, Repr

/-- The receiver sub-state `RXS` (R21, R71). -/
inductive RxSub where
  | idle
  | sof
  | frame
deriving DecidableEq, Repr

/-- The transmitter phase `TXPH` (R28, R71). -/
inductive TxPhase where
  | txIdle
  | txSof
  | txBody
  | txCrcDel
  | txAck
  | txAckDel
  | txEof
deriving DecidableEq, Repr

/-- The direction latch `TXDIR` of the TX pin (R30, R71). -/
inductive PinDir where
  | input
  | output
deriving DecidableEq, Repr

/-- The conditions of R240. A ghost: it stands in a returned value, in no register (R241). -/
inductive ErrorCause where
  | busOff
  | arbitrationLost
  | noAck
  | stuffError
  | crcMismatch
  | dlcClamp
  | short
  | length
  | overflow
deriving DecidableEq, Repr

/-- The two operations that raise conditions (R240). -/
inductive Raiser where
  | send
  | read
deriving DecidableEq, Repr

/-- The result of `DEC_BIT` (R107). -/
inductive DecEvent where
  /-- a logical bit for the buffer -/
  | append (b : Level)
  /-- a stuff bit, discarded -/
  | drop
  /-- the sixth recessive bit of a run, nothing to append -/
  | hold
  /-- the seventh recessive bit of a run -/
  | frameEnd
  /-- a stuff-rule violation -/
  | stuffError
deriving DecidableEq, Repr

/-- The result of `RX_DECODE` (R170). -/
inductive DecodeResult where
  | ok (f : RxFrame)
  | err (cause : ErrorCause)
deriving DecidableEq, Repr

/-- What an operation returns to whoever issued it: the results of the commands (R216, R217) and of the internal
operations. The causes are ghosts (R241). -/
inductive Response where
  /-- no command has been answered (`rsp_valid` = 0) -/
  | none
  /-- the operation has completed and has no result -/
  | done
  /-- the Boolean of `SEND` -/
  | sent (ok : Bool) (cause : Option ErrorCause)
  /-- the status of `READ` or `RX_STEP` -/
  | status (st : ReadStatus) (cause : Option ErrorCause)
  /-- the statuses of the successive `READ`s over a whole frame format -/
  | statuses (l : List (ReadStatus × Option ErrorCause))
  /-- the level of `SAMPLE_RX` -/
  | level (b : Level)
  /-- the wire bits of `ENC_BIT` or `ENC_SEQ` -/
  | bits (l : List Level)
  /-- the event of `DEC_BIT` -/
  | event (e : DecEvent)
  /-- the register value of `CRC15_STEP` or `CRC15` -/
  | crc (v : BitVec 15)
  /-- the result of `RX_DECODE` -/
  | decoded (r : DecodeResult)
deriving DecidableEq, Repr

/-- An index space of bits: the cells (index, level) that differ from what an unlisted element reads as, in strictly
rising order of index (R40: the element of `RXBUF` is one bit; log 4). -/
abbrev Memory := List (Nat × Level)

/-- The fault-confinement registers (R15 to R17). -/
structure FaultConf where
  /-- `TEC` (R15) -/
  tec   : BitVec 9
  /-- `REC` (R16) -/
  rec_  : BitVec 9
  /-- `STATE` (R17) -/
  state : NodeState
deriving DecidableEq, Repr

/-- The configuration registers (R18, R20). -/
structure Conf where
  /-- `BITTIME` (R18) -/
  bittime    : BitVec 32
  /-- `CONFIGURED` (R20) -/
  configured : Bool
deriving DecidableEq, Repr

/-- The receiver working set (R19, R21 to R26). -/
structure Receiver where
  /-- `RXS` (R21) -/
  rxs        : RxSub
  /-- `RXBUF` (R22) -/
  rxbuf      : Memory
  /-- `RXCNT`, 0 to `RXBUF_BITS` (R23) -/
  rxcnt      : Nat
  /-- `RUN` (R24) -/
  run        : BitVec 3
  /-- `LASTBIT` (R25) -/
  lastbit    : Level
  /-- `LASTSAMPLE` (R19) -/
  lastsample : BitVec 32
  /-- `ACKCNT` (R26) -/
  ackcnt     : BitVec 2
deriving DecidableEq, Repr

/-- The transmitter working set (R27 to R29). -/
structure Transmitter where
  /-- `TXBITS`, its valid part (R27) -/
  txbits  : List Level
  /-- `TXLEN` (R27) -/
  txlen   : BitVec 7
  /-- `TXNDATA` (R27) -/
  txndata : BitVec 7
  /-- `TXIDX` (R28) -/
  txidx   : BitVec 7
  /-- `TXPH` (R28) -/
  txph    : TxPhase
  /-- `ENCLAST` (R29) -/
  enclast : Level
  /-- `ENCRUN` (R29) -/
  encrun  : BitVec 3
deriving DecidableEq, Repr

/-- The line driver latches (R30). -/
structure LineDriver where
  /-- `TXDIR` (R30) -/
  txdir : PinDir
  /-- `TXLVL` (R30) -/
  txlvl : Level
deriving DecidableEq, Repr

/-- The parameter of the model (R4; 92_eei_decisions.md, "Open parameters"): fixed for the machine, changed by no step (log 5). -/
structure Params where
  /-- `RXBUF_BITS`, at least 128 (D9) -/
  rxbufBits : Nat
deriving DecidableEq, Repr

/-- The model's own fields: what the outside world gives the node, and what the last step gave back (log 6, log 12). -/
structure Environment where
  /-- what the host and the wire present, in order; the head is presented now (R216 `cmd_valid`) -/
  host  : List Presented
  /-- the AND of what every other node drives, one level per coming bit period (R144, R163); past the end nobody drives (R90) -/
  other : List Level
  /-- the levels this node put on the bus during the last step, one per bit period (R144) -/
  drove : List Level
  /-- the value the last operation returned (R217) -/
  rsp   : Response
  /-- the number of free values drawn so far -/
  fresh : Nat
deriving DecidableEq, Repr

/-- The state of one node (R10). -/
structure State where
  /-- `TXF` (R11) -/
  txf        : TxFrame
  /-- `RXF` (R12) -/
  rxf        : RxFrame
  /-- `SEND_OK` (R14) -/
  sendOk     : Bool
  /-- `READ_STATUS` (R14) -/
  readStatus : ReadStatus
  fc         : FaultConf
  cfg        : Conf
  rx         : Receiver
  tx         : Transmitter
  pin        : LineDriver
  par        : Params
  io         : Environment
deriving DecidableEq, Repr

/-- The faults of a step. There are none: no behaviour of this block is a fault or a stuck state
(93_implementation_defined.md, the paragraph after its table; log 23). -/
inductive Fault where
deriving DecidableEq, Repr

/-- The refusals of a step: no meaning is given, so no property is proved of a run that contains one (R225; log 14). -/
inductive Refusal where
  /-- Raised by an arm of `exec` whose instruction has no meaning yet; no arm does. Safe. -/
  | notModelled (mnemonic : String)
  /-- Raised by `SEND`, `READ` and what passes on the wire, a frame format or not (a run of `READ`s), before the first `BEGIN` (R225, D19). Safe. -/
  | notConfigured
  /-- Raised by `BEGIN` with a baud rate of 0 or above 1 000 000 (R219, R225, D6). Safe. -/
  | baudOutOfRange
deriving DecidableEq, Repr

/-- The state right after reset, the construction column of R32 (R270): `TEC`, `REC`, `STATE`, `CONFIGURED`, `TXPH` as the
spec gives them; every register it calls unspecified at the value log 1 names; nothing presented (log 6). -/
def State.reset : State where
  txf := { id := 0, dlc := 0, data := ⟨0, 0, 0, 0, 0, 0, 0, 0⟩ }
  rxf := { id := 0, dlc := 0, data := ⟨0, 0, 0, 0, 0, 0, 0, 0⟩ }
  sendOk := false
  readStatus := .noMessage
  fc := { tec := 0, rec_ := 0, state := .errorActive }
  cfg := { bittime := 0, configured := false }
  rx := { rxs := .idle, rxbuf := [], rxcnt := 0, run := 0, lastbit := dominant, lastsample := 0, ackcnt := 0 }
  tx := { txbits := [], txlen := 0, txndata := 0, txidx := 0, txph := .txIdle, enclast := dominant, encrun := 0 }
  pin := { txdir := .input, txlvl := dominant }
  par := { rxbufBits := Config.rxbufDefault }
  io := { host := [], other := [], drove := [], rsp := .none, fresh := 0 }

end Sys2Proof.Machine
end

