-- ==== Sys2Proof/Machine/Memory.lean ====
section
/-! DEFINITION. The index space of bits `RXBUF` (20_memory.md R40 to R44): one canonical form, one read, one write, and
the field extraction `MemRead` built from the read. -/

namespace Sys2Proof.Machine

/-- What an element reads as that nothing has written (U8 `any value`, never read by a rule; log 4). -/
def Memory.unlisted : Level := dominant

/-- The element at index `i`. -/
def Memory.read : Memory → Nat → Level
  | [], _ => Memory.unlisted
  | (a, b) :: m, i => if i = a then b else Memory.read m i

/-- `MemWrite(i, 1, b)` (R43), keeping the canonical form: writing what an unlisted element reads as removes the cell. -/
def Memory.write : Memory → Nat → Level → Memory
  | [], i, b => if b = Memory.unlisted then [] else [(i, b)]
  | (a, c) :: m, i, b =>
    if i < a then
      if b = Memory.unlisted then (a, c) :: m else (i, b) :: (a, c) :: m
    else if i = a then
      if b = Memory.unlisted then m else (i, b) :: m
    else (a, c) :: Memory.write m i b

/-- The canonical form from index `lo` on: indices strictly rising, no cell equal to what an unlisted element reads as. -/
def Memory.wfFrom : Nat → Memory → Bool
  | _, [] => true
  | lo, (a, b) :: m => decide (lo ≤ a) && decide (b ≠ Memory.unlisted) && Memory.wfFrom (a + 1) m

/-- The canonical form. -/
def Memory.wf (m : Memory) : Bool := Memory.wfFrom 0 m

/-- The elements `i` to `i + n - 1`, in index order. -/
def Memory.range (m : Memory) (i n : Nat) : List Level :=
  (List.range n).map fun k => m.read (i + k)

/-- `MemRead(i, n)` as a word of `n` bits, most significant bit first, unsigned (00_scope.md notation; R41, R44). -/
def Memory.field (m : Memory) (i n : Nat) : BitVec n :=
  BitVec.ofNat n (intOf (m.range i n))

/-- The memory whose elements from `lo` on are the given bits. -/
def Memory.ofBits : Nat → List Level → Memory
  | _, [] => []
  | lo, b :: bs => if b = Memory.unlisted then Memory.ofBits (lo + 1) bs else (lo, b) :: Memory.ofBits (lo + 1) bs

end Sys2Proof.Machine
end

