-- ==== Sys2Proof/Machine/Operands.lean ====
section
/-! DEFINITION. Operand forms: the clamp of a length, the assembly of a transmit frame from `TXF` and of a receive frame
from `RXBUF` (30_encoding.md R61 to R64, R68), and the CRC-15 both of them use (42_crc15.md R120 to R122). -/

namespace Sys2Proof.Machine

/-- The payload length a DLC stands for: values above 8 are clamped to 8 (R11, R68, R248). -/
def clampDlc (dlc : Nat) : Nat := min dlc 8

/-- The eight bytes in index order (R42). -/
def dataBytes (d : Data8) : List Byte := [d.d0, d.d1, d.d2, d.d3, d.d4, d.d5, d.d6, d.d7]

/-- Eight bytes given by index. -/
def dataOf (byte : Nat → Byte) : Data8 :=
  ⟨byte 0, byte 1, byte 2, byte 3, byte 4, byte 5, byte 6, byte 7⟩

/-- `CRC15_STEP(reg, b)` (R121). -/
def crcStep (reg : BitVec 15) (b : Level) : BitVec 15 :=
  let x := reg.getLsbD 14 ^^ b
  let reg' := reg <<< 1
  if x then reg' ^^^ Config.crcPoly else reg'

/-- `CRC15(bits)` (R122). -/
def crcOf (bits : List Level) : BitVec 15 := bits.foldl crcStep 0

/-- `NDATA(d)`: the length of the CRC-covered part without the start-of-frame bit (R62). -/
def nData (d : Nat) : Nat := 18 + 8 * d

/-- `L(d)`: the length of the stuffable part without the start-of-frame bit (R62). -/
def nBits (d : Nat) : Nat := 33 + 8 * d

/-- The payload length of a transmit frame (R63). -/
def txLength (f : TxFrame) : Nat := clampDlc f.dlc.toNat

/-- The CRC-covered bits of a transmit frame (`body` of R132, R63). -/
def txCovered (f : TxFrame) : List Level :=
  ser 11 f.id ++ [dominant, dominant, dominant] ++ ser 4 (BitVec.ofNat 4 (txLength f)) ++
    ((dataBytes f.data).take (txLength f)).flatMap (ser 8)

/-- The pre-stuff logical bits of a transmit frame, CRC included (`TXBITS` of R132, R63). -/
def txLogical (f : TxFrame) : List Level :=
  txCovered f ++ ser 15 (crcOf (txCovered f))

/-- The payload length a receive buffer announces: `min(MemRead(14, 4), 8)` (R64). -/
def rxLength (m : Memory) : Nat := clampDlc (m.field 14 4).toNat

/-- The comparison of the received CRC field with the CRC recomputed over the bits before it (R126; R170 step 4, R171). -/
def rxCrcMatches (m : Memory) : Bool :=
  decide (crcOf (m.range 0 (nData (rxLength m))) = m.field (nData (rxLength m)) 15)

/-- The frame a receive buffer holds (R64, R170 step 5); the bytes past the payload get no value, so each of the
eight draws a free value and uses it if it is such a byte (log 3). -/
def rxAssemble (m : Memory) (fresh : Nat) : RxFrame where
  id := m.field 0 11
  dlc := BitVec.ofNat 4 (rxLength m)
  data := dataOf fun k =>
    if k < rxLength m then m.field (18 + 8 * k) 8 else (Config.freeValue (fresh + k)).setWidth 8

end Sys2Proof.Machine
end

