-- ==== Sys2Proof/Machine/Flags.lean ====
section
/-! DEFINITION. The status the block computes: the node state and its counters (45_fault_confinement.md), the port codes
of the enumerations (30_encoding.md R71, 60_exceptions.md R240) and the output ports (46_host_interface.md R216). -/

namespace Sys2Proof.Machine

/-- The classification of a pair of counters (R17, R200). -/
def classOf (tec rec_ : BitVec 9) : NodeState :=
  if 255 < tec.toNat ∨ 255 < rec_.toNat then .busOff
  else if 127 < tec.toNat ∨ 127 < rec_.toNat then .errorPassive
  else .errorActive

/-- `CLASSIFY` (R200). -/
def FaultConf.classify (c : FaultConf) : FaultConf := { c with state := classOf c.tec c.rec_ }

/-- `ON_TX_FAILURE` (R201). -/
def FaultConf.onTxFailure (c : FaultConf) : FaultConf :=
  (if c.state = .busOff then c else { c with tec := c.tec + 8 }).classify

/-- `ON_RX_FAILURE` (R202). -/
def FaultConf.onRxFailure (c : FaultConf) : FaultConf :=
  (if c.state = .busOff then c else { c with rec_ := c.rec_ + 1 }).classify

/-- `ON_TX_SUCCESS` (R203). -/
def FaultConf.onTxSuccess (c : FaultConf) : FaultConf :=
  (if 0 < c.tec.toNat then { c with tec := c.tec - 1 } else c).classify

/-- `ON_RX_SUCCESS` (R204). -/
def FaultConf.onRxSuccess (c : FaultConf) : FaultConf :=
  (if 0 < c.rec_.toNat then { c with rec_ := c.rec_ - 1 } else c).classify

/-- The codes of `STATE` (R71). -/
def NodeState.code : NodeState → BitVec 2
  | .errorActive => 0
  | .errorPassive => 1
  | .busOff => 2

/-- The codes of `READ_STATUS` (R71). -/
def ReadStatus.code : ReadStatus → BitVec 2
  | .noMessage => 0
  | .messageOk => 1
  | .frameError => 2

/-- The codes of `RXS` (R71). -/
def RxSub.code : RxSub → BitVec 2
  | .idle => 0
  | .sof => 1
  | .frame => 2

/-- The codes of `TXPH` (R71). -/
def TxPhase.code : TxPhase → BitVec 3
  | .txIdle => 0
  | .txSof => 1
  | .txBody => 2
  | .txCrcDel => 3
  | .txAck => 4
  | .txAckDel => 5
  | .txEof => 6

/-- The codes of `TXDIR` (R71). -/
def PinDir.code : PinDir → BitVec 1
  | .input => 0
  | .output => 1

/-- The codes of the conditions (R240), ghosts (R241). -/
def ErrorCause.code : ErrorCause → Nat
  | .busOff => 1
  | .arbitrationLost => 2
  | .noAck => 3
  | .stuffError => 4
  | .crcMismatch => 5
  | .dlcClamp => 6
  | .short => 7
  | .length => 8
  | .overflow => 9

/-- `busy`: a `SEND` is in progress (R216, R28). -/
def State.busy (s : State) : Bool := decide (s.tx.txph ≠ .txIdle)

/-- `cmd_ready` (R216). -/
def State.cmdReady (s : State) : Bool := !s.busy

/-- `cmd_valid` (R216): something is presented. -/
def State.cmdValid (s : State) : Bool := !s.io.host.isEmpty

/-- The output ports (R216). A result that the last operation did not deliver is `none` (R14, R12, R272): the host
must not read it. -/
structure OutPorts where
  canTx      : Level
  canTxOe    : BitVec 1
  cmdReady   : Bool
  busy       : Bool
  rspValid   : Bool
  sendOk     : Option Bool
  readStatus : Option (BitVec 2)
  rxId       : Option (BitVec 11)
  rxDlc      : Option (BitVec 4)
  rxData     : Option (List Byte)
  tec        : BitVec 9
  rec_       : BitVec 9
  state      : BitVec 2
deriving DecidableEq, Repr

/-- The status the last `READ` of an operation returned: its own, or that of the last of a run of `READ`s (log 10). -/
def Response.lastStatus : Response → Option ReadStatus
  | .status st _ => some st
  | .statuses l => l.getLast?.map Prod.fst
  | .none | .done | .sent _ _ | .level _ | .bits _ | .event _ | .crc _ | .decoded _ => Option.none

/-- `rsp_valid` (R216, R217): a command has been answered; a reset answers nothing (log 21), nor does a run of no
`READ`. -/
def State.rspValid (s : State) : Bool :=
  match s.io.rsp with
  | .done | .sent _ _ | .status _ _ => true
  | .statuses l => !l.isEmpty
  | .none | .level _ | .bits _ | .event _ | .crc _ | .decoded _ => false

/-- Whether the last operation ended with a `READ` that returned `MessageOk`: only then `RXF` is meaningful (R12, R221). -/
def State.rxfValid (s : State) : Bool := decide (s.io.rsp.lastStatus = some .messageOk)

/-- The output ports a host sees between two steps (R216, R223, R227). -/
def State.outPorts (s : State) : OutPorts where
  canTx := s.pin.txlvl
  canTxOe := s.pin.txdir.code
  cmdReady := s.cmdReady
  busy := s.busy
  rspValid := s.rspValid
  sendOk := match s.io.rsp with
    | .sent _ _ => some s.sendOk
    | _ => none
  readStatus := s.io.rsp.lastStatus.map fun _ => s.readStatus.code
  rxId := if s.rxfValid then some s.rxf.id else none
  rxDlc := if s.rxfValid then some s.rxf.dlc else none
  rxData := if s.rxfValid then some ((dataBytes s.rxf.data).take s.rxf.dlc.toNat) else none
  tec := s.fc.tec
  rec_ := s.fc.rec_
  state := s.fc.state.code

end Sys2Proof.Machine
end

