-- ==== Sys2Proof/Machine/Ops.lean ====
section
/-! DEFINITION. The operations the instruction families share: the line driver and the passing of a bit period
(40_line_driver.md), the response of an operation (46_host_interface.md R217) and the one exit of every error condition
(60_exceptions.md R251). There is no return from an exception (R253). -/

namespace Sys2Proof.Machine

/-- `DRIVE_DOMINANT` on the latches (R91). -/
def driveDominant (s : State) : State := { s with pin := { txdir := .output, txlvl := dominant } }

/-- `DRIVE_RECESSIVE` on the latches (R92). -/
def driveRecessive (s : State) : State := { s with pin := { txdir := .output, txlvl := recessive } }

/-- `DRIVE_DOMINANT` or `DRIVE_RECESSIVE`, by the level to drive (R135). -/
def driveLevel (w : Level) (s : State) : State :=
  if w = dominant then driveDominant s else driveRecessive s

/-- `RELEASE` on the latches (R93): the level latch keeps its value. -/
def release (s : State) : State := { s with pin := { s.pin with txdir := .input } }

/-- What the latches put on the bus (R30, R95). -/
def LineDriver.drive (p : LineDriver) : Level :=
  if p.txdir = .output ∧ p.txlvl = dominant then dominant else recessive

/-- What the node drives in the current bit period (R95). -/
def State.drive (s : State) : Level := s.pin.drive

/-- The AND of what every other node drives in the current bit period; past the end of the list nobody drives, and
the pull-up reads recessive (R90, R94; log 6). -/
def State.otherLevel (s : State) : Level := s.io.other.headD recessive

/-- `SAMPLE_RX`: the level of the bus, the node's own contribution included (R94, R97; log 25). -/
def sampleRx (s : State) : Level := s.drive && s.otherLevel

/-- The current bit period passes (R8, R98): the level driven in it is put out, the other nodes' next level is current. -/
def hold (s : State) : State :=
  { s with io := { s.io with other := s.io.other.tail, drove := s.io.drove ++ [s.drive] } }

/-- Latches drawn from a free value; each of the four values arises. -/
def pinOf (v : BitVec 128) : LineDriver where
  txdir := if v.getLsbD 0 then .output else .input
  txlvl := v.getLsbD 1

/-- The start of a bit period in which the node is not sending: the latches of a configured node stand as its engines left them; those of a
node before its first `BEGIN` hold any value in each bit period (R218, U2; log 28). -/
def restStart (s : State) : State :=
  if s.cfg.configured then s
  else
    { s with
      pin := pinOf (Config.freeValue s.io.fresh)
      io := { s.io with fresh := s.io.fresh + 1 } }

/-- Another node's level for the coming bit period. -/
def presentLevel (l : Level) (s : State) : State :=
  { s with io := { s.io with other := l :: s.io.other } }

/-- An operation starts: the outputs of the one before it are gone (R217). -/
def opStart (s : State) : State := { s with io := { s.io with drove := [], rsp := .none } }

/-- An operation returns a value. -/
def respond (r : Response) (s : State) : State := { s with io := { s.io with rsp := r } }

/-- The end of every operation that has a meaning: it has returned `r` and the machine goes on. -/
def complete (r : Response) (s : State) : Host.Outcome State Fault Refusal := .next (respond r s)

/-- `raise E`: the exit of condition `c` raised by operation `op`, in the order R251 gives; nothing is saved and control
goes back to the host. `DlcClamp` is no error and changes nothing (R248). -/
def raiseError (op : Raiser) (c : ErrorCause) (s : State) : State :=
  match c with
  | .stuffError | .crcMismatch | .short | .length | .overflow =>
    { s with
      fc := s.fc.onRxFailure
      rx := { s.rx with rxs := .idle, ackcnt := 0 }
      readStatus := .frameError }
  | .noAck =>
    let s := driveRecessive s
    { s with
      fc := s.fc.onTxFailure
      tx := { s.tx with txph := .txIdle }
      sendOk := false }
  | .arbitrationLost =>
    let s := driveRecessive s
    { s with
      tx := { s.tx with txph := .txIdle }
      sendOk := false }
  | .busOff =>
    match op with
    | .send => { s with sendOk := false }
    | .read => { s with readStatus := .noMessage }
  | .dlcClamp => s

end Sys2Proof.Machine
end

