-- ==== Sys2Proof/Machine/Codec.lean ====
section
/-! DEFINITION. The bit codec (41_bit_codec.md): the stuffing encoder on the pair (`ENCLAST`, `ENCRUN`), the destuffing
decoder on (`LASTBIT`, `RUN`), and their five operations as instructions. -/

namespace Sys2Proof.Machine

/-- The encoder's running pair (`ENCLAST`, `ENCRUN`) (R29). -/
abbrev Enc := Level × BitVec 3

/-- `ENC_INIT`: the pair after the start-of-frame bit (R102). -/
def encStart : Enc := (dominant, 1)

/-- The run update of `ENC_BIT`, its step 2 (R103). -/
def encCount (b : Level) (e : Enc) : Enc :=
  if b = e.1 then (e.1, e.2 + 1) else (b, 1)

/-- A stuff bit is due: the run has reached five (R103 step 3; "stuff-pending" of R13). -/
def encFull (e : Enc) : Bool := decide (e.2 = 5)

/-- The pair after the stuff bit, which is the opposite level (R103 step 3). -/
def encStuff (e : Enc) : Enc := (!e.1, 1)

/-- `ENC_BIT(b)`: the wire bits it emits, one or two, and the pair it leaves (R103). -/
def encBit (b : Level) (e : Enc) : List Level × Enc :=
  let e' := encCount b e
  if encFull e' then ([b, !b], encStuff e') else ([b], e')

/-- `ENC_BIT` over a sequence from a given pair (R104). -/
def encBits : List Level → Enc → List Level × Enc
  | [], e => ([], e)
  | b :: bs, e =>
    let (w, e') := encBit b e
    let (ws, e'') := encBits bs e'
    (w ++ ws, e'')

/-- `ENC_SEQ(bits)`, the encoder as a function (R104). -/
def encSeq (bits : List Level) : List Level := (encBits bits encStart).1

/-- The encoder's pair in the transmitter working set. -/
def Transmitter.enc (t : Transmitter) : Enc := (t.enclast, t.encrun)

/-- The transmitter working set with the encoder's pair replaced. -/
def Transmitter.withEnc (t : Transmitter) (e : Enc) : Transmitter := { t with enclast := e.1, encrun := e.2 }

/-- `DEC_INIT`: the receiver's run after the start-of-frame bit (R106). -/
def Receiver.decInit (r : Receiver) : Receiver := { r with lastbit := dominant, run := 1 }

/-- `DEC_BIT(s)` (R107). -/
def Receiver.decBit (s : Level) (r : Receiver) : DecEvent × Receiver :=
  if 5 ≤ r.run.toNat then
    if s ≠ r.lastbit then
      if r.run = 5 then (.drop, { r with lastbit := s, run := 1 }) else (.stuffError, r)
    else if s = dominant then (.stuffError, r)
    else
      let r := { r with run := r.run + 1 }
      if r.run = 7 then (.frameEnd, r) else (.hold, r)
  else
    (.append s, if s = r.lastbit then { r with run := r.run + 1 } else { r with lastbit := s, run := 1 })

/-- `ENC_INIT` as an instruction (R102). -/
def execEncInit (s : State) : Host.Outcome State Fault Refusal :=
  let s := opStart s
  complete .done { s with tx := s.tx.withEnc encStart }

/-- `ENC_BIT` as an instruction: it returns the wire bits, which its caller drives (R103, R135). -/
def execEncBit (b : Level) (s : State) : Host.Outcome State Fault Refusal :=
  let s := opStart s
  let (w, e) := encBit b s.tx.enc
  complete (.bits w) { s with tx := s.tx.withEnc e }

/-- `ENC_SEQ` as an instruction: `ENC_INIT`, then `ENC_BIT` for each bit (R104; log 22). -/
def execEncSeq (bits : List Level) (s : State) : Host.Outcome State Fault Refusal :=
  let s := opStart s
  let (w, e) := encBits bits encStart
  complete (.bits w) { s with tx := s.tx.withEnc e }

/-- `DEC_INIT` as an instruction (R106). -/
def execDecInit (s : State) : Host.Outcome State Fault Refusal :=
  let s := opStart s
  complete .done { s with rx := s.rx.decInit }

/-- `DEC_BIT` as an instruction (R107). -/
def execDecBit (b : Level) (s : State) : Host.Outcome State Fault Refusal :=
  let s := opStart s
  let (e, r) := s.rx.decBit b
  complete (.event e) { s with rx := r }

end Sys2Proof.Machine
end

