-- ==== Sys2Proof/Machine/Crc.lean ====
section
/-! DEFINITION. The CRC-15 engine's two operations as instructions (42_crc15.md R121, R122). The engine keeps nothing
between uses: they return a value and write no register. -/

namespace Sys2Proof.Machine

/-- `CRC15_STEP(reg, b)` (R121). -/
def execCrc15Step (reg : BitVec 15) (b : Level) (s : State) : Host.Outcome State Fault Refusal :=
  complete (.crc (crcStep reg b)) (opStart s)

/-- `CRC15(bits)` (R122). -/
def execCrc15 (bits : List Level) (s : State) : Host.Outcome State Fault Refusal :=
  complete (.crc (crcOf bits)) (opStart s)

end Sys2Proof.Machine
end

