-- ==== Sys2Proof/Machine/FaultConfinement.lean ====
section
/-! DEFINITION. Fault confinement as instructions: the classifier and the four hooks (45_fault_confinement.md R200 to R204). -/

namespace Sys2Proof.Machine

/-- `CLASSIFY` (R200). -/
def execClassify (s : State) : Host.Outcome State Fault Refusal :=
  let s := opStart s
  complete .done { s with fc := s.fc.classify }

/-- `ON_TX_FAILURE` (R201). -/
def execOnTxFailure (s : State) : Host.Outcome State Fault Refusal :=
  let s := opStart s
  complete .done { s with fc := s.fc.onTxFailure }

/-- `ON_RX_FAILURE` (R202). -/
def execOnRxFailure (s : State) : Host.Outcome State Fault Refusal :=
  let s := opStart s
  complete .done { s with fc := s.fc.onRxFailure }

/-- `ON_TX_SUCCESS` (R203). -/
def execOnTxSuccess (s : State) : Host.Outcome State Fault Refusal :=
  let s := opStart s
  complete .done { s with fc := s.fc.onTxSuccess }

/-- `ON_RX_SUCCESS` (R204). -/
def execOnRxSuccess (s : State) : Host.Outcome State Fault Refusal :=
  let s := opStart s
  complete .done { s with fc := s.fc.onRxSuccess }

end Sys2Proof.Machine
end

