-- ==== Sys2Proof/Machine/Receiver.lean ====
section
/-! DEFINITION. The line-sampling receiver (44_receiver.md): the acknowledge engine, the state machine `RX_STEP`, the
decoder `RX_DECODE`, and `READ` with its gate and scheduler. -/

namespace Sys2Proof.Machine

/-- The status an operation of the receiver returns, with the ghost cause of an error (R241). -/
abbrev RxResult := ReadStatus × Option ErrorCause

/-- `ACK_CHECK` on the receiver working set (R171). -/
def Receiver.ackCheck (r : Receiver) : Receiver :=
  if 33 ≤ r.rxcnt ∧ r.rxcnt = nBits (rxLength r.rxbuf) ∧ rxCrcMatches r.rxbuf = true then
    { r with ackcnt := if r.run = 5 then 3 else 2 }
  else r

/-- The verdict of `RX_DECODE`: the first of the three checks that fails (R170 steps 1 to 4). -/
def Receiver.verdict (r : Receiver) : Option ErrorCause :=
  if r.rxcnt < 18 then some .short
  else if r.rxcnt < nBits (rxLength r.rxbuf) then some .length
  else if rxCrcMatches r.rxbuf = true then none
  else some .crcMismatch

/-- `RX_DECODE` (R170): `RXF` is written on success only; the eight free values drawn are counted (log 3). -/
def rxDecode (s : State) : DecodeResult × State :=
  match s.rx.verdict with
  | some c => (.err c, s)
  | none =>
    let f := rxAssemble s.rx.rxbuf s.io.fresh
    (.ok f, { s with rxf := f, io := { s.io with fresh := s.io.fresh + 8 } })

/-- The error exit of the receiver with its result (R174). -/
def rxFail (c : ErrorCause) (s : State) : RxResult × State :=
  ((.frameError, some c), raiseError .read c s)

/-- The success exit of the receiver (R173). -/
def rxSucceed (s : State) : RxResult × State :=
  ((.messageOk, none),
    { s with
      fc := s.fc.onRxSuccess
      rx := { s.rx with rxs := .idle, ackcnt := 0 }
      readStatus := .messageOk })

/-- The frame end (R169). -/
def rxFrameEnd (s : State) : RxResult × State :=
  match rxDecode s with
  | (.ok _, s) => rxSucceed s
  | (.err c, s) => rxFail c s

/-- The append with its overflow check (the capacity is a parameter, R4), then `ACK_CHECK` (R43, R168). -/
def rxAppend (b : Level) (s : State) : RxResult × State :=
  if s.rx.rxcnt = s.par.rxbufBits then rxFail .overflow s
  else
    let r := { s.rx with
      rxbuf := s.rx.rxbuf.write s.rx.rxcnt b
      rxcnt := s.rx.rxcnt + 1 }
    ((.noMessage, none), { s with rx := r.ackCheck })

/-- A sample in `Frame` (R167). -/
def rxFrame (smp : Level) (s : State) : RxResult × State :=
  match s.rx.decBit smp with
  | (.append b, r) => rxAppend b { s with rx := r }
  | (.drop, r) => ((.noMessage, none), { s with rx := r })
  | (.hold, r) => ((.noMessage, none), { s with rx := r })
  | (.frameEnd, r) => rxFrameEnd { s with rx := r }
  | (.stuffError, r) => rxFail .stuffError { s with rx := r }

/-- The acknowledge countdown, step 1 of `RX_STEP` (R164, R172). -/
def Receiver.countDown (r : Receiver) : Receiver :=
  if r.ackcnt = 0 then r else { r with ackcnt := r.ackcnt - 1 }

/-- A sample in `Idle` (R165). -/
def rxIdle (smp : Level) (s : State) : RxResult × State :=
  if smp = recessive then ((.noMessage, none), s)
  else ((.noMessage, none), { s with rx := { s.rx.decInit with rxcnt := 0, ackcnt := 0, rxs := .sof } })

/-- `RX_STEP(smp)` (R164 to R167). -/
def rxStep (smp : Level) (s : State) : RxResult × State :=
  let s := { s with rx := s.rx.countDown }
  match s.rx.rxs with
  | .idle => rxIdle smp s
  | .sof => rxFrame smp { s with rx := { s.rx with rxs := .frame } }
  | .frame => rxFrame smp s

/-- The acknowledge belongs to the bit period that begins now: `ACKCNT = 1` (R26, R172). -/
def State.ackDue (s : State) : Bool := decide (s.rx.ackcnt = 1)

/-- An accepted `READ` has left `ACKCNT = 1`: the next bit period begins, and the node drives it dominant on its own (R172; log 9). -/
def ackDrive (s : State) : State := if s.ackDue then driveDominant s else s

/-- One `BITTIME` later the acknowledge is over (R172): the end of a bit period that began with `ACKCNT = 1`. -/
def ackRelease (due : Bool) (s : State) : State := if due then driveRecessive s else s

/-- A bit period that passes without an accepted `READ`, no `SEND` in progress: an acknowledge due in it is driven all the same, and is over
when it ends (R172, R279; log 19). -/
def restPeriod (s : State) : State :=
  let s := restStart s
  ackRelease (s.cfg.configured && s.ackDue) (hold s)

/-- An accepted `READ` past its scheduler: the slot advances by `BITTIME`, one bit period passes, its sample is fed to
`RX_STEP`, and the next bit period begins (R162, R163, R172). -/
def rxAccept (s : State) : RxResult × State :=
  let s := { s with rx := { s.rx with lastsample := s.rx.lastsample + s.cfg.bittime } }
  let (r, t) := rxStep (sampleRx s) (ackRelease s.ackDue (hold s))
  (r, ackDrive t)

/-- The scheduler accepts a call at clock value `now` (R162): the difference is taken modulo 2^32. -/
def State.accepts (now : BitVec 32) (s : State) : Bool :=
  !((now - s.rx.lastsample).ult s.cfg.bittime)

/-- `READ` of a configured node (R160 to R163, R177): the Bus-Off gate, the scheduler, at most one sample; every completion
writes `READ_STATUS` (R14). -/
def readOp (now : BitVec 32) (s : State) : RxResult × State :=
  if s.fc.state = .busOff then ((.noMessage, some .busOff), raiseError .read .busOff s)
  else if s.accepts now then
    let (r, s) := rxAccept s
    (r, { s with readStatus := r.1 })
  else ((.noMessage, none), { s with readStatus := .noMessage })

/-- `READ` (R160, R221); refused before the first `BEGIN` (R225). -/
def execRead (now : BitVec 32) (s : State) : Host.Outcome State Fault Refusal :=
  if s.cfg.configured then
    let (r, s) := readOp now (opStart s)
    complete (.status r.1 r.2) s
  else .refused .notConfigured

/-- `RX_STEP` as an instruction (R164): the sample is its operand. -/
def execRxStep (smp : Level) (s : State) : Host.Outcome State Fault Refusal :=
  let (r, s) := rxStep smp (opStart s)
  complete (.status r.1 r.2) s

/-- `RX_DECODE` as an instruction (R170). -/
def execRxDecode (s : State) : Host.Outcome State Fault Refusal :=
  let (r, s) := rxDecode (opStart s)
  complete (.decoded r) s

/-- `ACK_CHECK` as an instruction (R171). -/
def execAckCheck (s : State) : Host.Outcome State Fault Refusal :=
  let s := opStart s
  complete .done { s with rx := s.rx.ackCheck }

end Sys2Proof.Machine
end

