-- ==== Sys2Proof/Machine/FrameFormats.lean ====
section
/-! DEFINITION. The frame formats `DF0` to `DF8` as instructions (30_encoding.md R60 to R69; log 10): the node, its host reading
once per bit period (R163, R275), while a frame of the format passes on the bus; and the same for bits that are no frame format
(R69; log 29). -/

namespace Sys2Proof.Machine

/-- The logical bits of a frame's stuffable region without the start-of-frame bit (R61, R62). -/
def frameLogical (f : WireFrame) : List Level :=
  ser 11 f.id ++ ser 3 f.ctl ++ ser 4 f.rawDlc ++ f.data.flatMap (ser 8) ++ ser 15 f.crc

/-- The bits after the CRC field, which are not stuffed (R60, R66). -/
def frameTail (f : WireFrame) : List Level :=
  [f.crcDel, f.ack, f.ackDel] ++ List.replicate 7 recessive

/-- The wire image of a frame: the start-of-frame bit, the stuffed region with its stuff bits, the tail (R66, R104). -/
def wireImage (f : WireFrame) : List Level :=
  dominant :: (encSeq (frameLogical f) ++ frameTail f)

/-- The levels that bits presented before stuffing put on the wire, a frame format or not (R62, R65, R66; log 29): up to the first
dominant bit, which starts the frame, as they stand (R165); after it stuffed, but for the last ten bits, the unstuffed tail. -/
def wireLevels : List Level → List Level
  | [] => []
  | b :: bits =>
    if b = recessive then b :: wireLevels bits
    else b :: (encSeq (bits.take (bits.length - 10)) ++ bits.drop (bits.length - 10))

/-- The levels that what is presented puts on the wire; a command or the construction puts none there. -/
def presentedLevels : Presented → List Level
  | .frame bits => wireLevels bits
  | .command _ => []
  | .construct _ _ => []

/-- One bit period in which the other nodes' level is `l` and the host issues one `READ`, at the first clock value the scheduler accepts;
in Bus-Off the `READ` takes no sample and the period passes without it (R161 to R163). -/
def readPeriod (l : Level) (s : State) : RxResult × State :=
  if s.fc.state = .busOff then
    let (r, s) := readOp (s.rx.lastsample + s.cfg.bittime) s
    (r, restPeriod (presentLevel l s))
  else readOp (s.rx.lastsample + s.cfg.bittime) (presentLevel l s)

/-- One `READ` per bit period over a sequence of levels, with the results in order (R175). -/
def readPeriods : List Level → State → List RxResult × State
  | [], s => ([], s)
  | l :: ls, s =>
    let (r, s) := readPeriod l s
    let (rs, s) := readPeriods ls s
    (r :: rs, s)

/-- A sequence of levels passes on the bus while the host reads once per bit period (R73 (b), R175); refused before the first
`BEGIN`, as each of the `READ`s is (R225). -/
def receiveLevels (levels : List Level) (s : State) : Host.Outcome State Fault Refusal :=
  if s.cfg.configured then
    let (rs, s) := readPeriods levels (opStart s)
    complete (.statuses rs) s
  else .refused .notConfigured

/-- A frame of some format passes on the bus (R73 (b)). -/
def receiveFrame (f : WireFrame) (s : State) : Host.Outcome State Fault Refusal :=
  receiveLevels (wireImage f) s

/-- `DF0` (R61). -/
def execDf0 (f : WireFrame) (s : State) : Host.Outcome State Fault Refusal := receiveFrame f s

/-- `DF1` (R61). -/
def execDf1 (f : WireFrame) (s : State) : Host.Outcome State Fault Refusal := receiveFrame f s

/-- `DF2` (R61). -/
def execDf2 (f : WireFrame) (s : State) : Host.Outcome State Fault Refusal := receiveFrame f s

/-- `DF3` (R61). -/
def execDf3 (f : WireFrame) (s : State) : Host.Outcome State Fault Refusal := receiveFrame f s

/-- `DF4` (R61). -/
def execDf4 (f : WireFrame) (s : State) : Host.Outcome State Fault Refusal := receiveFrame f s

/-- `DF5` (R61). -/
def execDf5 (f : WireFrame) (s : State) : Host.Outcome State Fault Refusal := receiveFrame f s

/-- `DF6` (R61). -/
def execDf6 (f : WireFrame) (s : State) : Host.Outcome State Fault Refusal := receiveFrame f s

/-- `DF7` (R61). -/
def execDf7 (f : WireFrame) (s : State) : Host.Outcome State Fault Refusal := receiveFrame f s

/-- `DF8` (R61). -/
def execDf8 (f : WireFrame) (s : State) : Host.Outcome State Fault Refusal := receiveFrame f s

end Sys2Proof.Machine
end

