-- ==== Sys2Proof/Machine/HostInterface.lean ====
section
/-! DEFINITION. The host interface's operations `NEW`, `BEGIN` and `NOP` (46_host_interface.md R218, R219, R222). -/

namespace Sys2Proof.Machine

/-- A member of a three-valued enumeration from a free value; every member arises. -/
def pick3 {α : Type} (a b c : α) (v : BitVec 128) : α :=
  if v.toNat % 3 = 0 then a else if v.toNat % 3 = 1 then b else c

/-- The number of free values `NEW` draws for a receive buffer of `cap` bits. -/
def newDraws (cap : Nat) : Nat := 35 + cap

/-- The number of values of the register `RXCNT` for a capacity: as many bits as the capacity needs (R23). -/
def rxcntRange (cap : Nat) : Nat := 2 ^ (Nat.log2 cap + 1)

/-- The construction state (R32 first column, R218, R270): the registers the spec gives, and a free value of its own for every
register it calls unspecified (U1, U2; log 2), from the `k`-th free value on. The environment goes on (R31). -/
def construct (s : State) : State :=
  let v (j : Nat) : BitVec 128 := Config.freeValue (s.io.fresh + j)
  { txf := { id := (v 0).setWidth 11, dlc := (v 1).setWidth 8, data := dataOf fun i => (v (2 + i)).setWidth 8 }
    rxf := { id := (v 10).setWidth 11, dlc := (v 11).setWidth 4, data := dataOf fun i => (v (12 + i)).setWidth 8 }
    sendOk := (v 20).getLsbD 0
    readStatus := pick3 .noMessage .messageOk .frameError (v 21)
    fc := { tec := 0, rec_ := 0, state := .errorActive }
    cfg := { bittime := (v 22).setWidth 32, configured := false }
    rx :=
      { rxs := pick3 .idle .sof .frame (v 23)
        rxbuf := Memory.ofBits 0 ((List.range s.par.rxbufBits).map fun i => (v (35 + i)).getLsbD 0)
        rxcnt := (v 24).toNat % rxcntRange s.par.rxbufBits
        run := (v 25).setWidth 3
        lastbit := (v 26).getLsbD 0
        lastsample := (v 27).setWidth 32
        ackcnt := (v 28).setWidth 2 }
    tx :=
      { txbits := ser 97 ((v 29).setWidth 97)
        txlen := (v 30).setWidth 7
        txndata := (v 31).setWidth 7
        txidx := (v 32).setWidth 7
        txph := .txIdle
        enclast := (v 33).getLsbD 0
        encrun := (v 33).extractLsb' 1 3 }
    pin := pinOf (v 34)
    par := s.par
    io := { s.io with fresh := s.io.fresh + newDraws s.par.rxbufBits } }

/-- `NEW` (R218, R270): construction, or the reset input. The two pin identifiers are elaboration-time constants with no
effect on behaviour (R216, D31). It is no command, and no response answers it (R217; log 21). -/
def execNew (_rxPin _txPin : Nat) (s : State) : Host.Outcome State Fault Refusal :=
  complete .none (construct (opStart s))

/-- A baud rate `BEGIN` admits (R219). -/
def baudOk (baud : BitVec 32) : Bool :=
  decide (1 ≤ baud.toNat) && decide (baud.toNat ≤ Config.baudMax)

/-- The effect of `BEGIN` (R219, R271): `RXBUF`, the transmitter working set, `TXF`, `RXF` and the result flags keep their values
(R272). -/
def beginOp (baud now : BitVec 32) (s : State) : State :=
  let s := driveRecessive s
  { s with
    cfg := { bittime := BitVec.ofNat 32 (Config.usPerSecond / baud.toNat), configured := true }
    fc := { tec := 0, rec_ := 0, state := .errorActive }
    rx := { s.rx with lastsample := now, rxs := .idle, rxcnt := 0, run := 0, lastbit := recessive, ackcnt := 0 } }

/-- `BEGIN` (R219); refused for a baud rate of 0 or above 1 000 000 (R225). -/
def execBegin (baud now : BitVec 32) (s : State) : Host.Outcome State Fault Refusal :=
  if baudOk baud then complete .done (beginOp baud now (opStart s)) else .refused .baudOutOfRange

/-- `NOP` (R222): no state change, no result beyond the response. -/
def execNop (s : State) : Host.Outcome State Fault Refusal :=
  complete .done (opStart s)

end Sys2Proof.Machine
end

