-- ==== Sys2Proof/Machine/LineDriver.lean ====
section
/-! DEFINITION. The line driver's four operations as instructions (40_line_driver.md R91 to R94). -/

namespace Sys2Proof.Machine

/-- `DRIVE_DOMINANT` (R91). -/
def execDriveDominant (s : State) : Host.Outcome State Fault Refusal :=
  complete .done (driveDominant (opStart s))

/-- `DRIVE_RECESSIVE` (R92). -/
def execDriveRecessive (s : State) : Host.Outcome State Fault Refusal :=
  complete .done (driveRecessive (opStart s))

/-- `RELEASE` (R93). -/
def execRelease (s : State) : Host.Outcome State Fault Refusal :=
  complete .done (release (opStart s))

/-- `SAMPLE_RX` (R94): a result and no side effect; the bit period it samples does not end with it (log 24). -/
def execSampleRx (s : State) : Host.Outcome State Fault Refusal :=
  complete (.level (sampleRx s)) (opStart s)

end Sys2Proof.Machine
end

