-- ==== Sys2Proof/Machine/Transmitter.lean ====
section
/-! DEFINITION. The transmitter and frame framer (43_transmitter.md): `TX_BUILD`, the sequencer `TXPH` one bit period at a
time, and `SEND` as the run of the sequencer to its end. -/

namespace Sys2Proof.Machine

/-- `TX_BUILD` on the transmitter working set (R132). -/
def Transmitter.build (f : TxFrame) (t : Transmitter) : Transmitter :=
  { t with
    txbits := txLogical f
    txlen := BitVec.ofNat 7 (nBits (txLength f))
    txndata := BitVec.ofNat 7 (nData (txLength f)) }

/-- The wire bit of the current body period: the stuff bit if one is pending, else the logical bit at `TXIDX` (R135). -/
def Transmitter.bodyBit (t : Transmitter) : Level :=
  if encFull t.enc then !t.enclast else t.txbits.getD t.txidx.toNat dominant

/-- The wire bit of the current body period is monitored for arbitration: it is recessive and belongs to a logical
bit before the CRC field (R136; a stuff bit belongs to the bit it follows, D12). -/
def Transmitter.monitored (t : Transmitter) : Bool :=
  t.bodyBit && decide (t.txidx.toNat < t.txndata.toNat)

/-- `TXIDX` moves to the next logical bit, or the body is over (R135). -/
def Transmitter.nextBit (t : Transmitter) : Transmitter :=
  if t.txidx.toNat + 1 < t.txlen.toNat then { t with txidx := t.txidx + 1 } else { t with txph := .txCrcDel }

/-- The body after the current wire bit: the run counted, and on to the stuff bit that is now due or to the next
logical bit (R103, R135). -/
def Transmitter.bodyStep (t : Transmitter) : Transmitter :=
  if encFull t.enc then (t.withEnc (encStuff t.enc)).nextBit
  else
    let t := t.withEnc (encCount t.bodyBit t.enc)
    if encFull t.enc then t else t.nextBit

/-- The start of a bit period of the transmitter: the latches by phase (R133, R134, R135, R138, R139, R141). -/
def txDrive (s : State) : State :=
  match s.tx.txph with
  | .txIdle => s
  | .txSof => driveDominant s
  | .txBody => driveLevel s.tx.bodyBit s
  | .txCrcDel => driveRecessive s
  | .txAck => release s
  | .txAckDel => driveRecessive s
  | .txEof => driveRecessive s

/-- The end of a bit period of the transmitter, `smp` the level sampled in it: the next phase or the exit
(R134 to R141, R251). -/
def txSettle (smp : Level) (s : State) : State :=
  match s.tx.txph with
  | .txIdle => s
  | .txSof => { s with tx := { s.tx.withEnc encStart with txidx := 0, txph := .txBody } }
  | .txBody =>
    let s' := { s with tx := s.tx.bodyStep }
    if s.tx.monitored = true ∧ smp = dominant then
      respond (.sent false (some .arbitrationLost)) (raiseError .send .arbitrationLost s')
    else s'
  | .txCrcDel => { s with tx := { s.tx with txph := .txAck } }
  | .txAck =>
    let s := driveRecessive s
    if smp = dominant then { s with tx := { s.tx with txph := .txAckDel } }
    else respond (.sent false (some .noAck)) (raiseError .send .noAck s)
  | .txAckDel => { s with tx := { s.tx with txph := .txEof, txidx := 0 } }
  | .txEof =>
    if s.tx.txidx.toNat + 1 < 7 then { s with tx := { s.tx with txidx := s.tx.txidx + 1 } }
    else
      respond (.sent true none)
        { s with
          fc := s.fc.onTxSuccess
          tx := { s.tx with txph := .txIdle, txidx := s.tx.txidx + 1 }
          sendOk := true }

/-- One bit period of a `SEND` in progress: drive, sample, the period passes, settle (R133). -/
def txPeriod (s : State) : State :=
  let s := txDrive s
  txSettle (sampleRx s) (hold s)

/-- The sequencer, at most `fuel` bit periods, until it is back in `TxIdle`. -/
def txRun : Nat → State → State
  | 0, s => s
  | fuel + 1, s => if s.busy then txRun fuel (txPeriod s) else s

/-- More bit periods than any `SEND` takes: the start-of-frame bit, at most two wire bits for each of 97 logical bits, ten
bits of tail (R133, R142). -/
def txFuel : Nat := 1 + 2 * 97 + 10

/-- The acceptance of a `SEND`: the host's frame is latched into `TXF` (R11, R51, R143, R220). -/
def latchTxf (f : TxFrame) (s : State) : State := { s with txf := f }

/-- The start of a `SEND` past its Bus-Off gate: `TXF` latched, `TX_BUILD`, and the start-of-frame bit is next
(R132, R133, R220). -/
def txStart (f : TxFrame) (s : State) : State :=
  { latchTxf f s with tx := { s.tx.build f with txph := .txSof } }

/-- `SEND` of a configured node (R130 to R141): the latch at acceptance; the Bus-Off gate, which leaves every register but the
flag (R131, R242; log 13); then the whole frame (log 8). -/
def sendOp (f : TxFrame) (s : State) : State :=
  if s.fc.state = .busOff then respond (.sent false (some .busOff)) (raiseError .send .busOff (latchTxf f s))
  else txRun txFuel (txStart f s)

/-- `SEND` (R130, R220); refused before the first `BEGIN` (R225). -/
def execSend (f : TxFrame) (s : State) : Host.Outcome State Fault Refusal :=
  if s.cfg.configured then .next (sendOp f (opStart s)) else .refused .notConfigured

/-- `TX_BUILD` as an instruction: from `TXF` (R132). -/
def execTxBuild (s : State) : Host.Outcome State Fault Refusal :=
  let s := opStart s
  complete .done { s with tx := s.tx.build s.txf }

end Sys2Proof.Machine
end

