-- ==== Sys2Proof/Machine/Dispatch.lean ====
section
/-! DEFINITION. The meaning of every instruction: one arm per constructor of `Instr`. -/

namespace Sys2Proof.Machine

def exec (i : Instr) (s : State) : Host.Outcome State Fault Refusal :=
  match i with
  | .nop => Sys2Proof.Machine.execNop s
  | .begin baud now => Sys2Proof.Machine.execBegin baud now s
  | .send f => Sys2Proof.Machine.execSend f s
  | .read now => Sys2Proof.Machine.execRead now s
  | .df0 f => Sys2Proof.Machine.execDf0 f s
  | .df1 f => Sys2Proof.Machine.execDf1 f s
  | .df2 f => Sys2Proof.Machine.execDf2 f s
  | .df3 f => Sys2Proof.Machine.execDf3 f s
  | .df4 f => Sys2Proof.Machine.execDf4 f s
  | .df5 f => Sys2Proof.Machine.execDf5 f s
  | .df6 f => Sys2Proof.Machine.execDf6 f s
  | .df7 f => Sys2Proof.Machine.execDf7 f s
  | .df8 f => Sys2Proof.Machine.execDf8 f s
  | .new rxPin txPin => Sys2Proof.Machine.execNew rxPin txPin s
  | .driveDominant => Sys2Proof.Machine.execDriveDominant s
  | .driveRecessive => Sys2Proof.Machine.execDriveRecessive s
  | .release => Sys2Proof.Machine.execRelease s
  | .sampleRx => Sys2Proof.Machine.execSampleRx s
  | .encInit => Sys2Proof.Machine.execEncInit s
  | .encBit b => Sys2Proof.Machine.execEncBit b s
  | .encSeq bits => Sys2Proof.Machine.execEncSeq bits s
  | .decInit => Sys2Proof.Machine.execDecInit s
  | .decBit b => Sys2Proof.Machine.execDecBit b s
  | .crc15Step reg b => Sys2Proof.Machine.execCrc15Step reg b s
  | .crc15 bits => Sys2Proof.Machine.execCrc15 bits s
  | .txBuild => Sys2Proof.Machine.execTxBuild s
  | .rxStep b => Sys2Proof.Machine.execRxStep b s
  | .rxDecode => Sys2Proof.Machine.execRxDecode s
  | .ackCheck => Sys2Proof.Machine.execAckCheck s
  | .classify => Sys2Proof.Machine.execClassify s
  | .onTxFailure => Sys2Proof.Machine.execOnTxFailure s
  | .onRxFailure => Sys2Proof.Machine.execOnRxFailure s
  | .onTxSuccess => Sys2Proof.Machine.execOnTxSuccess s
  | .onRxSuccess => Sys2Proof.Machine.execOnRxSuccess s

end Sys2Proof.Machine
end

