-- ==== Sys2Proof/Machine/Fetch.lean ====
section
/-! DEFINITION. What the node takes next from what is presented to it (46_host_interface.md R217). The block fetches no
instructions from a memory (10_state.md R13): it accepts what is presented. -/

namespace Sys2Proof.Machine

/-- What acts even while a `SEND` is in progress: the reset input (R216, R270). -/
def isReset : Presented → Bool
  | .construct _ _ => true
  | .command _ => false
  | .frame _ => false

/-- What is accepted now, and the state in which it has been; `none` while nothing is presented, or while a `SEND` is in
progress and what is presented waits (`cmd_ready` = 0; R216, R217, R225). -/
def fetch (s : State) : Option (Presented × State) :=
  match s.io.host with
  | [] => none
  | p :: rest =>
    if s.cmdReady || isReset p then some (p, { s with io := { s.io with host := rest } }) else none

/-- The state in which `p` is presented next, with no `SEND` in progress that would make it wait (R217, R225). -/
def present (p : Presented) (s : State) : State :=
  { s with
    io := { s.io with host := p :: s.io.host }
    tx := { s.tx with txph := .txIdle } }

end Sys2Proof.Machine
end

