-- ==== Sys2Proof/Machine/Step.lean ====
section
/-! DEFINITION. One step of the machine (46_host_interface.md R217; log 8, log 19): what is accepted is run, bits that are no frame
format received (R69; log 29); else, while a `SEND` is in progress, one bit period of it; else a bit period in which the host
issues nothing. -/

namespace Sys2Proof.Machine

/-- One step. -/
def step (s : State) : Host.Outcome State Fault Refusal :=
  match fetch s with
  | some (p, s') =>
    match decode p with
    | .ok i => exec i s'
    | .error _ => receiveLevels (presentedLevels p) s'
  | none => .next (if s.busy then txPeriod (opStart s) else restPeriod (opStart s))

/-- The state in which the instruction of a table word is presented next, so that `step` accepts and runs it (log 11). -/
def State.withFetchWord (s : State) (nbits w : Nat) : State :=
  present (presentWord nbits w) s

end Sys2Proof.Machine
end

