-- ==== Sys2Proof/Machine/Bus.lean ====
section
/-! DEFINITION. Several nodes on one bus (60_exceptions.md R258; 00_scope.md R8; 40_line_driver.md R97; log 27): one bit period of a
list of nodes whose bit periods coincide, each node that is not sending reading once in it (R163, R275). -/

namespace Sys2Proof.Machine

/-- The node at the start of a bit period, its latches set for it (R95): a sender's by its phase; the others' as they stand, an acknowledge
included (R172); any value if the node has not been configured (R218, U2; log 28). -/
def startPeriod (s : State) : State :=
  if s.busy then txDrive s else restStart s

/-- `drive_n(p)`: what a node puts on the bus in the bit period that begins (R95, R97). -/
def driveOf (s : State) : Level := (startPeriod s).drive

/-- `bus(p)`: the wired-AND of all drives (R8, R97). -/
def busLevel (nodes : List State) : Level := nodes.all driveOf

/-- The AND of what the nodes other than node `i` drive. -/
def othersLevel (nodes : List State) (i : Nat) : Level := (nodes.eraseIdx i).all driveOf

/-- One bit period of one node, `o` the AND of the others. The host of a node that has not been configured may issue no `READ` (R225), and what
the node drives is any value, drawn afresh in each bit period (U2; log 28). -/
def nodePeriod (o : Level) (s : State) : State :=
  if s.busy then txPeriod (presentLevel o s)
  else if s.cfg.configured then (readPeriod o s).2
  else restPeriod (presentLevel o s)

/-- One bit period of all nodes. -/
def busPeriod (nodes : List State) : List State :=
  nodes.mapIdx fun i s => nodePeriod (othersLevel nodes i) s

end Sys2Proof.Machine
end

