-- ==== Sys2Proof/Machine/Whole.lean ====
section
/-! DEFINITION. `SEND` and `READ` each as ONE function of its inputs, transcribed from R144 and R177, beside the sequencers that
`exec` runs: the statements say that the two agree. -/

namespace Sys2Proof.Machine

/-- The outputs of R144: the result with its ghost cause, the levels driven (one per bit period), the new `TEC`, `STATE`. -/
structure SendResult where
  ok    : Bool
  cause : Option ErrorCause
  drove : List Level
  fc    : FaultConf
deriving DecidableEq, Repr

/-- The wire bits of logical bits from index `i` on, each with whether it is monitored: recessive, and its logical index below
`nd` (R144, R135, R136). -/
def wholeBody (nd : Nat) : Nat → List Level → Enc → List (Level × Bool)
  | _, [], _ => []
  | i, b :: bs, e =>
    (encBit b e).1.map (fun w => (w, w && decide (i < nd))) ++ wholeBody nd (i + 1) bs (encBit b e).2

/-- `wire` of R144: start-of-frame bit, body, CRC delimiter. -/
def wholeWire (f : TxFrame) : List (Level × Bool) :=
  (dominant, false) :: (wholeBody (nData (txLength f)) 0 (txLogical f) encStart ++ [(recessive, false)])

/-- The number of periods after which arbitration is lost, the first of them being period `p`; none if it is not lost (R144). -/
def wholeLost (other : Nat → Level) : Nat → List (Level × Bool) → Option Nat
  | _, [] => none
  | p, (w, mon) :: ws =>
    if mon = true ∧ (w && other p) = dominant then some (p + 1) else wholeLost other (p + 1) ws

/-- `SEND` as one function (R144): `other p` is the AND of what every other node drives in its `p`-th period. -/
def sendWhole (fc : FaultConf) (f : TxFrame) (other : Nat → Level) : SendResult :=
  if fc.state = .busOff then { ok := false, cause := some .busOff, drove := [], fc := fc }
  else
    let wire := wholeWire f
    match wholeLost other 0 wire with
    | some p => { ok := false, cause := some .arbitrationLost, drove := (wire.take p).map Prod.fst, fc := fc }
    | none =>
      let sent := wire.map Prod.fst ++ [recessive]
      if other wire.length = recessive then
        { ok := false, cause := some .noAck, drove := sent, fc := fc.onTxFailure }
      else
        { ok := true, cause := none, drove := sent ++ List.replicate 8 recessive, fc := fc.onTxSuccess }

/-- The registers `READ` writes, as R177 returns them. -/
structure ReadResult where
  st  : ReadStatus
  fc  : FaultConf
  rx  : Receiver
  rxf : RxFrame
deriving DecidableEq, Repr

/-- `FAIL` of R177. -/
def readFail (fc : FaultConf) (rx : Receiver) (rxf : RxFrame) : ReadResult where
  st := .frameError
  fc := fc.onRxFailure
  rx := { rx with rxs := .idle, ackcnt := 0 }
  rxf := rxf

/-- `READ` as one function (R177), for a buffer of `cap` bits and a frame end that would deliver the frame `f`. -/
def readWhole (cap : Nat) (now bittime : BitVec 32) (smp : Level) (fc : FaultConf) (rx : Receiver) (rxf f : RxFrame) : ReadResult :=
  let none : ReadResult := { st := .noMessage, fc := fc, rx := rx, rxf := rxf }
  if fc.state = .busOff then none
  else if (now - rx.lastsample).toNat < bittime.toNat then none
  else
    let rx := { rx with lastsample := rx.lastsample + bittime }
    let rx := if 0 < rx.ackcnt.toNat then { rx with ackcnt := rx.ackcnt - 1 } else rx
    let none : ReadResult := { st := .noMessage, fc := fc, rx := rx, rxf := rxf }
    if rx.rxs = .idle then
      if smp = dominant then
        { none with rx := { rx with rxcnt := 0, lastbit := dominant, run := 1, ackcnt := 0, rxs := .sof } }
      else none
    else
      let rx := { rx with rxs := .frame }
      let ev := (rx.decBit smp).1
      let rx := (rx.decBit smp).2
      let none : ReadResult := { st := .noMessage, fc := fc, rx := rx, rxf := rxf }
      match ev with
      | .drop => none
      | .hold => none
      | .stuffError => readFail fc rx rxf
      | .append b =>
        if rx.rxcnt = cap then readFail fc rx rxf
        else
          { none with
            rx := { rx with rxbuf := rx.rxbuf.write rx.rxcnt b, rxcnt := rx.rxcnt + 1 : Receiver }.ackCheck }
      | .frameEnd =>
        match rx.verdict with
        | some _ => readFail fc rx rxf
        | Option.none => { st := .messageOk, fc := fc.onRxSuccess, rx := { rx with rxs := .idle, ackcnt := 0 }, rxf := f }

end Sys2Proof.Machine
end

