-- ==== Sys2Proof/Safety.lean ====
section
/-! DEFINITION. What a good state is, in the terms the statements use: the invariants of R34 with the bounds of R205, and the
host's duties (46_host_interface.md R225; 93_implementation_defined.md part 2). -/

namespace Sys2Proof.Machine

/-- No cell of an index space lies at or above `n`. -/
def Memory.below (n : Nat) (m : Memory) : Bool := m.all fun c => decide (c.1 < n)

/-- The fault-confinement registers are consistent and in range (R17, R34 (a), R205). -/
structure FaultConf.Good (c : FaultConf) : Prop where
  state_is_class : c.state = classOf c.tec c.rec_
  tec_bound      : c.tec.toNat ≤ 263
  rec_bound      : c.rec_.toNat ≤ 256

/-- The receiver working set of a configured node between operations, its buffer of `cap` bits (R34 (b) to (d)). -/
structure Receiver.Good (cap : Nat) (r : Receiver) : Prop where
  idle_has_no_ack : r.rxs = .idle → r.ackcnt = 0
  frame_run_pos   : r.rxs ≠ .idle → 1 ≤ r.run.toNat
  frame_run_bound : r.rxs ≠ .idle → r.run.toNat ≤ 6
  frame_count     : r.rxs ≠ .idle → r.rxcnt ≤ cap
  run_six         : r.run = 6 → r.lastbit = recessive

/-- The invariant between host operations (R34): what holds of every state, and what holds once `BEGIN` has completed. The line
is recessive but in the bit period of an acknowledge (R34 (e)); the receive buffer is in canonical form and within its capacity (R22, log 4),
which is at least 128 (R4). -/
structure State.Inv (s : State) : Prop where
  fc_good      : s.fc.Good
  tx_idle      : s.tx.txph = .txIdle
  buf_wf       : s.rx.rxbuf.wf = true
  buf_capacity : s.rx.rxbuf.below s.par.rxbufBits = true
  rx_good      : s.cfg.configured = true → s.rx.Good s.par.rxbufBits
  bittime_pos  : s.cfg.configured = true → 1 ≤ s.cfg.bittime.toNat
  bittime_max  : s.cfg.configured = true → s.cfg.bittime.toNat ≤ Config.usPerSecond
  line_output  : s.cfg.configured = true → s.pin.txdir = .output
  line_idle    : s.cfg.configured = true → s.pin.txlvl = dominant → s.rx.ackcnt = 1
  par_bound    : Config.rxbufMin ≤ s.par.rxbufBits

/-- The node takes part in traffic: configured and not in Bus-Off (R225, R255). -/
def State.active (s : State) : Bool :=
  s.cfg.configured && decide (s.fc.state ≠ .busOff)

end Sys2Proof.Machine
end

