-- ==== Sys2Proof/Certificates/Slice0/Obligations.lean ====
section
/-! DEFINITION. The statements for the provers, each with the rule of the spec it formalises. -/

namespace Sys2Proof.Statements

open Sys2Proof.Machine

/-- A state after an operation that drove no bit period and returned `r`: nothing else differs. -/
def answered (r : Response) (s : State) : State :=
  { s with io := { s.io with drove := [], rsp := r } }

/-- The classification of R200 on numbers. -/
def classNat (tec rec_ : Nat) : NodeState :=
  if tec > 255 ∨ rec_ > 255 then .busOff
  else if tec > 127 ∨ rec_ > 127 then .errorPassive
  else .errorActive

/-- The fault-confinement registers hold these numbers and their classification. -/
def fcIs (c : FaultConf) (tec rec_ : Nat) : Prop :=
  c.tec.toNat = tec ∧ c.rec_.toNat = rec_ ∧ c.state = classNat tec rec_

/-- The events `DEC_BIT` gives over a sequence of samples. -/
def decEvents : List Level → Receiver → List DecEvent
  | [], _ => []
  | b :: bs, r => (r.decBit b).1 :: decEvents bs (r.decBit b).2

/-- What a decoder owes an encoder: each logical bit appended, and a drop exactly where a stuff bit was inserted. -/
def owedEvents : List Level → Enc → List DecEvent
  | [], _ => []
  | b :: bs, e =>
    (if (encBit b e).1.length = 2 then [.append b, .drop] else [.append b]) ++ owedEvents bs (encBit b e).2

/-- The bits of a frame the CRC covers (R61, R123). -/
def coveredBits (f : WireFrame) : List Level :=
  ser 11 f.id ++ ser 3 f.ctl ++ ser 4 f.rawDlc ++ f.data.flatMap (ser 8)

/-- The frame on the wire that a transmit frame stands for: control bits 0, the clamped DLC, the CRC over the covered bits,
delimiters recessive, acknowledge slot released (R60, R61, R63). -/
def wireOf (f : TxFrame) : WireFrame where
  id := f.id
  ctl := 0
  rawDlc := BitVec.ofNat 4 (min f.dlc.toNat 8)
  data := (dataBytes f.data).take (min f.dlc.toNat 8)
  crc := crcOf (ser 11 f.id ++ [dominant, dominant, dominant] ++ ser 4 (BitVec.ofNat 4 (min f.dlc.toNat 8)) ++
    ((dataBytes f.data).take (min f.dlc.toNat 8)).flatMap (ser 8))
  crcDel := recessive
  ack := recessive
  ackDel := recessive

/-- A sequence of `SEND`s one after the other, as long as each answers a next state. -/
def sends : List TxFrame → State → Option State
  | [], s => some s
  | f :: fs, s =>
    match exec (.send f) s with
    | .next t => sends fs t
    | .fault _ => none
    | .refused _ => none

/-- Steps of a `SEND` in progress until it is over, at most `n` of them, with all the levels driven. -/
def busySteps : Nat → State → List Level × State
  | 0, s => ([], s)
  | n + 1, s =>
    if s.busy then
      match step s with
      | .next t => (t.io.drove ++ (busySteps n t).1, (busySteps n t).2)
      | .fault _ => ([], s)
      | .refused _ => ([], s)
    else ([], s)

/-- One `READ` per bit period over a sequence of levels, each at the first clock value the scheduler accepts: the results, the
levels driven, the state left. In Bus-Off the `READ` samples no level (R161) and the bit period passes without it. -/
def reads : List Level → State → List (ReadStatus × Option ErrorCause) × List Level × State
  | [], s => ([], [], s)
  | l :: ls, s =>
    match exec (.read (s.rx.lastsample + s.cfg.bittime)) (if s.fc.state = .busOff then s else presentLevel l s) with
    | .next t =>
      match t.io.rsp with
      | .status st c =>
        let u := if s.fc.state = .busOff then restPeriod (presentLevel l t) else t
        ((st, c) :: (reads ls u).1, u.io.drove ++ (reads ls u).2.1, (reads ls u).2.2)
      | _ => ([], [], s)
    | .fault _ => ([], [], s)
    | .refused _ => ([], [], s)

/-- A node that can take part in traffic, with an idle receiver and an idle line, as `BEGIN` leaves it (R219, R34), its receive
buffer in canonical form (log 4) and of at least 128 bits (R4). -/
def ReadyToReceive (s : State) : Prop :=
  s.cfg.configured = true ∧ s.fc.state ≠ .busOff ∧ s.rx.rxs = .idle ∧ s.rx.ackcnt = 0 ∧
    s.rx.rxbuf.wf = true ∧ s.pin = { txdir := .output, txlvl := recessive } ∧ Config.rxbufMin ≤ s.par.rxbufBits

end Sys2Proof.Statements

open Sys2Proof Sys2Proof.Machine Sys2Proof.Statements

/-! ### Reset, construction, configuration, NOP -/

/-- R270, R32 (first column): what the spec gives for the state after reset. The values of the registers the spec calls
unspecified are the model's choice (log 1) and are not stated. -/
def Obligations.ResetGivesConstructionState : Prop :=
  State.reset.fc.tec = 0 ∧ State.reset.fc.rec_ = 0 ∧ State.reset.fc.state = .errorActive ∧
    State.reset.cfg.configured = false ∧ State.reset.tx.txph = .txIdle ∧ State.reset.outPorts.busy = false ∧
    State.reset.outPorts.tec = 0 ∧ State.reset.outPorts.rec_ = 0 ∧ State.reset.outPorts.state = 0

/-- R218, R270 (read as log 21 says: accepted in any state, a `SEND` in progress included, the environment goes on, and no response
answers it): `NEW` completes in the construction state, whatever the pin identifiers are; of the registers the spec calls
unspecified nothing is stated (log 2). -/
def Obligations.NewConstructsWhateverThePins : Prop :=
  ∀ (s : State) (rxPin txPin rxPin' txPin' : Nat),
    ∃ t, exec (.new rxPin txPin) s = .next t ∧ exec (.new rxPin' txPin') s = .next t ∧
      fcIs t.fc 0 0 ∧ t.cfg.configured = false ∧ t.tx.txph = .txIdle ∧ t.busy = false ∧
      t.io.host = s.io.host ∧ t.io.other = s.io.other ∧ t.io.drove = [] ∧ t.io.rsp = .none ∧
      t.outPorts.rspValid = false ∧ t.par = s.par

/-- R222 (the spec's decision D1): `NOP` changes no register. -/
def Obligations.NopLeavesEveryRegister : Prop :=
  ∀ s : State, exec .nop s = .next (answered .done s)

/-- R219 (its receiver line is the spec's decision D18): every register `BEGIN` writes, in any state, Bus-Off included, and what
it leaves (R272, derived there from R32; that the working sets keep their values is log 15); out of its range of baud rates it is refused (R225). -/
def Obligations.BeginConfiguresTheNode : Prop :=
  ∀ (s : State) (baud now : BitVec 32),
    (1 ≤ baud.toNat → baud.toNat ≤ 1000000 →
      ∃ t, exec (.begin baud now) s = .next t ∧
        t.cfg.bittime.toNat = 1000000 / baud.toNat ∧ 1 ≤ t.cfg.bittime.toNat ∧ t.cfg.configured = true ∧
        t.pin.txdir = .output ∧ t.pin.txlvl = recessive ∧ t.drive = recessive ∧
        fcIs t.fc 0 0 ∧
        t.rx.lastsample = now ∧ t.rx.rxs = .idle ∧ t.rx.rxcnt = 0 ∧ t.rx.run = 0 ∧ t.rx.lastbit = recessive ∧
        t.rx.ackcnt = 0 ∧
        t.rx.rxbuf = s.rx.rxbuf ∧ t.tx = s.tx ∧ t.txf = s.txf ∧ t.rxf = s.rxf ∧ t.sendOk = s.sendOk ∧
        t.readStatus = s.readStatus ∧ t.par = s.par ∧ t.io = { s.io with drove := [], rsp := .done }) ∧
    (baud.toNat = 0 ∨ 1000000 < baud.toNat → exec (.begin baud now) s = .refused .baudOutOfRange)

/-- R225, first row: before the first `BEGIN` a model must refuse `SEND` and `READ`, never return a value; so it does a frame
format, which is a run of `READ`s (log 10). -/
def Obligations.UnconfiguredNodeRefuses : Prop :=
  ∀ (s : State) (f : TxFrame) (now : BitVec 32) (d : Nat) (w : WireFrame) (i : Instr),
    s.cfg.configured = false →
      exec (.send f) s = .refused .notConfigured ∧ exec (.read now) s = .refused .notConfigured ∧
        (Instr.ofFormat d w = some i → exec i s = .refused .notConfigured)

/-! ### Line driver -/

/-- R91, R92, R93 with R95: the latches each operation leaves, the level the node then drives, and that nothing else changes. -/
def Obligations.LineOperationsSetTheLatches : Prop :=
  ∀ s : State,
    (∃ t, exec .driveDominant s = .next t ∧
      t = { answered .done s with pin := { txdir := .output, txlvl := dominant } } ∧ t.drive = dominant) ∧
    (∃ t, exec .driveRecessive s = .next t ∧
      t = { answered .done s with pin := { txdir := .output, txlvl := recessive } } ∧ t.drive = recessive) ∧
    (∃ t, exec .release s = .next t ∧
      t = { answered .done s with pin := { txdir := .input, txlvl := s.pin.txlvl } } ∧ t.drive = recessive)

/-- R94 (that a node's own level is part of its sample, log 25; that the bit period does not end with it, log 24): `SAMPLE_RX`
returns the level of the bus, dominant while the node itself drives dominant, recessive when nobody drives, and has no side
effect. -/
def Obligations.SampleRxReturnsTheBusLevel : Prop :=
  ∀ s : State,
    ∃ l, exec .sampleRx s = .next (answered (.level l) s) ∧
      (s.pin.txdir = .output → s.pin.txlvl = dominant → l = dominant) ∧
      (s.pin.txdir = .input ∨ s.pin.txlvl = recessive →
        (∀ o rest, s.io.other = o :: rest → l = o) ∧ (s.io.other = [] → l = recessive))

/-- R97 (that a node's own level is part of its sample is the spec's decision D5, log 25; nodes with coinciding bit periods, log
27; a node before its first `BEGIN`, log 28): on a bus of any number of nodes each node's `SAMPLE_RX` is the wired-AND of all
drives, dominant while any node drives dominant, recessive while none does, and what it puts on the bus in its bit period is the
drive that the others see. -/
def Obligations.EveryNodeSamplesTheWiredAnd : Prop :=
  ∀ (nodes : List State) (i : Nat) (h : i < nodes.length),
    sampleRx (presentLevel (othersLevel nodes i) (startPeriod nodes[i])) = busLevel nodes ∧
      (∀ j (hj : j < nodes.length), driveOf nodes[j] = dominant → busLevel nodes = dominant) ∧
      ((∀ j (hj : j < nodes.length), driveOf nodes[j] = recessive) → busLevel nodes = recessive) ∧
      (busPeriod nodes)[i]?.map (fun t => t.io.drove) = some (nodes[i].io.drove ++ [driveOf nodes[i]])

/-! ### Bit codec -/

/-- R102 (values the spec derives from R101 (a) and R165): `ENC_INIT`. -/
def Obligations.EncInitStartsTheRun : Prop :=
  ∀ s : State,
    exec .encInit s = .next { answered .done s with tx := { s.tx with enclast := dominant, encrun := 1 } }

/-- R103: `ENC_BIT` emits the bit, and after a run of five the opposite bit, in every state it is entered in; the run stays in 1
to 4. -/
def Obligations.EncBitStuffsAfterFive : Prop :=
  ∀ (s : State) (b : Level) (n : Nat), 1 ≤ s.tx.encrun.toNat → s.tx.encrun.toNat ≤ 4 →
    n = (if b = s.tx.enclast then s.tx.encrun.toNat + 1 else 1) →
    ∃ t, exec (.encBit b) s = .next t ∧ 1 ≤ t.tx.encrun.toNat ∧ t.tx.encrun.toNat ≤ 4 ∧
      (n < 5 → t = { answered (.bits [b]) s with tx := { s.tx with enclast := b, encrun := BitVec.ofNat 3 n } }) ∧
      (n = 5 → t = { answered (.bits [b, !b]) s with tx := { s.tx with enclast := !b, encrun := 1 } })

/-- R104 (derived there from R102, R103; the state `ENC_SEQ` leaves, log 22): `ENC_SEQ` starts from the state of `ENC_INIT`, and
over one more bit it emits and leaves what `ENC_BIT` does after it. -/
def Obligations.EncSeqIteratesEncBit : Prop :=
  ∀ s : State,
    (∃ t, exec .encInit s = .next t ∧ exec (.encSeq []) s = .next (answered (.bits []) t)) ∧
    ∀ (bits : List Level) (b : Level), ∃ t u w v,
      exec (.encSeq bits) s = .next t ∧ t.io.rsp = .bits w ∧
      exec (.encBit b) t = .next u ∧ u.io.rsp = .bits v ∧
      exec (.encSeq (bits ++ [b])) s = .next (answered (.bits (w ++ v)) u)

/-- R105 (a) (derived there from R103): no six identical consecutive bits in the stuffable region, the start-of-frame bit
included. -/
def Obligations.StuffedRegionHasNoRunOfSix : Prop :=
  ∀ (bits : List Level) (s t : State) (w : List Level),
    exec (.encSeq bits) s = .next t → t.io.rsp = .bits w →
      ∀ i b, i + 6 ≤ (dominant :: w).length → ∃ j, j < 6 ∧ (dominant :: w).getD (i + j) b ≠ b

/-- R105 (b) (derived there from R103): of `n` wire bits before stuffing at most `(n - 1) / 4` stuff bits. -/
def Obligations.StuffBitsAreAtMostAQuarter : Prop :=
  ∀ (bits : List Level) (s : State),
    ∃ t w, exec (.encSeq bits) s = .next t ∧ t.io.rsp = .bits w ∧
      bits.length ≤ w.length ∧ w.length - bits.length ≤ (1 + bits.length - 1) / 4

/-- R106: `DEC_INIT`. -/
def Obligations.DecInitStartsTheRun : Prop :=
  ∀ s : State,
    exec .decInit s = .next { answered .done s with rx := { s.rx with lastbit := dominant, run := 1 } }

/-- R107 (its order of tests is the spec's decision D13): every branch of `DEC_BIT`, for every state it is entered in (`RUN` 1
to 6, and 6 only with a recessive run). -/
def Obligations.DecBitDestuffs : Prop :=
  ∀ (s : State) (b : Level), 1 ≤ s.rx.run.toNat → s.rx.run.toNat ≤ 6 →
    (s.rx.run.toNat = 6 → s.rx.lastbit = recessive) →
    ∃ t e, exec (.decBit b) s = .next t ∧
      t = { answered (.event e) s with rx := { s.rx with lastbit := t.rx.lastbit, run := t.rx.run } } ∧
      (s.rx.run.toNat < 5 → b = s.rx.lastbit →
        e = .append b ∧ t.rx.lastbit = s.rx.lastbit ∧ t.rx.run.toNat = s.rx.run.toNat + 1) ∧
      (s.rx.run.toNat < 5 → b ≠ s.rx.lastbit → e = .append b ∧ t.rx.lastbit = b ∧ t.rx.run = 1) ∧
      (s.rx.run.toNat = 5 → b ≠ s.rx.lastbit → e = .drop ∧ t.rx.lastbit = b ∧ t.rx.run = 1) ∧
      (s.rx.run.toNat = 5 → b = s.rx.lastbit → b = dominant → e = .stuffError ∧ t.rx = s.rx) ∧
      (s.rx.run.toNat = 5 → b = s.rx.lastbit → b = recessive →
        e = .hold ∧ t.rx.lastbit = s.rx.lastbit ∧ t.rx.run = 6) ∧
      (s.rx.run.toNat = 6 → b = recessive → e = .frameEnd ∧ t.rx.lastbit = s.rx.lastbit ∧ t.rx.run = 7) ∧
      (s.rx.run.toNat = 6 → b = dominant → e = .stuffError ∧ t.rx = s.rx)

/-- R109 (derived there from R103, R107): the decoder inverts the encoder: fed `ENC_SEQ(bits)` from the state of `DEC_INIT` it
appends exactly `bits` and drops exactly the stuff bits; no stuff error, no frame end, no hold. -/
def Obligations.DecoderInvertsEncoder : Prop :=
  ∀ (bits : List Level) (s t u : State) (w : List Level),
    exec (.encSeq bits) s = .next t → t.io.rsp = .bits w → exec .decInit s = .next u →
      decEvents w u.rx = owedEvents bits encStart ∧
      (owedEvents bits encStart).filterMap (fun e => match e with | .append b => some b | _ => none) = bits

/-! ### CRC -/

/-- R121: one step of the register, in integer arithmetic. -/
def Obligations.CrcStepFollowsThePolynomial : Prop :=
  ∀ (s : State) (reg : BitVec 15) (b : Level), ∃ v : BitVec 15,
    exec (.crc15Step reg b) s = .next (answered (.crc v) s) ∧
      v.toNat = (2 * reg.toNat % 32768) ^^^
        (if (reg.toNat / 16384 + b.toNat) % 2 = 1 then 0x4599 else 0)

/-- R122: `CRC15` is 0 on the empty sequence and takes one `CRC15_STEP` per further bit, in transmission order. -/
def Obligations.CrcIteratesTheStep : Prop :=
  ∀ s : State,
    exec (.crc15 []) s = .next (answered (.crc 0) s) ∧
    ∀ (bits : List Level) (b : Level), ∃ v w,
      exec (.crc15 bits) s = .next (answered (.crc v) s) ∧
      exec (.crc15Step v b) s = .next (answered (.crc w) s) ∧
      exec (.crc15 (bits ++ [b])) s = .next (answered (.crc w) s)

/-- R124 (derived there from R121, R122): leading zeros do not change the CRC. -/
def Obligations.CrcIgnoresLeadingZeros : Prop :=
  ∀ (s : State) (n : Nat) (bits : List Level),
    exec (.crc15 (List.replicate n dominant ++ bits)) s = exec (.crc15 bits) s

/-- R125 (derived there by linearity): a sequence followed by its own CRC has residue 0. -/
def Obligations.CrcResidueIsZero : Prop :=
  ∀ (s : State) (bits : List Level), ∃ v,
    exec (.crc15 bits) s = .next (answered (.crc v) s) ∧
      exec (.crc15 (bits ++ ser 15 v)) s = .next (answered (.crc 0) s)

/-! ### Transmitter -/

/-- R132: what `TX_BUILD` puts into the transmitter working set, read back field by field, for every length operand. -/
def Obligations.TxBuildLaysOutTheFrame : Prop :=
  ∀ (s : State) (d : Nat), d = min s.txf.dlc.toNat 8 →
    ∃ t, exec .txBuild s = .next t ∧
      t = { answered .done s with tx := { s.tx with
              txbits := t.tx.txbits, txlen := t.tx.txlen, txndata := t.tx.txndata } } ∧
      t.tx.txlen.toNat = 33 + 8 * d ∧ t.tx.txndata.toNat = 18 + 8 * d ∧ t.tx.txbits.length = 33 + 8 * d ∧
      intOf (subBits t.tx.txbits 0 11) = s.txf.id.toNat ∧
      subBits t.tx.txbits 11 3 = [dominant, dominant, dominant] ∧
      intOf (subBits t.tx.txbits 14 4) = d ∧
      (∀ k, k < d → intOf (subBits t.tx.txbits (18 + 8 * k) 8) = ((dataBytes s.txf.data).getD k 0).toNat) ∧
      intOf (subBits t.tx.txbits (18 + 8 * d) 15) = (crcOf (subBits t.tx.txbits 0 (18 + 8 * d))).toNat

/-- R131, R242, R220 (the two read together as log 13 says): in Bus-Off `SEND` latches its operand at acceptance, returns false
in zero bit periods and changes no register but the result flag. -/
def Obligations.SendInBusOffIsMute : Prop :=
  ∀ (s : State) (f : TxFrame), s.cfg.configured = true → s.fc.state = .busOff →
    exec (.send f) s = .next { answered (.sent false (some .busOff)) s with txf := f, sendOk := false }

/-- R144 (derived there from R131 to R141; `SEND` as one step, log 8): `SEND`, run period by period by the sequencer, is the one
function of R144: result, levels driven, periods used, counters; the latches and the phase on every return; `TXF` latched at
acceptance, in Bus-Off too (log 13); and what it leaves (R143). -/
def Obligations.SendIsOneFunctionOfFrameAndBus : Prop :=
  ∀ (s : State) (f : TxFrame) (r : SendResult), s.cfg.configured = true →
    r = sendWhole s.fc f (fun p => s.io.other.getD p recessive) →
    ∃ t, exec (.send f) s = .next t ∧ t.sendOk = r.ok ∧ t.io.rsp = .sent r.ok r.cause ∧
      t.io.drove = r.drove ∧ t.io.other = s.io.other.drop r.drove.length ∧ t.fc = r.fc ∧
      t.fc.rec_ = s.fc.rec_ ∧
      t.rx = s.rx ∧ t.rxf = s.rxf ∧ t.readStatus = s.readStatus ∧ t.cfg = s.cfg ∧ t.par = s.par ∧
      t.io.host = s.io.host ∧ t.io.fresh = s.io.fresh ∧ t.txf = f ∧
      (s.fc.state = .busOff → t.tx = s.tx ∧ t.pin = s.pin) ∧
      (s.fc.state ≠ .busOff → t.tx.txph = .txIdle ∧ t.pin = { txdir := .output, txlvl := recessive })

/-- R142 (derived there from R131 to R141): the duration of every `SEND` in bit periods, by its outcome, and the bounds of `W`.
-/
def Obligations.SendTakesTheStatedPeriods : Prop :=
  ∀ (s t : State) (f : TxFrame) (d W : Nat) (e : State) (w : List Level), d = min f.dlc.toNat 8 →
    exec (.encSeq (txLogical f)) s = .next e → e.io.rsp = .bits w → W = 1 + w.length →
    exec (.send f) s = .next t →
      34 + 8 * d ≤ W ∧ W ≤ 34 + 8 * d + (33 + 8 * d) / 4 ∧
      (t.io.rsp = .sent false (some .busOff) → t.io.drove.length = 0) ∧
      (t.io.rsp = .sent false (some .arbitrationLost) →
        ∃ j, j < W ∧ t.io.drove.length = j + 1 ∧ t.io.drove = (dominant :: w).take (j + 1) ∧
          s.io.other.getD j recessive = dominant) ∧
      (t.io.rsp = .sent false (some .noAck) → t.io.drove.length = W + 2) ∧
      (t.io.rsp = .sent true none → t.io.drove.length = W + 10) ∧
      (t.io.rsp = .sent false (some .busOff) ∨ t.io.rsp = .sent false (some .arbitrationLost) ∨
        t.io.rsp = .sent false (some .noAck) ∨ t.io.rsp = .sent true none)

/-- R137: the exit by arbitration loss calls no hook, restores the line and leaves the receiver alone; the loser drove recessive
in the period of the loss, in which another node drove dominant. -/
def Obligations.ArbitrationLossScoresNothing : Prop :=
  ∀ (s t : State) (f : TxFrame), exec (.send f) s = .next t →
    t.io.rsp = .sent false (some .arbitrationLost) →
      t.fc = s.fc ∧ t.sendOk = false ∧ t.pin = { txdir := .output, txlvl := recessive } ∧ t.drive = recessive ∧
      t.tx.txph = .txIdle ∧ t.rx = s.rx ∧
      ∃ p, t.io.drove.length = p + 1 ∧ t.io.drove.getD p dominant = recessive ∧
        s.io.other.getD p recessive = dominant

/-- R63, R248 (property 4 of the source): every length operand of 8 or more sends the same wire bits. -/
def Obligations.SendClampsTheLength : Prop :=
  ∀ (s t u : State) (f g : TxFrame), f.id = g.id → f.data = g.data → 8 ≤ f.dlc.toNat → 8 ≤ g.dlc.toNat →
    exec (.send f) s = .next t → exec (.send g) s = .next u →
      t.io = u.io ∧ t.fc = u.fc ∧ t.sendOk = u.sendOk ∧ t.tx = u.tx

/-- R61, R73 (a) and (b), R104: what an acknowledged `SEND` puts on the bus is the wire image of the frame format for its
payload length, whose fields are those of the frame sent. -/
def Obligations.SendEmitsItsFrameFormat : Prop :=
  ∀ (s t : State) (f : TxFrame), exec (.send f) s = .next t → t.io.rsp = .sent true none →
    (wireOf f).fits (min f.dlc.toNat 8) = true ∧ t.io.drove = wireImage (wireOf f) ∧
      ∃ i, Instr.ofFormat (min f.dlc.toNat 8) (wireOf f) = some i ∧ encode i = some (.frame (frameBits (wireOf f)))

/-- R209 (its general form is derived there from R200, R201; property 5 of the source): on a bus with nobody else (log 6), each
`SEND` of a fresh node ends without an acknowledge and adds 8 to `TEC`, up to 256 and Bus-Off after 32 of them, where it stays.
-/
def Obligations.UnacknowledgedSendsReachBusOff : Prop :=
  ∀ (fs : List TxFrame) (s : State), s.cfg.configured = true → fcIs s.fc 0 0 → s.io.other = [] →
    ∃ t, sends fs s = some t ∧ fcIs t.fc (8 * min fs.length 32) 0 ∧ (0 < fs.length → t.sendOk = false)

/-- R143: what `SEND` does, drives and returns does not depend on the receiver's registers, on `RXF` or on the last read status.
-/
def Obligations.SendIgnoresTheReceiver : Prop :=
  ∀ (s t : State) (f : TxFrame) (rx : Receiver) (rxf : RxFrame) (st : ReadStatus),
    exec (.send f) s = .next t →
      exec (.send f) { s with rx := rx, rxf := rxf, readStatus := st } =
        .next { t with rx := rx, rxf := rxf, readStatus := st }

/-- R133, R217, R223 (log 8, the model's two readings of a `SEND` agree): stepping the machine one bit period at a time from the
acceptance of a `SEND` until it is no longer busy drives the same levels and leaves the same registers as the `SEND` as a whole,
whatever commands wait meanwhile. -/
def Obligations.BusyStepsMakeTheWholeSend : Prop :=
  ∀ (s t : State) (f : TxFrame), s.cfg.configured = true → s.fc.state ≠ .busOff →
    (∀ p, s.io.host.head? = some p → ∃ c, p = .command c) →
    exec (.send f) s = .next t →
      ∃ u, busySteps (t.io.drove.length) (txStart f s) = (t.io.drove, u) ∧ u.busy = false ∧
        t = { u with io := { u.io with drove := t.io.drove } }

/-! ### Receiver -/

/-- R161 (that `LASTSAMPLE` stays is the spec's decision D20): in Bus-Off `READ` returns `NoMessage`, takes no sample and
changes no register but the result. -/
def Obligations.ReadInBusOffIsMute : Prop :=
  ∀ (s : State) (now : BitVec 32), s.cfg.configured = true → s.fc.state = .busOff →
    exec (.read now) s =
      .next { answered (.status .noMessage (some .busOff)) s with readStatus := .noMessage }

/-- R162, R163 (that one bit period passes with the accepted call, however late it is, log 7; the level sampled, the acknowledge
in it included, log 9 and log 25; the modular clock, the spec's decision D3, log 17): the scheduler: too early, nothing but the
status changes; otherwise `LASTSAMPLE` advances by `BITTIME`, modulo 2^32, one bit period is sampled, and its one sample is fed
to `RX_STEP`. -/
def Obligations.ReadSchedulerKeepsItsPhase : Prop :=
  ∀ (s : State) (now : BitVec 32) (smp : Level), s.cfg.configured = true → s.fc.state ≠ .busOff →
    smp = (s.drive && s.io.other.headD recessive) →
    ((now - s.rx.lastsample).toNat < s.cfg.bittime.toNat →
      exec (.read now) s = .next { answered (.status .noMessage none) s with readStatus := .noMessage }) ∧
    (s.cfg.bittime.toNat ≤ (now - s.rx.lastsample).toNat →
      ∃ t u, exec (.read now) s = .next t ∧ t.rx.lastsample = s.rx.lastsample + s.cfg.bittime ∧
        t.io.other = s.io.other.tail ∧ t.io.drove = [s.drive] ∧
        exec (.rxStep smp) { s with rx := { s.rx with lastsample := s.rx.lastsample + s.cfg.bittime } } = .next u ∧
        t.rx = u.rx ∧ t.fc = u.fc ∧ t.rxf = u.rxf ∧ t.io.rsp = u.io.rsp)

/-- R177 (derived there from R161 to R174): `READ`, composed of gate, scheduler, acknowledge, state machine and exits, is the
one function of R177 on the level the RX pin shows; and what it leaves. `RXF` is `r.rxf`; the bytes past the payload of a
delivered frame are free values (log 3). -/
def Obligations.ReadIsOneFunctionOfClockAndLevel : Prop :=
  ∀ (s : State) (now : BitVec 32) (smp : Level), s.cfg.configured = true →
    smp = (s.drive && s.io.other.headD recessive) →
    ∃ (t : State) (f : RxFrame) (r : ReadResult) (c : Option ErrorCause), exec (.read now) s = .next t ∧
      r = readWhole s.par.rxbufBits now s.cfg.bittime smp s.fc s.rx s.rxf f ∧
      t.io.rsp = .status r.st c ∧ t.readStatus = r.st ∧ t.fc = r.fc ∧ t.rx = r.rx ∧ t.rxf = r.rxf ∧
      f.id = s.rx.rxbuf.field 0 11 ∧ f.dlc.toNat = min (s.rx.rxbuf.field 14 4).toNat 8 ∧
      (∀ k, k < f.dlc.toNat → (dataBytes f.data).getD k 0 = s.rx.rxbuf.field (18 + 8 * k) 8) ∧
      t.fc.tec = s.fc.tec ∧
      t.txf = s.txf ∧ t.sendOk = s.sendOk ∧ t.cfg = s.cfg ∧ t.tx = s.tx ∧ t.par = s.par ∧
      t.io.host = s.io.host

/-- R172, R95 (how the bit period begins and ends in the model, log 9; a step in which the host issues nothing is a bit period, log
19): an accepted `READ` that leaves `ACKCNT` = 1 leaves the line driven dominant, and any other ends an acknowledge that was
driven; the bit period that follows is driven dominant whether the host reads in it or not, and the line is recessive after it. -/
def Obligations.AcknowledgeIsDrivenForOnePeriod : Prop :=
  ∀ (s t : State) (now : BitVec 32), s.cfg.configured = true → s.fc.state ≠ .busOff → s.busy = false →
    s.cfg.bittime.toNat ≤ (now - s.rx.lastsample).toNat → exec (.read now) s = .next t →
      t.io.drove = [s.drive] ∧
      (t.rx.ackcnt = 1 → t.pin = { txdir := .output, txlvl := dominant }) ∧
      (t.rx.ackcnt ≠ 1 → t.pin = if s.rx.ackcnt = 1 then { txdir := .output, txlvl := recessive } else s.pin) ∧
      (t.rx.ackcnt = 1 →
        (∃ u, step { t with io := { t.io with host := [] } } = .next u ∧ u.io.drove = [dominant] ∧
          u.pin = { txdir := .output, txlvl := recessive } ∧ u.rx = t.rx ∧ u.fc = t.fc) ∧
        ∀ later : BitVec 32, t.cfg.bittime.toNat ≤ (later - t.rx.lastsample).toNat →
          ∃ u, exec (.read later) t = .next u ∧ u.io.drove = [dominant] ∧
            u.pin = { txdir := .output, txlvl := recessive } ∧ u.rx.ackcnt ≠ 1)

/-- R164, R165, R166: `RX_STEP` completes on every state and sample; in `Idle` a recessive sample does nothing but count the
acknowledge down, a dominant one is a start of frame; in `Sof` a sample is taken as in `Frame`. -/
def Obligations.RxStepStartsAFrame : Prop :=
  ∀ (s : State) (smp : Level) (r : Receiver),
    r = { s.rx with ackcnt := if s.rx.ackcnt = 0 then 0 else s.rx.ackcnt - 1 } →
    (∃ t st c, exec (.rxStep smp) s = .next t ∧ t.io.rsp = .status st c) ∧
    (s.rx.rxs = .idle → smp = recessive →
      exec (.rxStep smp) s = .next { answered (.status .noMessage none) s with rx := r }) ∧
    (s.rx.rxs = .idle → smp = dominant →
      exec (.rxStep smp) s = .next { answered (.status .noMessage none) s with
        rx := { s.rx with rxcnt := 0, lastbit := dominant, run := 1, ackcnt := 0, rxs := .sof } }) ∧
    (s.rx.rxs = .sof →
      exec (.rxStep smp) s = exec (.rxStep smp) { s with rx := { s.rx with rxs := .frame } })

/-- R168 (the capacity is the parameter `RXBUF_BITS` of R4, log 5): a sample in `Frame` that the decoder appends is stored at index `RXCNT` and counted, `ACK_CHECK` follows, and every
other element of the buffer reads as before; with a full buffer nothing is stored and the error is `Overflow`. -/
def Obligations.AppendStoresOneBit : Prop :=
  ∀ (s : State) (smp : Level), s.rx.rxbuf.wf = true → s.rx.rxs = .frame → s.rx.run.toNat < 5 →
    s.rx.rxcnt ≤ s.par.rxbufBits →
    ∃ t, exec (.rxStep smp) s = .next t ∧
      (∀ a, a ≠ s.rx.rxcnt → t.rx.rxbuf.read a = s.rx.rxbuf.read a) ∧
      (s.rx.rxcnt < s.par.rxbufBits →
        t.rx.rxbuf.read s.rx.rxcnt = smp ∧ t.rx.rxcnt = s.rx.rxcnt + 1 ∧
        t.rx.rxs = .frame ∧ t.rx.lastbit = smp ∧
        t.rx.run.toNat = (if smp = s.rx.lastbit then s.rx.run.toNat + 1 else 1) ∧
        t.io.rsp = .status .noMessage none ∧ t.fc = s.fc ∧ t.rxf = s.rxf ∧ t.readStatus = s.readStatus ∧
        ∃ u v, exec .ackCheck u = .next v ∧ t.rx = v.rx ∧
          u.rx = { t.rx with ackcnt := if s.rx.ackcnt = 0 then 0 else s.rx.ackcnt - 1 }) ∧
      (s.rx.rxcnt = s.par.rxbufBits →
        t.rx.rxbuf = s.rx.rxbuf ∧ t.rx.rxcnt = s.rx.rxcnt ∧ t.io.rsp = .status .frameError (some .overflow))

/-- R43, R22: the receive buffer changes by appends alone: a `READ` stores nowhere but at index `RXCNT`, and nothing at all
unless it counts `RXCNT` up; the commands `NOP`, `BEGIN`, `SEND` store nothing. -/
def Obligations.CommandsStoreOnlyByAppend : Prop :=
  ∀ (s t : State),
    (∀ now, exec (.read now) s = .next t → ∀ a, a ≠ s.rx.rxcnt → t.rx.rxbuf.read a = s.rx.rxbuf.read a) ∧
    (∀ now, exec (.read now) s = .next t → t.rx.rxcnt = s.rx.rxcnt ∨ t.rx.rxcnt = 0 →
      ∀ a, t.rx.rxbuf.read a = s.rx.rxbuf.read a) ∧
    (∀ i, (i = .nop ∨ (∃ baud now, i = .begin baud now) ∨ (∃ f, i = .send f)) → exec i s = .next t →
      ∀ a, t.rx.rxbuf.read a = s.rx.rxbuf.read a)

/-- R173, R174: every result of `RX_STEP` runs the exit the spec gives it: an error the receive-failure hook, a good frame the
receive-success hook, both back to `Idle` with no acknowledge pending; no message leaves counters, status and `RXF`. -/
def Obligations.ReceiverExitsScoreTheFrame : Prop :=
  ∀ (s : State) (smp : Level), s.fc.state ≠ .busOff → s.fc.rec_.toNat ≤ 256 →
    ∃ t st c, exec (.rxStep smp) s = .next t ∧ t.io.rsp = .status st c ∧
      t.fc.tec = s.fc.tec ∧ t.cfg = s.cfg ∧ t.tx = s.tx ∧ t.txf = s.txf ∧ t.pin = s.pin ∧ t.par = s.par ∧
      t.sendOk = s.sendOk ∧ t.rx.lastsample = s.rx.lastsample ∧ t.io.host = s.io.host ∧ t.io.other = s.io.other ∧ t.io.drove = [] ∧
      (∀ a, a ≠ s.rx.rxcnt → t.rx.rxbuf.read a = s.rx.rxbuf.read a) ∧
      (st ≠ .noMessage → t.rx.rxbuf = s.rx.rxbuf) ∧
      (st = .frameError →
        fcIs t.fc s.fc.tec.toNat (s.fc.rec_.toNat + 1) ∧ t.rx.rxs = .idle ∧ t.rx.ackcnt = 0 ∧
        t.readStatus = .frameError ∧ t.rxf = s.rxf ∧ c ≠ none) ∧
      (st = .messageOk →
        fcIs t.fc s.fc.tec.toNat (s.fc.rec_.toNat - 1) ∧ t.rx.rxs = .idle ∧ t.rx.ackcnt = 0 ∧
        t.readStatus = .messageOk ∧ c = none) ∧
      (st = .noMessage → t.fc = s.fc ∧ t.readStatus = s.readStatus ∧ t.rxf = s.rxf ∧ c = none)

/-- R170 (the order of the checks is the spec's decision D16): `RX_DECODE`, the checks in their order and the fields of a good
frame; `RXF` is written on success only. Of `RXF.data[k]` for `k` at or above the length nothing is stated (log 3). -/
def Obligations.RxDecodeChecksThenDelivers : Prop :=
  ∀ (s : State) (n d : Nat), n = s.rx.rxcnt → d = min (s.rx.rxbuf.field 14 4).toNat 8 →
    ∃ t, exec .rxDecode s = .next t ∧
      t.rx = s.rx ∧ t.fc = s.fc ∧ t.cfg = s.cfg ∧ t.tx = s.tx ∧ t.pin = s.pin ∧ t.par = s.par ∧
      t.txf = s.txf ∧ t.sendOk = s.sendOk ∧ t.readStatus = s.readStatus ∧
      (n < 18 → t.io.rsp = .decoded (.err .short) ∧ t.rxf = s.rxf) ∧
      (18 ≤ n → n < 33 + 8 * d → t.io.rsp = .decoded (.err .length) ∧ t.rxf = s.rxf) ∧
      (18 ≤ n → 33 + 8 * d ≤ n → crcOf (s.rx.rxbuf.range 0 (18 + 8 * d)) ≠ s.rx.rxbuf.field (18 + 8 * d) 15 →
        t.io.rsp = .decoded (.err .crcMismatch) ∧ t.rxf = s.rxf) ∧
      (18 ≤ n → 33 + 8 * d ≤ n → crcOf (s.rx.rxbuf.range 0 (18 + 8 * d)) = s.rx.rxbuf.field (18 + 8 * d) 15 →
        t.io.rsp = .decoded (.ok t.rxf) ∧ t.rxf.id = s.rx.rxbuf.field 0 11 ∧ t.rxf.dlc.toNat = d ∧
        ∀ k, k < d → (dataBytes t.rxf.data).getD k 0 = s.rx.rxbuf.field (18 + 8 * k) 8)

/-- R171 (the early check is the spec's decision D15): `ACK_CHECK` arms the acknowledge exactly when the last CRC bit has come
and the CRC matches, one period later if a stuff bit follows. -/
def Obligations.AckCheckArmsOnTheLastCrcBit : Prop :=
  ∀ (s : State) (n d : Nat), n = s.rx.rxcnt → d = min (s.rx.rxbuf.field 14 4).toNat 8 →
    ∃ a, exec .ackCheck s = .next { answered .done s with rx := { s.rx with ackcnt := a } } ∧
      (n = 33 + 8 * d → crcOf (s.rx.rxbuf.range 0 (18 + 8 * d)) = s.rx.rxbuf.field (18 + 8 * d) 15 →
        a = if s.rx.run = 5 then 3 else 2) ∧
      (n ≠ 33 + 8 * d ∨ crcOf (s.rx.rxbuf.range 0 (18 + 8 * d)) ≠ s.rx.rxbuf.field (18 + 8 * d) 15 →
        a = s.rx.ackcnt)

/-! ### Whole frames -/

/-- R73 (b), R163, R275 (log 10, the model's reading): a frame format of ANY fields runs on every configured node, Bus-Off
included, as one `READ` per bit period of its wire image, with the results in order, the levels driven, and the state those
`READ`s leave. -/
def Obligations.FrameFormatsAreOneReadPerBitPeriod : Prop :=
  ∀ (s : State) (d : Nat) (f : WireFrame) (i : Instr), Instr.ofFormat d f = some i → s.cfg.configured = true →
    ∃ t, exec i s = .next t ∧ (reads (wireImage f) s).1.length = (wireImage f).length ∧
      t = { (reads (wireImage f) s).2.2 with
            io := { (reads (wireImage f) s).2.2.io with
                    drove := (reads (wireImage f) s).2.1, rsp := .statuses (reads (wireImage f) s).1 } }

/-- R61, R108, R109, R170 to R173, R67, R68 (read as log 10 says): a frame of ANY of the nine formats with a good CRC, whatever
its control bits and raw DLC, completes on a ready node: it is delivered once, in the bit period before its last, with its
fields; the node drives exactly the acknowledge slot dominant; `REC` goes down by one if positive. -/
def Obligations.GoodFrameIsDeliveredAndAcknowledged : Prop :=
  ∀ (s : State) (d : Nat) (f : WireFrame) (i : Instr),
    Instr.ofFormat d f = some i → i.wellFormed = true → ReadyToReceive s → s.fc.Good →
    f.crc = crcOf (coveredBits f) → f.crcDel = recessive → f.ackDel = recessive →
    ∃ t n, exec i s = .next t ∧ (wireImage f).length = n + 10 ∧
      t.io.rsp = .statuses (List.replicate (n + 8) (.noMessage, none) ++ [(.messageOk, none), (.noMessage, none)]) ∧
      t.io.drove = List.replicate (n + 1) recessive ++ [dominant] ++ List.replicate 8 recessive ∧
      t.rxf.id = f.id ∧ t.rxf.dlc.toNat = d ∧ (dataBytes t.rxf.data).take d = f.data ∧
      fcIs t.fc s.fc.tec.toNat (s.fc.rec_.toNat - 1) ∧ ReadyToReceive t ∧
      t.cfg = s.cfg ∧ t.tx = s.tx ∧ t.txf = s.txf ∧ t.sendOk = s.sendOk ∧ t.par = s.par ∧
      t.io.host = s.io.host ∧ t.io.other = s.io.other

/-- R246, R126, R170, R171 (read as log 10 says): a frame of any of the nine formats whose CRC field is wrong completes as
exactly one `FrameError`, `CrcMismatch`: `REC` goes up by one, `RXF` is not written, and no acknowledge is driven. -/
def Obligations.WrongCrcIsOneFrameErrorAndNoAck : Prop :=
  ∀ (s : State) (d : Nat) (f : WireFrame) (i : Instr),
    Instr.ofFormat d f = some i → i.wellFormed = true → ReadyToReceive s → s.fc.Good →
    f.crc ≠ crcOf (coveredBits f) → f.crcDel = recessive → f.ackDel = recessive →
    ∃ t j k, exec i s = .next t ∧ (wireImage f).length = j + 1 + k ∧
      t.io.rsp = .statuses (List.replicate j (.noMessage, none) ++ [(.frameError, some .crcMismatch)] ++
        List.replicate k (.noMessage, if s.fc.rec_.toNat + 1 > 255 then some .busOff else none)) ∧
      (∀ l ∈ t.io.drove, l = recessive) ∧ t.rxf = s.rxf ∧
      fcIs t.fc s.fc.tec.toNat (s.fc.rec_.toNat + 1) ∧ t.rx.rxs = .idle ∧ t.rx.ackcnt = 0

/-- Property 1 of the source (95_test_vectors.md section 1), R109, R144, R177: the levels an acknowledged `SEND` puts on the
bus, read once per bit period by another ready node, deliver the frame sent: identifier, clamped length, and the data bytes of
that length. -/
def Obligations.RoundTripFromSenderToReceiver : Prop :=
  ∀ (a ta b : State) (f : TxFrame), exec (.send f) a = .next ta → ta.io.rsp = .sent true none → ReadyToReceive b →
    (readPeriods ta.io.drove b).2.rxf.id = f.id ∧
      (readPeriods ta.io.drove b).2.rxf.dlc.toNat = min f.dlc.toNat 8 ∧
      (dataBytes (readPeriods ta.io.drove b).2.rxf.data).take (min f.dlc.toNat 8) =
        (dataBytes f.data).take (min f.dlc.toNat 8) ∧
      ((readPeriods ta.io.drove b).1.filter fun r => decide (r.1 ≠ .noMessage)) = [(.messageOk, none)]

/-! ### Fault confinement -/

/-- R200: `CLASSIFY`. -/
def Obligations.ClassifyIsTheStatedClassification : Prop :=
  ∀ s : State,
    exec .classify s = .next { answered .done s with
      fc := { s.fc with state := classNat s.fc.tec.toNat s.fc.rec_.toNat } }

/-- R201 to R204: the four hooks on the counters, with the reclassification that ends each, for every counter value in range
(R205). -/
def Obligations.HooksMoveTheCounters : Prop :=
  ∀ s : State, s.fc.tec.toNat ≤ 263 → s.fc.rec_.toNat ≤ 256 →
    (∃ t, exec .onTxFailure s = .next t ∧ t = { answered .done s with fc := t.fc } ∧
      fcIs t.fc (if s.fc.state = .busOff then s.fc.tec.toNat else s.fc.tec.toNat + 8) s.fc.rec_.toNat) ∧
    (∃ t, exec .onRxFailure s = .next t ∧ t = { answered .done s with fc := t.fc } ∧
      fcIs t.fc s.fc.tec.toNat (if s.fc.state = .busOff then s.fc.rec_.toNat else s.fc.rec_.toNat + 1)) ∧
    (∃ t, exec .onTxSuccess s = .next t ∧ t = { answered .done s with fc := t.fc } ∧
      fcIs t.fc (if s.fc.tec.toNat > 0 then s.fc.tec.toNat - 1 else 0) s.fc.rec_.toNat) ∧
    (∃ t, exec .onRxSuccess s = .next t ∧ t = { answered .done s with fc := t.fc } ∧
      fcIs t.fc s.fc.tec.toNat (if s.fc.rec_.toNat > 0 then s.fc.rec_.toNat - 1 else 0))

/-- R206, R242 (a frame format is a run of `READ`s, log 10; a step in which the host issues nothing is a bit period, log 19): Bus-Off
is sticky: while no `SEND` is in progress, a step of a node in Bus-Off leaves its counters, state and receiver
registers, and drives nothing dominant, unless it accepts a `BEGIN` or the reset, which leave both counters zero and the node
Error-Active. -/
def Obligations.BusOffIsLeftOnlyByBeginOrReset : Prop :=
  ∀ s t : State, s.busy = false → s.fc.state = .busOff → step s = .next t →
    (t.fc = s.fc ∧ t.rx = s.rx ∧ t.rxf = s.rxf ∧ (s.io.host ≠ [] → t.io.other = s.io.other) ∧
      (s.cfg.configured = true →
        (s.rx.ackcnt ≠ 1 → t.pin = s.pin) ∧
        (s.drive = recessive → t.drive = recessive ∧ ∀ l ∈ t.io.drove, l = recessive))) ∨
    (∃ c rest, s.io.host = .command c :: rest ∧ c.cmd = 0b01#2 ∧ fcIs t.fc 0 0) ∨
    (∃ rx tx rest, s.io.host = .construct rx tx :: rest ∧ fcIs t.fc 0 0)

/-- R207: who calls what: after a `SEND`, a `READ`, a `NOP` the counters are those of the one hook the outcome calls, or
unchanged where it calls none. -/
def Obligations.CountersFollowTheOutcome : Prop :=
  ∀ s t : State,
    (∀ f, exec (.send f) s = .next t →
      t.fc = if t.io.rsp = .sent true none then s.fc.onTxSuccess
        else if t.io.rsp = .sent false (some .noAck) then s.fc.onTxFailure else s.fc) ∧
    (∀ now, exec (.read now) s = .next t →
      t.fc = match t.readStatus with
        | .messageOk => s.fc.onRxSuccess
        | .frameError => s.fc.onRxFailure
        | .noMessage => s.fc) ∧
    (exec .nop s = .next t → t.fc = s.fc)

/-! ### Encoding and decoding -/

/-- R61, R70, R73 (how they are presented, log 11): encode then decode gives back every instruction that can be presented, every
operand at every value its encoding admits. -/
def Obligations.DecodeInvertsEncode : Prop :=
  ∀ (i : Instr) (p : Presented), i.wellFormed = true → encode i = some p → decode p = .ok i

/-- R61, R65, R73: each frame on the wire has one reading: what decodes is well formed and encodes to the same bits. -/
def Obligations.FrameBitsHaveOneReading : Prop :=
  ∀ (bits : List Level) (i : Instr), decode (.frame bits) = .ok i →
    i.wellFormed = true ∧ encode i = some (.frame bits)

/-- R73 (c) (`NEW`, to which the table gives no encoding, is presented as construction or reset input and does not count as
internal here: log 11, log 21): nothing that can be presented decodes to an internal operation, and only the internal operations
have no encoding. -/
def Obligations.InternalOperationsHaveNoEncoding : Prop :=
  (∀ (p : Presented) (i : Instr), decode p = .ok i → i.isInternal = false) ∧
    (∀ i : Instr, encode i = none ↔ i.isInternal = true)

/-- R70, R61 (how a table word and its operand ports are laid out, log 11): words written out from the encodings: the four command codes on the port, and one frame, the header-only data
frame with identifier 0x123 (CRC 0x6858, vector V-CRC20), position 0 first. -/
def Obligations.WordsDecodeToTheirInstructions : Prop :=
  decodeTableWord 8 0 = some .nop ∧ decodeTableWord 8 1 = some (.begin 0 0) ∧
    decodeTableWord 8 2 = some (.send { id := 0, dlc := 0, data := Data8.zero }) ∧
    decodeTableWord 8 3 = some (.read 0) ∧
    decode (.frame
      [false, false, false, true, false, false, true, false, false, false, true, true, false, false, false, false, false,
        false, false, true, true, false, true, false, false, false, false, true, false, true, true, false, false, false,
        true, true, true, true, true, true, true, true, true, true]) =
      .ok (.df0 { id := 0x123, ctl := 0, rawDlc := 0, data := [], crc := 0x6858, crcDel := true, ack := true, ackDel := true })

/-! ### Steps -/

/-- R217 (how things are presented, log 11; bits that are no frame format, log 29; an empty step, log 19; before the first
`BEGIN`, log 28): a step runs what is presented: the decoded instruction is run by `exec` on the state in which it has been
accepted; only bits on the wire can be no instruction, and the node receives those; with nothing
presented one bit period passes, in which a configured node drives what its latches hold, an acknowledge ends with it, and any
other node drives any level. -/
def Obligations.StepRunsWhatIsPresented : Prop :=
  ∀ (s : State) (p : Presented) (rest : List Presented), s.busy = false →
    (s.io.host = p :: rest → ∀ i, decode p = .ok i →
      step s = exec i { s with io := { s.io with host := rest } }) ∧
    (s.io.host = p :: rest → ∀ e, decode p = .error e → ∃ bits, p = .frame bits ∧
      step s = receiveLevels (wireLevels bits) { s with io := { s.io with host := rest } }) ∧
    (s.io.host = [] → s.cfg.configured = true →
      step s = .next { s with
        pin := if s.rx.ackcnt = 1 then { txdir := .output, txlvl := recessive } else s.pin
        io := { s.io with other := s.io.other.tail, drove := [s.drive], rsp := .none } }) ∧
    (s.io.host = [] → s.cfg.configured = false → ∃ pin : LineDriver,
      step s = .next { s with
        pin := pin
        io := { s.io with
          other := s.io.other.tail, drove := [pin.drive], rsp := .none, fresh := s.io.fresh + 1 } })

/-- R69, R163, R275, R225 (log 10; how such bits stand on the wire, log 29): bits that are no frame format do not stop the node:
configured, it runs one `READ` per bit period of their levels. Those are: recessive bits, as they stand; from the first dominant
bit on, which starts the frame, the bits with their stuff bits, but for the last ten. Before the first
`BEGIN` they are refused, as a `READ` is. -/
def Obligations.BitsOfNoFormatAreReceivedToo : Prop :=
  ∀ (s : State) (bits body tail levels : List Level) (k : Nat) (rest : List Presented) (e : Reject), s.busy = false →
    s.io.host = .frame bits :: rest → decode (.frame bits) = .error e →
    ((bits = List.replicate k recessive ++ dominant :: (body ++ tail) ∧ tail.length = 10 ∧
        levels = List.replicate k recessive ++ dominant :: (encSeq body ++ tail)) ∨
      (bits = List.replicate k recessive ++ dominant :: tail ∧ tail.length < 10 ∧ levels = bits) ∨
      (bits = List.replicate k recessive ∧ levels = bits)) →
    (s.cfg.configured = true → ∃ u t, u = { s with io := { s.io with host := rest } } ∧ step s = .next t ∧
      (reads levels u).1.length = levels.length ∧
      t = { (reads levels u).2.2 with
            io := { (reads levels u).2.2.io with
                    drove := (reads levels u).2.1, rsp := .statuses (reads levels u).1 } }) ∧
    (s.cfg.configured = false → step s = .refused .notConfigured)

/-- R217, R225 (log 8; the reset while busy, log 21): while a `SEND` is in progress a command waits: the step is one bit period
of the transmitter and what is presented stays presented; the reset input alone acts at once. -/
def Obligations.CommandsWaitWhileBusy : Prop :=
  ∀ s : State, s.busy = true →
    ((∀ p, s.io.host.head? = some p → ∃ c, p = .command c) →
      ∃ t, step s = .next t ∧ t.io.host = s.io.host ∧ t.io.drove.length = 1 ∧ t.io.other = s.io.other.tail) ∧
    (∀ rx tx rest, s.io.host = .construct rx tx :: rest →
      step s = exec (.new rx tx) { s with io := { s.io with host := rest } })

/-- R12, R14, R221, R272, R216 (a frame format is a run of `READ`s, log 10): the receive frame ports carry a value only right
after a `READ`, alone or the last of a frame format, that returned `MessageOk`, and the status port after any; after `BEGIN`,
`NOP` and `SEND` the host is shown no received frame. -/
def Obligations.ReceiveFrameShownOnlyAfterMessageOk : Prop :=
  ∀ s t : State,
    (∀ i, (i = .nop ∨ (∃ baud now, i = .begin baud now) ∨ (∃ f, i = .send f)) → exec i s = .next t →
      t.outPorts.rspValid = true ∧ t.outPorts.readStatus = none ∧
      t.outPorts.rxId = none ∧ t.outPorts.rxDlc = none ∧ t.outPorts.rxData = none) ∧
    (∀ i, ((∃ now, i = .read now) ∨ (∃ d f, Instr.ofFormat d f = some i)) → exec i s = .next t →
      t.outPorts.rspValid = true ∧ t.outPorts.readStatus = some t.readStatus.code ∧
      (t.readStatus = .messageOk → t.outPorts.rxId = some t.rxf.id ∧ t.outPorts.rxDlc = some t.rxf.dlc ∧
        t.outPorts.rxData = some ((dataBytes t.rxf.data).take t.rxf.dlc.toNat)) ∧
      (t.readStatus ≠ .messageOk →
        t.outPorts.rxId = none ∧ t.outPorts.rxDlc = none ∧ t.outPorts.rxData = none))

/-! ### Invariants -/

/-- R34, R205 (both derived there) hold at reset. -/
def Obligations.ResetIsGood : Prop := State.reset.Inv

/-- R34, R205 (both derived there), R22: every step keeps the invariant: state and counters consistent and in range, the
transmitter idle and the line recessive between operations but for an acknowledge (R172), the receiver's run and count in range,
the receive buffer canonical and within its capacity. -/
def Obligations.EveryStepKeepsTheInvariant : Prop :=
  ∀ s t : State, s.Inv → step s = .next t → t.Inv

/-- R4 (`RXBUF_BITS` is a parameter of the machine, log 5): no instruction and no step changes it. -/
def Obligations.TheParametersNeverChange : Prop :=
  ∀ s t : State, (∀ i, exec i s = .next t → t.par = s.par) ∧ (step s = .next t → t.par = s.par)
end

