-- ==== Sys2Proof/Laws/Codec.lean ====
section
/-! SUPPORT. What `ENC_BIT` and `DEC_BIT` can do, said once, and how the encoder goes over a sequence. -/

namespace Sys2Proof.Machine

/-- The encoder's pair between two logical bits: a run of one to four (R103). -/
def EncOk (e : Enc) : Prop := 1 ≤ e.2.toNat ∧ e.2.toNat ≤ 4

theorem encStart_ok : EncOk encStart := by simp [EncOk, encStart]

/-- `ENC_BIT` on a bit that continues the run without filling it. -/
theorem encBit_continue (b : Level) (e : Enc) (h : EncOk e) (hb : b = e.1) (hn : e.2.toNat < 4) :
    encBit b e = ([b], (b, e.2 + 1)) := by
  obtain ⟨l, r⟩ := e
  simp only [EncOk] at h hb hn
  have : r + 1#3 ≠ 5#3 := by intro hc; have := congrArg BitVec.toNat hc; simp at this; omega
  simp [encBit, encCount, encFull, hb, this]

/-- `ENC_BIT` on the bit that fills the run: a stuff bit follows. -/
theorem encBit_fill (b : Level) (e : Enc) (hb : b = e.1) (hn : e.2.toNat = 4) :
    encBit b e = ([b, !b], (!b, 1)) := by
  obtain ⟨l, r⟩ := e
  simp only at hb hn
  have : r + 1#3 = 5#3 := by apply BitVec.eq_of_toNat_eq; simp [hn]
  simp [encBit, encCount, encFull, encStuff, hb, this]

/-- `ENC_BIT` on a bit that starts a run. -/
theorem encBit_change (b : Level) (e : Enc) (hb : b ≠ e.1) : encBit b e = ([b], (b, 1)) := by
  simp [encBit, encCount, encFull, hb]

/-- The three cases of `ENC_BIT`. -/
theorem encBit_cases (b : Level) (e : Enc) (h : EncOk e) :
    (b = e.1 ∧ e.2.toNat < 4 ∧ encBit b e = ([b], (b, e.2 + 1))) ∨
    (b = e.1 ∧ e.2.toNat = 4 ∧ encBit b e = ([b, !b], (!b, 1))) ∨
    (b ≠ e.1 ∧ encBit b e = ([b], (b, 1))) := by
  by_cases hb : b = e.1
  · by_cases hn : e.2.toNat < 4
    · exact .inl ⟨hb, hn, encBit_continue b e h hb hn⟩
    · have : e.2.toNat = 4 := by have := h.2; omega
      exact .inr (.inl ⟨hb, this, encBit_fill b e hb this⟩)
  · exact .inr (.inr ⟨hb, encBit_change b e hb⟩)

theorem encBit_ok (b : Level) (e : Enc) (h : EncOk e) : EncOk (encBit b e).2 := by
  obtain ⟨_, hn, he⟩ | ⟨_, _, he⟩ | ⟨_, he⟩ := encBit_cases b e h <;> rw [he]
  · have : (e.2 + 1).toNat = e.2.toNat + 1 := by simp; omega
    simp only [EncOk, this]; omega
  · simp [EncOk]
  · simp [EncOk]

/-- The first wire bit of a logical bit is the bit itself. -/
theorem encBit_head (b : Level) (e : Enc) : (encBit b e).1 = [b] ∨ (encBit b e).1 = [b, !b] := by
  simp only [encBit]; split <;> simp

@[simp] theorem encBits_nil (e : Enc) : encBits [] e = ([], e) := rfl

theorem encBits_cons (b : Level) (bs : List Level) (e : Enc) :
    encBits (b :: bs) e = ((encBit b e).1 ++ (encBits bs (encBit b e).2).1, (encBits bs (encBit b e).2).2) := rfl

/-- The encoder over a concatenation. -/
theorem encBits_append (as bs : List Level) (e : Enc) :
    encBits (as ++ bs) e =
      ((encBits as e).1 ++ (encBits bs (encBits as e).2).1, (encBits bs (encBits as e).2).2) := by
  induction as generalizing e with
  | nil => rfl
  | cons a as ih => simp [encBits_cons, ih]

theorem encBits_ok (bs : List Level) (e : Enc) (h : EncOk e) : EncOk (encBits bs e).2 := by
  induction bs generalizing e with
  | nil => exact h
  | cons b bs ih => exact ih _ (encBit_ok b e h)

theorem encBits_length_ge (bs : List Level) (e : Enc) : bs.length ≤ (encBits bs e).1.length := by
  induction bs generalizing e with
  | nil => simp
  | cons b bs ih =>
    have := ih (encBit b e).2
    rcases encBit_head b e with h | h <;> simp [encBits_cons, h] <;> omega

/-- A run of four is at hand before the first stuff bit, and four logical bits lie between two: the potential that bounds
their number. -/
theorem encBits_length_le (bs : List Level) (e : Enc) (h : EncOk e) :
    4 * (encBits bs e).1.length + (encBits bs e).2.2.toNat ≤ 5 * bs.length + e.2.toNat := by
  induction bs generalizing e with
  | nil => simp
  | cons b bs ih =>
    have hi := ih (encBit b e).2 (encBit_ok b e h)
    obtain ⟨_, hn, he⟩ | ⟨_, hn, he⟩ | ⟨_, he⟩ := encBit_cases b e h <;> rw [encBits_cons] <;> rw [he] at hi ⊢
    · have : (e.2 + 1).toNat = e.2.toNat + 1 := by simp; omega
      simp only [List.length_append, List.length_cons, List.length_nil] at *; omega
    · have h1 : (1 : BitVec 3).toNat = 1 := rfl
      simp only [List.length_append, List.length_cons, List.length_nil] at *; omega
    · have h1 : (1 : BitVec 3).toNat = 1 := rfl
      have := h.1
      simp only [List.length_append, List.length_cons, List.length_nil] at *; omega

/-- `DEC_BIT` before a run of five: the bit is appended. -/
theorem decBit_append (b : Level) (r : Receiver) (h : r.run.toNat < 5) :
    r.decBit b = (.append b, if b = r.lastbit then { r with run := r.run + 1 } else { r with lastbit := b, run := 1 }) := by
  have : ¬ 5 ≤ r.run.toNat := by omega
  simp [Receiver.decBit, this]

/-- `DEC_BIT` on a stuff bit. -/
theorem decBit_drop (b : Level) (r : Receiver) (h : r.run = 5) (hb : b ≠ r.lastbit) :
    r.decBit b = (.drop, { r with lastbit := b, run := 1 }) := by
  simp [Receiver.decBit, h, hb]

/-- What `DEC_BIT` leaves of the receiver but its run. -/
theorem decBit_frame (b : Level) (r : Receiver) :
    (r.decBit b).2 = { r with lastbit := (r.decBit b).2.lastbit, run := (r.decBit b).2.run } := by
  simp only [Receiver.decBit]
  repeat' split
  all_goals rfl

end Sys2Proof.Machine
end

