-- ==== Sys2Proof/Laws/Decode.lean ====
section
/-! SUPPORT. Serialisation and field extraction are inverse to each other; where the fields of a frame stand. -/

namespace Sys2Proof

@[simp] theorem ser_length (n : Nat) (v : BitVec n) : (ser n v).length = n := by simp [ser]

theorem intOf_append_singleton (bits : List Level) (b : Level) :
    intOf (bits ++ [b]) = 2 * intOf bits + b.toNat := by
  simp [intOf, List.foldl_append]

theorem intOf_lt (bits : List Level) : intOf bits < 2 ^ bits.length := by
  induction bits using List.reverseRecOn with
  | nil => simp [intOf]
  | append_singleton bits b ih =>
    rw [intOf_append_singleton, List.length_append, List.length_singleton, Nat.pow_succ]
    cases b <;> simp <;> omega

theorem shiftRight_eq_double (x m : Nat) : x >>> m = 2 * (x >>> (m + 1)) + (x.testBit m).toNat := by
  rw [Nat.shiftRight_succ, Nat.testBit, Nat.and_comm, Nat.and_one_is_mod]
  rcases Nat.mod_two_eq_zero_or_one (x >>> m) with h | h <;> rw [h] <;> simp <;> omega

/-- The integer of the first `k` bits of a serialisation. -/
theorem intOf_ser_prefix (n : Nat) (v : BitVec n) (k : Nat) (hk : k ≤ n) :
    intOf ((List.range k).map fun i => v.getMsbD i) = v.toNat >>> (n - k) := by
  induction k with
  | zero =>
    simp only [List.range_zero, List.map_nil, Nat.sub_zero]
    rw [Nat.shiftRight_eq_div_pow, Nat.div_eq_of_lt v.isLt]
    rfl
  | succ k ih =>
    rw [List.range_succ, List.map_append, List.map_singleton, intOf_append_singleton, ih (by omega),
      shiftRight_eq_double v.toNat (n - (k + 1))]
    have h1 : n - (k + 1) + 1 = n - k := by omega
    have h2 : v.getMsbD k = v.toNat.testBit (n - (k + 1)) := by
      have : k < n := by omega
      simp only [BitVec.getMsbD, this, decide_true, Bool.true_and]
      rw [show n - 1 - k = n - (k + 1) by omega]
      rfl
    rw [h1, h2]

/-- Reading back what was serialised. -/
theorem intOf_ser (n : Nat) (v : BitVec n) : intOf (ser n v) = v.toNat := by
  simpa [ser] using intOf_ser_prefix n v n (Nat.le_refl n)

@[simp] theorem ofNat_intOf_ser (n : Nat) (v : BitVec n) : BitVec.ofNat n (intOf (ser n v)) = v := by
  simp [intOf_ser]

/-- Serialising a number whose low bit is split off. -/
theorem ser_double (n x : Nat) (b : Level) :
    ser (n + 1) (BitVec.ofNat (n + 1) (2 * x + b.toNat)) = ser n (BitVec.ofNat n x) ++ [b] := by
  apply List.ext_getElem
  · simp
  · intro i h1 h2
    simp only [ser_length] at h1
    by_cases hi : i < n
    · rw [List.getElem_append_left (by simpa using hi)]
      have e : n + 1 - 1 - i = (n - 1 - i) + 1 := by omega
      simp only [ser, List.getElem_map, List.getElem_range, BitVec.getMsbD, h1, hi, decide_true, Bool.true_and,
        BitVec.getLsbD_ofNat, e]
      have : (2 * x + b.toNat) / 2 = x := by cases b <;> simp; omega
      rw [Nat.testBit_succ, this]
      have h3 : n - 1 - i < n := by omega
      simp [h3]
    · have : i = n := by omega
      subst this
      rw [List.getElem_append_right (by simp)]
      simp only [ser, List.getElem_map, List.getElem_range, BitVec.getMsbD, BitVec.getLsbD_ofNat]
      cases b <;> simp [Nat.testBit_zero]

/-- Serialising what was read. -/
theorem ser_ofNat_intOf (bits : List Level) : ser bits.length (BitVec.ofNat bits.length (intOf bits)) = bits := by
  induction bits using List.reverseRecOn with
  | nil => rfl
  | append_singleton bits b ih =>
    rw [intOf_append_singleton]
    have : (bits ++ [b]).length = bits.length + 1 := by simp
    rw [this, ser_double, ih]

theorem ser_ofNat_intOf' (n : Nat) (bits : List Level) (h : bits.length = n) :
    ser n (BitVec.ofNat n (intOf bits)) = bits := by subst h; exact ser_ofNat_intOf bits

/-- A part of a concatenation, skipping what comes before. -/
theorem subBits_append_right (p q : List Level) (i n : Nat) :
    subBits (p ++ q) (p.length + i) n = subBits q i n := by
  have : p.drop (p.length + i) = [] := List.drop_eq_nil_of_le (by omega)
  simp [subBits, List.drop_append, this]

theorem subBits_of_length (p q : List Level) (n : Nat) (h : p.length = n) : subBits (p ++ q) 0 n = p := by
  subst h; simp [subBits]

theorem subBits_length (bits : List Level) (i n : Nat) (h : i + n ≤ bits.length) : (subBits bits i n).length = n := by
  simp [subBits]; omega

/-- A field after a prefix of known length. -/
theorem fieldOf_of_parts (n : Nat) (p q : List Level) (v : BitVec n) (i : Nat) (h : p.length = i) :
    fieldOf (p ++ (ser n v ++ q)) i n n = v := by
  have : subBits (p ++ (ser n v ++ q)) i n = ser n v := by
    rw [← h, ← Nat.add_zero p.length, subBits_append_right, subBits_of_length _ _ _ (ser_length n v)]
  simp [fieldOf, this]

theorem flatMap_ser_length (bs : List Byte) : (bs.flatMap (ser 8)).length = 8 * bs.length := by
  induction bs with
  | nil => rfl
  | cons b bs ih => simp [ih]; omega

/-- The bytes of a serialised payload, by index. -/
theorem subBits_flatMap_ser (bs : List Byte) (q : List Level) (k : Nat) (h : k < bs.length) :
    subBits (bs.flatMap (ser 8) ++ q) (8 * k) 8 = ser 8 bs[k] := by
  induction bs generalizing k with
  | nil => simp at h
  | cons b bs ih =>
    rw [List.flatMap_cons, List.append_assoc]
    cases k with
    | zero => exact subBits_of_length _ _ _ (ser_length 8 b)
    | succ k =>
      have e : 8 * (k + 1) = (ser 8 b).length + 8 * k := by simp; omega
      rw [e, subBits_append_right, ih k (by simpa using h)]
      simp

/-- The number of bits of a frame (R62). -/
theorem frameBits_length (f : WireFrame) : (frameBits f).length = 44 + 8 * f.data.length := by
  simp [frameBits]; omega

/-- A frame format has at most 8 bytes, and its parts are what it was made of. -/
theorem ofFormat_some (d : Nat) (f : WireFrame) (i : Instr) (h : Instr.ofFormat d f = some i) :
    d ≤ 8 ∧ i.format = some (d, f) ∧ i.wellFormed = f.fits d ∧ encode i = some (.frame (frameBits f)) ∧
      i.isInternal = false := by
  unfold Instr.ofFormat at h
  split at h <;> simp at h <;> subst h <;> simp [Instr.format, Instr.wellFormed, encode, Instr.isInternal]

/-- The parts of a frame in the order they are sent (R61). -/
theorem frameBits_split (f : WireFrame) :
    frameBits f =
      [dominant] ++ (ser 11 f.id ++ (ser 3 f.ctl ++ (ser 4 f.rawDlc ++ (f.data.flatMap (ser 8) ++ (ser 15 f.crc ++
        ([f.crcDel, f.ack, f.ackDel] ++ List.replicate 7 recessive)))))) := by
  simp [frameBits]

/-- The fields read from a frame are the fields it was made of. -/
theorem frameFields_frameBits (d : Nat) (f : WireFrame) (h : f.data.length = d) : frameFields d (frameBits f) = f := by
  have hd : (f.data.flatMap (ser 8)).length = 8 * d := by rw [flatMap_ser_length, h]
  have tail : ∀ k, (frameBits f).getD (34 + 8 * d + k) recessive =
      ([f.crcDel, f.ack, f.ackDel] ++ List.replicate 7 recessive).getD k recessive := by
    intro k
    rw [frameBits_split]
    simp only [← List.append_assoc]
    rw [List.append_assoc _ [f.crcDel, f.ack, f.ackDel], List.getD_append_right _ _ _ _ (by simp [hd]; omega)]
    congr 1
    simp [hd]; omega
  have e1 : fieldOf (frameBits f) 1 11 11 = f.id := by
    rw [frameBits_split]; exact fieldOf_of_parts 11 _ _ _ _ (by simp)
  have e2 : fieldOf (frameBits f) 12 3 3 = f.ctl := by
    rw [frameBits_split, ← List.append_assoc]; exact fieldOf_of_parts 3 _ _ _ _ (by simp)
  have e3 : fieldOf (frameBits f) 15 4 4 = f.rawDlc := by
    rw [frameBits_split, ← List.append_assoc, ← List.append_assoc]; exact fieldOf_of_parts 4 _ _ _ _ (by simp)
  have e4 : fieldOf (frameBits f) (19 + 8 * d) 15 15 = f.crc := by
    rw [frameBits_split, ← List.append_assoc, ← List.append_assoc, ← List.append_assoc, ← List.append_assoc]
    exact fieldOf_of_parts 15 _ _ _ _ (by simp [hd]; omega)
  have e5 : (List.range d).map (fun k => fieldOf (frameBits f) (19 + 8 * k) 8 8) = f.data := by
    apply List.ext_getElem
    · simp [h]
    · intro k h1 h2
      simp only [List.getElem_map, List.getElem_range]
      rw [frameBits_split, ← List.append_assoc, ← List.append_assoc, ← List.append_assoc]
      unfold fieldOf
      have : 19 + 8 * k = ([dominant] ++ ser 11 f.id ++ ser 3 f.ctl ++ ser 4 f.rawDlc).length + 8 * k := by simp
      rw [this, subBits_append_right, subBits_flatMap_ser _ _ _ h2]
      simp
  have t0 := tail 0
  have t1 := tail 1
  have t2 := tail 2
  rw [Nat.add_zero] at t0
  simp only [frameFields, e1, e2, e3, e4, e5]
  rw [show 35 + 8 * d = 34 + 8 * d + 1 by omega, show 36 + 8 * d = 34 + 8 * d + 2 by omega, t0, t1, t2]
  rfl

/-- A frame decodes to its format with its fields (R61, R65). -/
theorem decodeFrame_frameBits (d : Nat) (f : WireFrame) (i : Instr) (hi : Instr.ofFormat d f = some i)
    (h : f.fits d = true) : decodeFrame (frameBits f) = .ok i := by
  simp only [WireFrame.fits, Bool.and_eq_true, decide_eq_true_eq] at h
  obtain ⟨hraw, hlen⟩ := h
  have hn := frameBits_length f
  rw [hlen] at hn
  have hdd : (44 + 8 * d - 44) / 8 = d := by omega
  have ff := frameFields_frameBits d f hlen
  have hraw' : fieldOf (frameBits f) 15 4 4 = f.rawDlc := congrArg WireFrame.rawDlc ff
  have eof : subBits (frameBits f) (37 + 8 * d) 7 = List.replicate 7 recessive := by
    have hd : (f.data.flatMap (ser 8)).length = 8 * d := by rw [flatMap_ser_length, hlen]
    rw [frameBits_split]
    simp only [← List.append_assoc]
    have := subBits_append_right ([dominant] ++ ser 11 f.id ++ ser 3 f.ctl ++ ser 4 f.rawDlc ++
      f.data.flatMap (ser 8) ++ ser 15 f.crc ++ [f.crcDel, f.ack, f.ackDel]) (List.replicate 7 recessive) 0 7
    rw [show ([dominant] ++ ser 11 f.id ++ ser 3 f.ctl ++ ser 4 f.rawDlc ++ f.data.flatMap (ser 8) ++ ser 15 f.crc ++
      [f.crcDel, f.ack, f.ackDel]).length + 0 = 37 + 8 * d by simp [hd]; omega] at this
    rw [this]; rfl
  have sof : (frameBits f).getD 0 recessive ≠ recessive := by simp [frameBits]
  simp only [decodeFrame, hn, hdd, if_true, ff, hi, hraw', hraw, eof]
  rw [if_neg sof]

/-- What decodes as a frame is one of the frame formats. -/
theorem decodeFrame_format (bits : List Level) (i : Instr) (h : decodeFrame bits = .ok i) :
    ∃ d f, Instr.ofFormat d f = some i := by
  simp only [decodeFrame] at h
  split at h
  · split at h
    · cases h
    · rename_i hj
      (repeat' split at h) <;> cases h
      exact ⟨_, _, hj⟩
  · cases h

/-- A sequence from an index on, its next field split off. -/
theorem drop_split (bits : List Level) (i n : Nat) : bits.drop i = subBits bits i n ++ bits.drop (i + n) := by
  simp only [subBits, ← List.drop_drop]; exact (List.take_append_drop n _).symm

/-- Serialising a field that was read gives its bits back. -/
theorem ser_fieldOf (bits : List Level) (i n : Nat) (h : i + n ≤ bits.length) :
    ser n (fieldOf bits i n n) = subBits bits i n := by
  exact ser_ofNat_intOf' n _ (subBits_length bits i n h)

/-- Serialising the bytes that were read gives their bits back. -/
theorem flatMap_fields (bits : List Level) (i d : Nat) (h : i + 8 * d ≤ bits.length) :
    ((List.range d).map fun k => fieldOf bits (i + 8 * k) 8 8).flatMap (ser 8) = subBits bits i (8 * d) := by
  induction d with
  | zero => simp [subBits]
  | succ d ih =>
    rw [List.range_succ, List.map_append, List.flatMap_append, ih (by omega)]
    simp only [List.map_singleton, List.flatMap_singleton]
    rw [ser_fieldOf _ _ _ (by omega)]
    simp only [subBits, Nat.mul_succ, List.take_add, List.drop_drop]

end Sys2Proof
end

