-- ==== Sys2Proof/Laws/State.lean ====
section
/-! SUPPORT. One lemma per field per update of State: what the shared operations change and what they leave. -/

namespace Sys2Proof.Machine

@[simp] theorem driveDominant_txf (s : State) : (driveDominant s).txf = s.txf := rfl
@[simp] theorem driveDominant_rxf (s : State) : (driveDominant s).rxf = s.rxf := rfl
@[simp] theorem driveDominant_sendOk (s : State) : (driveDominant s).sendOk = s.sendOk := rfl
@[simp] theorem driveDominant_readStatus (s : State) : (driveDominant s).readStatus = s.readStatus := rfl
@[simp] theorem driveDominant_fc (s : State) : (driveDominant s).fc = s.fc := rfl
@[simp] theorem driveDominant_cfg (s : State) : (driveDominant s).cfg = s.cfg := rfl
@[simp] theorem driveDominant_rx (s : State) : (driveDominant s).rx = s.rx := rfl
@[simp] theorem driveDominant_tx (s : State) : (driveDominant s).tx = s.tx := rfl
@[simp] theorem driveDominant_pin (s : State) : (driveDominant s).pin = { txdir := .output, txlvl := dominant } := rfl
@[simp] theorem driveDominant_par (s : State) : (driveDominant s).par = s.par := rfl
@[simp] theorem driveDominant_io (s : State) : (driveDominant s).io = s.io := rfl
@[simp] theorem driveRecessive_txf (s : State) : (driveRecessive s).txf = s.txf := rfl
@[simp] theorem driveRecessive_rxf (s : State) : (driveRecessive s).rxf = s.rxf := rfl
@[simp] theorem driveRecessive_sendOk (s : State) : (driveRecessive s).sendOk = s.sendOk := rfl
@[simp] theorem driveRecessive_readStatus (s : State) : (driveRecessive s).readStatus = s.readStatus := rfl
@[simp] theorem driveRecessive_fc (s : State) : (driveRecessive s).fc = s.fc := rfl
@[simp] theorem driveRecessive_cfg (s : State) : (driveRecessive s).cfg = s.cfg := rfl
@[simp] theorem driveRecessive_rx (s : State) : (driveRecessive s).rx = s.rx := rfl
@[simp] theorem driveRecessive_tx (s : State) : (driveRecessive s).tx = s.tx := rfl
@[simp] theorem driveRecessive_pin (s : State) : (driveRecessive s).pin = { txdir := .output, txlvl := recessive } := rfl
@[simp] theorem driveRecessive_par (s : State) : (driveRecessive s).par = s.par := rfl
@[simp] theorem driveRecessive_io (s : State) : (driveRecessive s).io = s.io := rfl
@[simp] theorem release_txf (s : State) : (release s).txf = s.txf := rfl
@[simp] theorem release_rxf (s : State) : (release s).rxf = s.rxf := rfl
@[simp] theorem release_sendOk (s : State) : (release s).sendOk = s.sendOk := rfl
@[simp] theorem release_readStatus (s : State) : (release s).readStatus = s.readStatus := rfl
@[simp] theorem release_fc (s : State) : (release s).fc = s.fc := rfl
@[simp] theorem release_cfg (s : State) : (release s).cfg = s.cfg := rfl
@[simp] theorem release_rx (s : State) : (release s).rx = s.rx := rfl
@[simp] theorem release_tx (s : State) : (release s).tx = s.tx := rfl
@[simp] theorem release_pin (s : State) : (release s).pin = { txdir := .input, txlvl := s.pin.txlvl } := rfl
@[simp] theorem release_par (s : State) : (release s).par = s.par := rfl
@[simp] theorem release_io (s : State) : (release s).io = s.io := rfl
@[simp] theorem driveLevel_txf (w : Level) (s : State) : (driveLevel w s).txf = s.txf := by cases w <;> rfl
@[simp] theorem driveLevel_rxf (w : Level) (s : State) : (driveLevel w s).rxf = s.rxf := by cases w <;> rfl
@[simp] theorem driveLevel_sendOk (w : Level) (s : State) : (driveLevel w s).sendOk = s.sendOk := by cases w <;> rfl
@[simp] theorem driveLevel_readStatus (w : Level) (s : State) : (driveLevel w s).readStatus = s.readStatus := by cases w <;> rfl
@[simp] theorem driveLevel_fc (w : Level) (s : State) : (driveLevel w s).fc = s.fc := by cases w <;> rfl
@[simp] theorem driveLevel_cfg (w : Level) (s : State) : (driveLevel w s).cfg = s.cfg := by cases w <;> rfl
@[simp] theorem driveLevel_rx (w : Level) (s : State) : (driveLevel w s).rx = s.rx := by cases w <;> rfl
@[simp] theorem driveLevel_tx (w : Level) (s : State) : (driveLevel w s).tx = s.tx := by cases w <;> rfl
@[simp] theorem driveLevel_pin (w : Level) (s : State) : (driveLevel w s).pin = { txdir := .output, txlvl := w } := by cases w <;> rfl
@[simp] theorem driveLevel_par (w : Level) (s : State) : (driveLevel w s).par = s.par := by cases w <;> rfl
@[simp] theorem driveLevel_io (w : Level) (s : State) : (driveLevel w s).io = s.io := by cases w <;> rfl
@[simp] theorem hold_txf (s : State) : (hold s).txf = s.txf := rfl
@[simp] theorem hold_rxf (s : State) : (hold s).rxf = s.rxf := rfl
@[simp] theorem hold_sendOk (s : State) : (hold s).sendOk = s.sendOk := rfl
@[simp] theorem hold_readStatus (s : State) : (hold s).readStatus = s.readStatus := rfl
@[simp] theorem hold_fc (s : State) : (hold s).fc = s.fc := rfl
@[simp] theorem hold_cfg (s : State) : (hold s).cfg = s.cfg := rfl
@[simp] theorem hold_rx (s : State) : (hold s).rx = s.rx := rfl
@[simp] theorem hold_tx (s : State) : (hold s).tx = s.tx := rfl
@[simp] theorem hold_pin (s : State) : (hold s).pin = s.pin := rfl
@[simp] theorem hold_par (s : State) : (hold s).par = s.par := rfl
@[simp] theorem hold_host (s : State) : (hold s).io.host = s.io.host := rfl
@[simp] theorem hold_other (s : State) : (hold s).io.other = s.io.other.tail := rfl
@[simp] theorem hold_drove (s : State) : (hold s).io.drove = s.io.drove ++ [s.drive] := rfl
@[simp] theorem hold_rsp (s : State) : (hold s).io.rsp = s.io.rsp := rfl
@[simp] theorem hold_fresh (s : State) : (hold s).io.fresh = s.io.fresh := rfl
@[simp] theorem presentLevel_txf (l : Level) (s : State) : (presentLevel l s).txf = s.txf := rfl
@[simp] theorem presentLevel_rxf (l : Level) (s : State) : (presentLevel l s).rxf = s.rxf := rfl
@[simp] theorem presentLevel_sendOk (l : Level) (s : State) : (presentLevel l s).sendOk = s.sendOk := rfl
@[simp] theorem presentLevel_readStatus (l : Level) (s : State) : (presentLevel l s).readStatus = s.readStatus := rfl
@[simp] theorem presentLevel_fc (l : Level) (s : State) : (presentLevel l s).fc = s.fc := rfl
@[simp] theorem presentLevel_cfg (l : Level) (s : State) : (presentLevel l s).cfg = s.cfg := rfl
@[simp] theorem presentLevel_rx (l : Level) (s : State) : (presentLevel l s).rx = s.rx := rfl
@[simp] theorem presentLevel_tx (l : Level) (s : State) : (presentLevel l s).tx = s.tx := rfl
@[simp] theorem presentLevel_pin (l : Level) (s : State) : (presentLevel l s).pin = s.pin := rfl
@[simp] theorem presentLevel_par (l : Level) (s : State) : (presentLevel l s).par = s.par := rfl
@[simp] theorem presentLevel_host (l : Level) (s : State) : (presentLevel l s).io.host = s.io.host := rfl
@[simp] theorem presentLevel_other (l : Level) (s : State) : (presentLevel l s).io.other = l :: s.io.other := rfl
@[simp] theorem presentLevel_drove (l : Level) (s : State) : (presentLevel l s).io.drove = s.io.drove := rfl
@[simp] theorem presentLevel_rsp (l : Level) (s : State) : (presentLevel l s).io.rsp = s.io.rsp := rfl
@[simp] theorem presentLevel_fresh (l : Level) (s : State) : (presentLevel l s).io.fresh = s.io.fresh := rfl
@[simp] theorem opStart_txf (s : State) : (opStart s).txf = s.txf := rfl
@[simp] theorem opStart_rxf (s : State) : (opStart s).rxf = s.rxf := rfl
@[simp] theorem opStart_sendOk (s : State) : (opStart s).sendOk = s.sendOk := rfl
@[simp] theorem opStart_readStatus (s : State) : (opStart s).readStatus = s.readStatus := rfl
@[simp] theorem opStart_fc (s : State) : (opStart s).fc = s.fc := rfl
@[simp] theorem opStart_cfg (s : State) : (opStart s).cfg = s.cfg := rfl
@[simp] theorem opStart_rx (s : State) : (opStart s).rx = s.rx := rfl
@[simp] theorem opStart_tx (s : State) : (opStart s).tx = s.tx := rfl
@[simp] theorem opStart_pin (s : State) : (opStart s).pin = s.pin := rfl
@[simp] theorem opStart_par (s : State) : (opStart s).par = s.par := rfl
@[simp] theorem opStart_host (s : State) : (opStart s).io.host = s.io.host := rfl
@[simp] theorem opStart_other (s : State) : (opStart s).io.other = s.io.other := rfl
@[simp] theorem opStart_drove (s : State) : (opStart s).io.drove = [] := rfl
@[simp] theorem opStart_rsp (s : State) : (opStart s).io.rsp = .none := rfl
@[simp] theorem opStart_fresh (s : State) : (opStart s).io.fresh = s.io.fresh := rfl
@[simp] theorem respond_txf (r : Response) (s : State) : (respond r s).txf = s.txf := rfl
@[simp] theorem respond_rxf (r : Response) (s : State) : (respond r s).rxf = s.rxf := rfl
@[simp] theorem respond_sendOk (r : Response) (s : State) : (respond r s).sendOk = s.sendOk := rfl
@[simp] theorem respond_readStatus (r : Response) (s : State) : (respond r s).readStatus = s.readStatus := rfl
@[simp] theorem respond_fc (r : Response) (s : State) : (respond r s).fc = s.fc := rfl
@[simp] theorem respond_cfg (r : Response) (s : State) : (respond r s).cfg = s.cfg := rfl
@[simp] theorem respond_rx (r : Response) (s : State) : (respond r s).rx = s.rx := rfl
@[simp] theorem respond_tx (r : Response) (s : State) : (respond r s).tx = s.tx := rfl
@[simp] theorem respond_pin (r : Response) (s : State) : (respond r s).pin = s.pin := rfl
@[simp] theorem respond_par (r : Response) (s : State) : (respond r s).par = s.par := rfl
@[simp] theorem respond_host (r : Response) (s : State) : (respond r s).io.host = s.io.host := rfl
@[simp] theorem respond_other (r : Response) (s : State) : (respond r s).io.other = s.io.other := rfl
@[simp] theorem respond_drove (r : Response) (s : State) : (respond r s).io.drove = s.io.drove := rfl
@[simp] theorem respond_rsp (r : Response) (s : State) : (respond r s).io.rsp = r := rfl
@[simp] theorem respond_fresh (r : Response) (s : State) : (respond r s).io.fresh = s.io.fresh := rfl
@[simp] theorem latchTxf_txf (f : TxFrame) (s : State) : (latchTxf f s).txf = f := rfl
@[simp] theorem latchTxf_rxf (f : TxFrame) (s : State) : (latchTxf f s).rxf = s.rxf := rfl
@[simp] theorem latchTxf_sendOk (f : TxFrame) (s : State) : (latchTxf f s).sendOk = s.sendOk := rfl
@[simp] theorem latchTxf_readStatus (f : TxFrame) (s : State) : (latchTxf f s).readStatus = s.readStatus := rfl
@[simp] theorem latchTxf_fc (f : TxFrame) (s : State) : (latchTxf f s).fc = s.fc := rfl
@[simp] theorem latchTxf_cfg (f : TxFrame) (s : State) : (latchTxf f s).cfg = s.cfg := rfl
@[simp] theorem latchTxf_rx (f : TxFrame) (s : State) : (latchTxf f s).rx = s.rx := rfl
@[simp] theorem latchTxf_tx (f : TxFrame) (s : State) : (latchTxf f s).tx = s.tx := rfl
@[simp] theorem latchTxf_pin (f : TxFrame) (s : State) : (latchTxf f s).pin = s.pin := rfl
@[simp] theorem latchTxf_par (f : TxFrame) (s : State) : (latchTxf f s).par = s.par := rfl
@[simp] theorem latchTxf_io (f : TxFrame) (s : State) : (latchTxf f s).io = s.io := rfl
@[simp] theorem txStart_txf (f : TxFrame) (s : State) : (txStart f s).txf = f := rfl
@[simp] theorem txStart_rxf (f : TxFrame) (s : State) : (txStart f s).rxf = s.rxf := rfl
@[simp] theorem txStart_sendOk (f : TxFrame) (s : State) : (txStart f s).sendOk = s.sendOk := rfl
@[simp] theorem txStart_readStatus (f : TxFrame) (s : State) : (txStart f s).readStatus = s.readStatus := rfl
@[simp] theorem txStart_fc (f : TxFrame) (s : State) : (txStart f s).fc = s.fc := rfl
@[simp] theorem txStart_cfg (f : TxFrame) (s : State) : (txStart f s).cfg = s.cfg := rfl
@[simp] theorem txStart_rx (f : TxFrame) (s : State) : (txStart f s).rx = s.rx := rfl
@[simp] theorem txStart_tx (f : TxFrame) (s : State) : (txStart f s).tx = { s.tx.build f with txph := .txSof } := rfl
@[simp] theorem txStart_pin (f : TxFrame) (s : State) : (txStart f s).pin = s.pin := rfl
@[simp] theorem txStart_par (f : TxFrame) (s : State) : (txStart f s).par = s.par := rfl
@[simp] theorem txStart_io (f : TxFrame) (s : State) : (txStart f s).io = s.io := rfl
@[simp] theorem beginOp_txf (baud now : BitVec 32) (s : State) : (beginOp baud now s).txf = s.txf := rfl
@[simp] theorem beginOp_rxf (baud now : BitVec 32) (s : State) : (beginOp baud now s).rxf = s.rxf := rfl
@[simp] theorem beginOp_sendOk (baud now : BitVec 32) (s : State) : (beginOp baud now s).sendOk = s.sendOk := rfl
@[simp] theorem beginOp_readStatus (baud now : BitVec 32) (s : State) : (beginOp baud now s).readStatus = s.readStatus := rfl
@[simp] theorem beginOp_fc (baud now : BitVec 32) (s : State) : (beginOp baud now s).fc = { tec := 0, rec_ := 0, state := .errorActive } := rfl
@[simp] theorem beginOp_cfg (baud now : BitVec 32) (s : State) : (beginOp baud now s).cfg = { bittime := BitVec.ofNat 32 (Config.usPerSecond / baud.toNat), configured := true } := rfl
@[simp] theorem beginOp_rx (baud now : BitVec 32) (s : State) : (beginOp baud now s).rx = { s.rx with lastsample := now, rxs := .idle, rxcnt := 0, run := 0, lastbit := recessive, ackcnt := 0 } := rfl
@[simp] theorem beginOp_tx (baud now : BitVec 32) (s : State) : (beginOp baud now s).tx = s.tx := rfl
@[simp] theorem beginOp_pin (baud now : BitVec 32) (s : State) : (beginOp baud now s).pin = { txdir := .output, txlvl := recessive } := rfl
@[simp] theorem beginOp_par (baud now : BitVec 32) (s : State) : (beginOp baud now s).par = s.par := rfl
@[simp] theorem beginOp_io (baud now : BitVec 32) (s : State) : (beginOp baud now s).io = s.io := rfl

@[simp] theorem ackDrive_txf (s : State) : (ackDrive s).txf = s.txf := by unfold ackDrive; split <;> rfl
@[simp] theorem ackDrive_rxf (s : State) : (ackDrive s).rxf = s.rxf := by unfold ackDrive; split <;> rfl
@[simp] theorem ackDrive_sendOk (s : State) : (ackDrive s).sendOk = s.sendOk := by unfold ackDrive; split <;> rfl
@[simp] theorem ackDrive_readStatus (s : State) : (ackDrive s).readStatus = s.readStatus := by unfold ackDrive; split <;> rfl
@[simp] theorem ackDrive_fc (s : State) : (ackDrive s).fc = s.fc := by unfold ackDrive; split <;> rfl
@[simp] theorem ackDrive_cfg (s : State) : (ackDrive s).cfg = s.cfg := by unfold ackDrive; split <;> rfl
@[simp] theorem ackDrive_rx (s : State) : (ackDrive s).rx = s.rx := by unfold ackDrive; split <;> rfl
@[simp] theorem ackDrive_tx (s : State) : (ackDrive s).tx = s.tx := by unfold ackDrive; split <;> rfl
@[simp] theorem ackDrive_par (s : State) : (ackDrive s).par = s.par := by unfold ackDrive; split <;> rfl
@[simp] theorem ackDrive_io (s : State) : (ackDrive s).io = s.io := by unfold ackDrive; split <;> rfl
theorem ackDrive_pin (s : State) :
    (ackDrive s).pin = if s.rx.ackcnt = 1 then { txdir := .output, txlvl := dominant } else s.pin := by
  simp only [ackDrive, State.ackDue, decide_eq_true_eq]
  by_cases h : s.rx.ackcnt = 1
  · rw [if_pos h, if_pos h]; rfl
  · rw [if_neg h, if_neg h]
@[simp] theorem ackRelease_txf (due : Bool) (s : State) : (ackRelease due s).txf = s.txf := by cases due <;> rfl
@[simp] theorem ackRelease_rxf (due : Bool) (s : State) : (ackRelease due s).rxf = s.rxf := by cases due <;> rfl
@[simp] theorem ackRelease_sendOk (due : Bool) (s : State) : (ackRelease due s).sendOk = s.sendOk := by cases due <;> rfl
@[simp] theorem ackRelease_readStatus (due : Bool) (s : State) : (ackRelease due s).readStatus = s.readStatus := by cases due <;> rfl
@[simp] theorem ackRelease_fc (due : Bool) (s : State) : (ackRelease due s).fc = s.fc := by cases due <;> rfl
@[simp] theorem ackRelease_cfg (due : Bool) (s : State) : (ackRelease due s).cfg = s.cfg := by cases due <;> rfl
@[simp] theorem ackRelease_rx (due : Bool) (s : State) : (ackRelease due s).rx = s.rx := by cases due <;> rfl
@[simp] theorem ackRelease_tx (due : Bool) (s : State) : (ackRelease due s).tx = s.tx := by cases due <;> rfl
@[simp] theorem ackRelease_par (due : Bool) (s : State) : (ackRelease due s).par = s.par := by cases due <;> rfl
@[simp] theorem ackRelease_io (due : Bool) (s : State) : (ackRelease due s).io = s.io := by cases due <;> rfl
theorem ackRelease_pin (due : Bool) (s : State) :
    (ackRelease due s).pin = if due then { txdir := .output, txlvl := recessive } else s.pin := by cases due <;> rfl
@[simp] theorem restStart_txf (s : State) : (restStart s).txf = s.txf := by unfold restStart; split <;> rfl
@[simp] theorem restStart_rxf (s : State) : (restStart s).rxf = s.rxf := by unfold restStart; split <;> rfl
@[simp] theorem restStart_sendOk (s : State) : (restStart s).sendOk = s.sendOk := by unfold restStart; split <;> rfl
@[simp] theorem restStart_readStatus (s : State) : (restStart s).readStatus = s.readStatus := by unfold restStart; split <;> rfl
@[simp] theorem restStart_fc (s : State) : (restStart s).fc = s.fc := by unfold restStart; split <;> rfl
@[simp] theorem restStart_cfg (s : State) : (restStart s).cfg = s.cfg := by unfold restStart; split <;> rfl
@[simp] theorem restStart_rx (s : State) : (restStart s).rx = s.rx := by unfold restStart; split <;> rfl
@[simp] theorem restStart_tx (s : State) : (restStart s).tx = s.tx := by unfold restStart; split <;> rfl
@[simp] theorem restStart_par (s : State) : (restStart s).par = s.par := by unfold restStart; split <;> rfl
@[simp] theorem restStart_host (s : State) : (restStart s).io.host = s.io.host := by unfold restStart; split <;> rfl
@[simp] theorem restStart_other (s : State) : (restStart s).io.other = s.io.other := by unfold restStart; split <;> rfl
@[simp] theorem restStart_drove (s : State) : (restStart s).io.drove = s.io.drove := by unfold restStart; split <;> rfl
@[simp] theorem restStart_rsp (s : State) : (restStart s).io.rsp = s.io.rsp := by unfold restStart; split <;> rfl
@[simp] theorem restPeriod_txf (s : State) : (restPeriod s).txf = s.txf := by simp [restPeriod]
@[simp] theorem restPeriod_rxf (s : State) : (restPeriod s).rxf = s.rxf := by simp [restPeriod]
@[simp] theorem restPeriod_sendOk (s : State) : (restPeriod s).sendOk = s.sendOk := by simp [restPeriod]
@[simp] theorem restPeriod_readStatus (s : State) : (restPeriod s).readStatus = s.readStatus := by simp [restPeriod]
@[simp] theorem restPeriod_fc (s : State) : (restPeriod s).fc = s.fc := by simp [restPeriod]
@[simp] theorem restPeriod_cfg (s : State) : (restPeriod s).cfg = s.cfg := by simp [restPeriod]
@[simp] theorem restPeriod_rx (s : State) : (restPeriod s).rx = s.rx := by simp [restPeriod]
@[simp] theorem restPeriod_tx (s : State) : (restPeriod s).tx = s.tx := by simp [restPeriod]
@[simp] theorem restPeriod_par (s : State) : (restPeriod s).par = s.par := by simp [restPeriod]
@[simp] theorem restPeriod_host (s : State) : (restPeriod s).io.host = s.io.host := by simp [restPeriod]
@[simp] theorem restPeriod_other (s : State) : (restPeriod s).io.other = s.io.other.tail := by simp [restPeriod]
@[simp] theorem restPeriod_drove (s : State) : (restPeriod s).io.drove = s.io.drove ++ [(restStart s).drive] := by
  simp [restPeriod]
@[simp] theorem restPeriod_rsp (s : State) : (restPeriod s).io.rsp = s.io.rsp := by simp [restPeriod]

/-- A configured node's bit period without a `READ`: the latches stand, and an acknowledge in it is over at its end (R172, R279). -/
theorem restPeriod_configured (s : State) (h : s.cfg.configured = true) :
    restPeriod s =
      { s with
        pin := if s.rx.ackcnt = 1 then { txdir := .output, txlvl := recessive } else s.pin
        io := { s.io with other := s.io.other.tail, drove := s.io.drove ++ [s.drive] } } := by
  by_cases ha : s.rx.ackcnt = 1
  · simp [restPeriod, restStart, h, State.ackDue, ha, ackRelease, driveRecessive, hold]
  · have ha' : ¬ s.rx.ackcnt = 1#2 := ha
    simp [restPeriod, restStart, h, State.ackDue, ha', ackRelease, hold]

/-- A bit period of a node before its first `BEGIN`: latches drawn afresh, and nothing else but the period's passing (U2, log 28). -/
theorem restPeriod_unconfigured (s : State) (h : s.cfg.configured = false) :
    restPeriod s =
      { s with
        pin := pinOf (Config.freeValue s.io.fresh)
        io := { s.io with
          other := s.io.other.tail
          drove := s.io.drove ++ [(pinOf (Config.freeValue s.io.fresh)).drive]
          fresh := s.io.fresh + 1 } } := by
  simp [restPeriod, restStart, h, ackRelease, hold, State.drive]

/-- The conditions the receiver raises (R240, codes 4, 5, 7, 8, 9). -/
def ErrorCause.ofReceiver : ErrorCause → Bool
  | .stuffError | .crcMismatch | .short | .length | .overflow => true
  | .busOff | .arbitrationLost | .noAck | .dlcClamp => false

/-- The exit of every receive error is one state change (R251). -/
theorem raiseError_receiver (op : Raiser) (c : ErrorCause) (s : State) (h : c.ofReceiver = true) :
    raiseError op c s =
      { s with
        fc := s.fc.onRxFailure
        rx := { s.rx with rxs := .idle, ackcnt := 0 }
        readStatus := .frameError } := by
  cases c <;> first | rfl | cases h

/-- The exit of a missing acknowledge (R251). -/
theorem raiseError_noAck (op : Raiser) (s : State) :
    raiseError op .noAck s =
      { s with
        pin := { txdir := .output, txlvl := recessive }
        fc := s.fc.onTxFailure
        tx := { s.tx with txph := .txIdle }
        sendOk := false } := rfl

/-- The exit of an arbitration loss (R251). -/
theorem raiseError_arbitrationLost (op : Raiser) (s : State) :
    raiseError op .arbitrationLost s =
      { s with
        pin := { txdir := .output, txlvl := recessive }
        tx := { s.tx with txph := .txIdle }
        sendOk := false } := rfl

/-- The two gates of Bus-Off (R251). -/
theorem raiseError_busOff (s : State) :
    raiseError .send .busOff s = { s with sendOk := false } ∧
      raiseError .read .busOff s = { s with readStatus := .noMessage } := ⟨rfl, rfl⟩

/-- A clamp is no error (R248). -/
theorem raiseError_dlcClamp (op : Raiser) (s : State) : raiseError op .dlcClamp s = s := rfl

@[simp] theorem complete_next (r : Response) (s : State) : complete r s = .next (respond r s) := rfl
@[simp] theorem drive_output (w : Level) : LineDriver.drive { txdir := .output, txlvl := w } = w := by cases w <;> rfl
@[simp] theorem drive_input (w : Level) : LineDriver.drive { txdir := .input, txlvl := w } = recessive := by cases w <;> rfl

/-- What the node drives is a function of its latches. -/
theorem state_drive (s : State) : s.drive = s.pin.drive := rfl

/-- Whether a `SEND` is in progress is a function of the phase. -/
theorem state_busy (s : State) : s.busy = decide (s.tx.txph ≠ .txIdle) := rfl

/-- The accepted presentation and the state in which it has been accepted (R217, R225). -/
theorem fetch_of_idle (s : State) (p : Presented) (rest : List Presented) (hh : s.io.host = p :: rest)
    (hb : s.busy = false) : fetch s = some (p, { s with io := { s.io with host := rest } }) := by
  simp [fetch, hh, State.cmdReady, hb]

/-- While a `SEND` is in progress only a reset is accepted (R217, R225). -/
theorem fetch_of_busy (s : State) (hb : s.busy = true) (hr : ∀ p, s.io.host.head? = some p → isReset p = false) :
    fetch s = none := by
  cases h : s.io.host with
  | nil => simp [fetch, h]
  | cons p rest => simp [fetch, h, State.cmdReady, hb, hr p (by simp [h])]

/-- With nothing presented nothing is accepted. -/
theorem fetch_of_empty (s : State) (h : s.io.host = []) : fetch s = none := by simp [fetch, h]

end Sys2Proof.Machine
end

