-- ==== Sys2Proof/Laws/Exec.lean ====
section
/-! SUPPORT. Each meaning in one equation, its parts written out, so that no proof unfolds `exec`. -/

namespace Sys2Proof.Machine

theorem exec_encBit (b : Level) (s : State) :
    exec (.encBit b) s =
      .next (respond (.bits (encBit b s.tx.enc).1) { opStart s with tx := s.tx.withEnc (encBit b s.tx.enc).2 }) := rfl

theorem exec_encSeq (bits : List Level) (s : State) :
    exec (.encSeq bits) s =
      .next (respond (.bits (encSeq bits)) { opStart s with tx := s.tx.withEnc (encBits bits encStart).2 }) := rfl

theorem exec_decBit (b : Level) (s : State) :
    exec (.decBit b) s =
      .next (respond (.event (s.rx.decBit b).1) { opStart s with rx := (s.rx.decBit b).2 }) := rfl

theorem exec_begin (baud now : BitVec 32) (s : State) (h : baudOk baud = true) :
    exec (.begin baud now) s = .next (respond .done (beginOp baud now (opStart s))) := by
  simp [exec, execBegin, h]

theorem exec_send (f : TxFrame) (s : State) (h : s.cfg.configured = true) :
    exec (.send f) s = .next (sendOp f (opStart s)) := by
  simp [exec, execSend, h]

/-- A `SEND` that answers a next state was configured. -/
theorem configured_of_send (f : TxFrame) (s t : State) (h : exec (.send f) s = .next t) : s.cfg.configured = true := by
  by_contra hc
  simp [exec, execSend, hc] at h

theorem exec_read (now : BitVec 32) (s : State) (h : s.cfg.configured = true) :
    exec (.read now) s =
      .next (respond (.status (readOp now (opStart s)).1.1 (readOp now (opStart s)).1.2) (readOp now (opStart s)).2) := by
  simp [exec, execRead, h]

/-- A `READ` that answers a next state was configured. -/
theorem configured_of_read (now : BitVec 32) (s t : State) (h : exec (.read now) s = .next t) :
    s.cfg.configured = true := by
  by_contra hc
  simp [exec, execRead, hc] at h

theorem exec_ofFormat (d : Nat) (f : WireFrame) (i : Instr) (h : Instr.ofFormat d f = some i) (s : State) :
    exec i s = receiveFrame f s := by
  unfold Instr.ofFormat at h
  split at h <;> simp at h <;> subst h <;> rfl

theorem receiveLevels_configured (ls : List Level) (s : State) (h : s.cfg.configured = true) :
    receiveLevels ls s =
      .next (respond (.statuses (readPeriods ls (opStart s)).1) (readPeriods ls (opStart s)).2) := by
  simp [receiveLevels, h]

theorem receiveLevels_unconfigured (ls : List Level) (s : State) (h : s.cfg.configured = false) :
    receiveLevels ls s = .refused .notConfigured := by
  simp [receiveLevels, h]

theorem receiveFrame_configured (f : WireFrame) (s : State) (h : s.cfg.configured = true) :
    receiveFrame f s =
      .next (respond (.statuses (readPeriods (wireImage f) (opStart s)).1) (readPeriods (wireImage f) (opStart s)).2) :=
  receiveLevels_configured _ _ h

theorem exec_rxStep (smp : Level) (s : State) :
    exec (.rxStep smp) s =
      .next (respond (.status (rxStep smp (opStart s)).1.1 (rxStep smp (opStart s)).1.2) (rxStep smp (opStart s)).2) :=
  rfl

theorem exec_rxDecode (s : State) :
    exec .rxDecode s = .next (respond (.decoded (rxDecode (opStart s)).1) (rxDecode (opStart s)).2) := rfl

/-- A step that accepts what decodes runs it (R217). -/
theorem step_of_fetch (s s' : State) (p : Presented) (i : Instr) (hf : fetch s = some (p, s')) (hd : decode p = .ok i) :
    step s = exec i s' := by
  simp [step, hf, hd]

/-- Only bits on the wire can be no instruction. -/
theorem frame_of_error (p : Presented) (e : Reject) (hd : decode p = .error e) : ∃ bits, p = .frame bits := by
  cases p with
  | frame bits => exact ⟨bits, rfl⟩
  | command _ => cases hd
  | construct _ _ => cases hd

/-- A step that accepts bits that are no frame format receives their levels (R69; log 29). -/
theorem step_of_no_format (s s' : State) (bits : List Level) (e : Reject) (hf : fetch s = some (.frame bits, s'))
    (hd : decode (.frame bits) = .error e) : step s = receiveLevels (wireLevels bits) s' := by
  simp [step, hf, hd, presentedLevels]

/-- Every result of a step (R217): an instruction run, other bits received, or a bit period. -/
theorem step_cases (s : State) :
    (∃ p s' i, fetch s = some (p, s') ∧ decode p = .ok i ∧ step s = exec i s') ∨
      (∃ bits s' e, fetch s = some (.frame bits, s') ∧ decode (.frame bits) = .error e ∧
        step s = receiveLevels (wireLevels bits) s') ∨
      (fetch s = none ∧ step s = .next (if s.busy then txPeriod (opStart s) else restPeriod (opStart s))) := by
  cases hf : fetch s with
  | none => exact .inr (.inr ⟨rfl, by simp [step, hf]⟩)
  | some q =>
    obtain ⟨p, s'⟩ := q
    cases hd : decode p with
    | ok i => exact .inl ⟨p, s', i, rfl, hd, by simp [step, hf, hd]⟩
    | error e =>
      obtain ⟨bits, rfl⟩ := frame_of_error p e hd
      exact .inr (.inl ⟨bits, s', e, rfl, hd, step_of_no_format s s' bits e hf hd⟩)

/-- Recessive bits before a frame stay as they stand. -/
theorem wireLevels_recessive (k : Nat) (bits : List Level) :
    wireLevels (List.replicate k recessive ++ bits) = List.replicate k recessive ++ wireLevels bits := by
  induction k with
  | zero => rfl
  | succ k ih => simp [List.replicate_succ, wireLevels, ih]

/-- The start-of-frame bit, the stuffed bits, the tail (R66). -/
theorem wireLevels_frame (body tail : List Level) (h : tail.length = 10) :
    wireLevels (dominant :: (body ++ tail)) = dominant :: (encSeq body ++ tail) := by
  simp [wireLevels, h]

/-- Bits that end before the tail does have nothing to stuff. -/
theorem wireLevels_short (tail : List Level) (h : tail.length ≤ 10) :
    wireLevels (dominant :: tail) = dominant :: tail := by
  simp [wireLevels, encSeq, encBits, show tail.length - 10 = 0 by omega]

/-- Of a frame format it is the wire image (R104). -/
theorem wireLevels_frameBits (f : WireFrame) : wireLevels (frameBits f) = wireImage f := by
  simpa [frameBits, wireImage, frameLogical, frameTail] using wireLevels_frame (frameLogical f) (frameTail f) (by simp [frameTail])

/-- A step that accepts nothing (R217). -/
theorem step_of_no_fetch (s : State) (hf : fetch s = none) :
    step s = .next (if s.busy then txPeriod (opStart s) else restPeriod (opStart s)) := by
  simp [step, hf]

end Sys2Proof.Machine
end

