-- ==== Sys2Proof/Laws/FaultConfinement.lean ====
section
/-! SUPPORT. What the classifier and the four hooks leave (45_fault_confinement.md R200 to R205). -/

namespace Sys2Proof.Machine

@[simp] theorem classify_tec (c : FaultConf) : c.classify.tec = c.tec := rfl
@[simp] theorem classify_rec (c : FaultConf) : c.classify.rec_ = c.rec_ := rfl
@[simp] theorem classify_state (c : FaultConf) : c.classify.state = classOf c.tec c.rec_ := rfl

@[simp] theorem onTxFailure_rec (c : FaultConf) : c.onTxFailure.rec_ = c.rec_ := by
  simp only [FaultConf.onTxFailure]; split <;> rfl
@[simp] theorem onRxFailure_tec (c : FaultConf) : c.onRxFailure.tec = c.tec := by
  simp only [FaultConf.onRxFailure]; split <;> rfl
@[simp] theorem onTxSuccess_rec (c : FaultConf) : c.onTxSuccess.rec_ = c.rec_ := by
  simp only [FaultConf.onTxSuccess]; split <;> rfl
@[simp] theorem onRxSuccess_tec (c : FaultConf) : c.onRxSuccess.tec = c.tec := by
  simp only [FaultConf.onRxSuccess]; split <;> rfl

/-- Every hook ends with the classification (R200). -/
theorem onTxFailure_state (c : FaultConf) : c.onTxFailure.state = classOf c.onTxFailure.tec c.onTxFailure.rec_ := rfl
theorem onRxFailure_state (c : FaultConf) : c.onRxFailure.state = classOf c.onRxFailure.tec c.onRxFailure.rec_ := rfl
theorem onTxSuccess_state (c : FaultConf) : c.onTxSuccess.state = classOf c.onTxSuccess.tec c.onTxSuccess.rec_ := rfl
theorem onRxSuccess_state (c : FaultConf) : c.onRxSuccess.state = classOf c.onRxSuccess.tec c.onRxSuccess.rec_ := rfl

/-- `TEC` after a transmit failure (R201). -/
theorem onTxFailure_tec (c : FaultConf) (h : c.tec.toNat ≤ 503) :
    c.onTxFailure.tec.toNat = if c.state = .busOff then c.tec.toNat else c.tec.toNat + 8 := by
  have : (c.tec + 8).toNat = c.tec.toNat + 8 := by simp; omega
  simp only [FaultConf.onTxFailure, classify_tec]
  split
  · rfl
  · exact this

/-- `REC` after a receive failure (R202). -/
theorem onRxFailure_rec (c : FaultConf) (h : c.rec_.toNat ≤ 510) :
    c.onRxFailure.rec_.toNat = if c.state = .busOff then c.rec_.toNat else c.rec_.toNat + 1 := by
  have : (c.rec_ + 1).toNat = c.rec_.toNat + 1 := by simp; omega
  simp only [FaultConf.onRxFailure, classify_rec]
  split
  · rfl
  · exact this

/-- `TEC` after a transmit success (R203). -/
theorem onTxSuccess_tec (c : FaultConf) : c.onTxSuccess.tec.toNat = c.tec.toNat - 1 := by
  have := c.tec.isLt
  simp only [FaultConf.onTxSuccess, classify_tec]
  split
  · rw [BitVec.toNat_sub]; simp; omega
  · omega

/-- `REC` after a receive success (R204). -/
theorem onRxSuccess_rec (c : FaultConf) : c.onRxSuccess.rec_.toNat = c.rec_.toNat - 1 := by
  have := c.rec_.isLt
  simp only [FaultConf.onRxSuccess, classify_rec]
  split
  · rw [BitVec.toNat_sub]; simp; omega
  · omega

/-- Short of Bus-Off no counter is above 255 (R17). -/
theorem good_counters (c : FaultConf) (h : c.Good) (hs : c.state ≠ .busOff) : c.tec.toNat ≤ 255 ∧ c.rec_.toNat ≤ 255 := by
  have := h.state_is_class
  rw [this] at hs
  simp only [classOf] at hs
  split at hs
  · exact absurd rfl hs
  · omega

/-- The hooks keep the registers consistent and in range (R34 (a), R205). -/
theorem onTxFailure_good (c : FaultConf) (h : c.Good) : c.onTxFailure.Good := by
  have hb := h.tec_bound
  refine ⟨onTxFailure_state c, ?_, by rw [onTxFailure_rec]; exact h.rec_bound⟩
  rw [onTxFailure_tec c (by omega)]
  split
  · exact hb
  · have := (good_counters c h ‹_›).1; omega

theorem onRxFailure_good (c : FaultConf) (h : c.Good) : c.onRxFailure.Good := by
  have hb := h.rec_bound
  refine ⟨onRxFailure_state c, by rw [onRxFailure_tec]; exact h.tec_bound, ?_⟩
  rw [onRxFailure_rec c (by omega)]
  split
  · exact hb
  · have := (good_counters c h ‹_›).2; omega

theorem onTxSuccess_good (c : FaultConf) (h : c.Good) : c.onTxSuccess.Good := by
  have hb := h.tec_bound
  exact ⟨onTxSuccess_state c, by rw [onTxSuccess_tec]; omega, by rw [onTxSuccess_rec]; exact h.rec_bound⟩

theorem onRxSuccess_good (c : FaultConf) (h : c.Good) : c.onRxSuccess.Good := by
  have hb := h.rec_bound
  exact ⟨onRxSuccess_state c, by rw [onRxSuccess_tec]; exact h.tec_bound, by rw [onRxSuccess_rec]; omega⟩

theorem classify_good (c : FaultConf) (ht : c.tec.toNat ≤ 263) (hr : c.rec_.toNat ≤ 256) : c.classify.Good :=
  ⟨rfl, ht, hr⟩

end Sys2Proof.Machine
end

