-- ==== Sys2Proof/Laws/Memory.lean ====
section
/-! SUPPORT. The laws of the index space of bits: read after write, the canonical form kept, the bounds of the cells. -/

namespace Sys2Proof.Machine

@[simp] theorem memory_unlisted : Memory.unlisted = false := rfl

@[simp] theorem read_nil (i : Nat) : Memory.read [] i = false := rfl

/-- An index below every cell reads as unlisted. -/
theorem read_of_lt_wfFrom (m : Memory) (lo i : Nat) (h : m.wfFrom lo = true) (hi : i < lo) : m.read i = false := by
  induction m generalizing lo with
  | nil => rfl
  | cons c m ih =>
    obtain ⟨a, b⟩ := c
    simp only [Memory.wfFrom, Bool.and_eq_true, decide_eq_true_eq] at h
    have : i ≠ a := by omega
    simp only [Memory.read, this, if_false]
    exact ih (a + 1) h.2 (by omega)

/-- What is written is read back. -/
theorem read_write_same (m : Memory) (i : Nat) (b : Level) (lo : Nat) (h : m.wfFrom lo = true) :
    (m.write i b).read i = b := by
  induction m generalizing lo with
  | nil => cases b <;> simp [Memory.write, Memory.read]
  | cons c m ih =>
    obtain ⟨a, d⟩ := c
    simp only [Memory.wfFrom, Bool.and_eq_true, decide_eq_true_eq] at h
    by_cases h1 : i < a
    · have hne : i ≠ a := by omega
      cases b
      · simp only [Memory.write, h1, if_true, memory_unlisted, Memory.read, hne, if_false]
        exact read_of_lt_wfFrom m (a + 1) i h.2 (by omega)
      · simp [Memory.write, h1, Memory.read]
    · by_cases h2 : i = a
      · subst h2
        cases b
        · simp only [Memory.write, Nat.lt_irrefl, if_false, if_true, memory_unlisted]
          exact read_of_lt_wfFrom m (i + 1) i h.2 (by omega)
        · simp [Memory.write, Memory.read]
      · simp only [Memory.write, h1, h2, if_false, Memory.read]
        exact ih (a + 1) h.2

/-- A write leaves every other element alone. -/
theorem read_write_other (m : Memory) (i j : Nat) (b : Level) (hij : j ≠ i) : (m.write i b).read j = m.read j := by
  induction m with
  | nil => cases b <;> simp [Memory.write, Memory.read, hij]
  | cons c m ih =>
    obtain ⟨a, d⟩ := c
    by_cases h1 : i < a
    · cases b <;> simp [Memory.write, h1, Memory.read, hij]
    · by_cases h2 : i = a
      · subst h2
        cases b <;> simp [Memory.write, Memory.read, hij]
      · simp only [Memory.write, h1, h2, if_false, Memory.read, ih]

/-- A write keeps the canonical form. -/
theorem write_wfFrom (m : Memory) (i : Nat) (b : Level) (lo : Nat) (h : m.wfFrom lo = true) (hi : lo ≤ i) :
    (m.write i b).wfFrom lo = true := by
  induction m generalizing lo with
  | nil => cases b <;> simp [Memory.write, Memory.wfFrom, hi]
  | cons c m ih =>
    obtain ⟨a, d⟩ := c
    simp only [Memory.wfFrom, Bool.and_eq_true, decide_eq_true_eq] at h
    obtain ⟨⟨hlo, hd⟩, hm⟩ := h
    have hd : d = true := by simpa using hd
    by_cases h1 : i < a
    · cases b
      · simp [Memory.write, h1, Memory.wfFrom, hlo, hm, hd]
      · have : i + 1 ≤ a := h1
        simp [Memory.write, h1, Memory.wfFrom, hi, this, hm, hd]
    · by_cases h2 : i = a
      · subst h2
        cases b
        · simp only [Memory.write, Nat.lt_irrefl, if_false, if_true, memory_unlisted]
          clear hd ih h1
          cases m with
          | nil => rfl
          | cons c m =>
            obtain ⟨a', d'⟩ := c
            simp only [Memory.wfFrom, Bool.and_eq_true, decide_eq_true_eq] at hm ⊢
            exact ⟨⟨by omega, hm.1.2⟩, hm.2⟩
        · simp [Memory.write, Memory.wfFrom, hlo, hm]
      · have := ih (a + 1) hm (by omega)
        simp [Memory.write, h1, h2, Memory.wfFrom, hlo, hd, this]

theorem write_wf (m : Memory) (i : Nat) (b : Level) (h : m.wf = true) : (m.write i b).wf = true :=
  write_wfFrom m i b 0 h (Nat.zero_le i)

/-- The form from an index holds from every lower one. -/
theorem wfFrom_mono (m : Memory) (lo lo' : Nat) (h : m.wfFrom lo = true) (hl : lo' ≤ lo) : m.wfFrom lo' = true := by
  cases m with
  | nil => rfl
  | cons c m =>
    obtain ⟨a, d⟩ := c
    simp only [Memory.wfFrom, Bool.and_eq_true, decide_eq_true_eq] at h ⊢
    exact ⟨⟨by omega, h.1.2⟩, h.2⟩

/-- Memories made of given bits are canonical. -/
theorem ofBits_wfFrom (bs : List Level) (lo : Nat) : (Memory.ofBits lo bs).wfFrom lo = true := by
  induction bs generalizing lo with
  | nil => rfl
  | cons b bs ih =>
    cases b
    · simpa [Memory.ofBits] using wfFrom_mono _ _ lo (ih (lo + 1)) (by omega)
    · simp [Memory.ofBits, Memory.wfFrom, ih]

/-- The cells of a memory made of given bits lie within them. -/
theorem ofBits_below (bs : List Level) (lo : Nat) : (Memory.ofBits lo bs).below (lo + bs.length) = true := by
  induction bs generalizing lo with
  | nil => rfl
  | cons b bs ih =>
    have := ih (lo + 1)
    simp only [Memory.below, List.all_eq_true, decide_eq_true_eq, List.length_cons] at this ⊢
    intro c hc
    cases b
    · have := this c (by simpa [Memory.ofBits] using hc)
      omega
    · simp only [Memory.ofBits, memory_unlisted, Bool.true_eq_false, if_false, List.mem_cons] at hc
      rcases hc with rfl | hc
      · simp
      · have := this c hc
        omega

/-- A write below a bound keeps the cells below it. -/
theorem write_below (m : Memory) (i n : Nat) (b : Level) (h : m.below n = true) (hi : i < n) :
    (m.write i b).below n = true := by
  induction m with
  | nil => cases b <;> simp [Memory.write, Memory.below, hi]
  | cons c m ih =>
    obtain ⟨a, d⟩ := c
    simp only [Memory.below, List.all_cons, Bool.and_eq_true, decide_eq_true_eq] at h ih ⊢
    by_cases h1 : i < a
    · cases b <;> simp [Memory.write, h1, h.1, h.2, hi]
    · by_cases h2 : i = a
      · subst h2
        cases b <;> simp [Memory.write, h.1, h.2]
      · simp [Memory.write, h1, h2, h.1, ih h.2]

@[simp] theorem range_length (m : Memory) (i n : Nat) : (m.range i n).length = n := by simp [Memory.range]

/-- The elements of a range, one by one. -/
theorem range_getElem (m : Memory) (i n k : Nat) (h : k < (m.range i n).length) : (m.range i n)[k] = m.read (i + k) := by
  simp [Memory.range]

/-- A range of which every element has not changed has not changed. -/
theorem range_congr (m m' : Memory) (i n : Nat) (h : ∀ k, k < n → m.read (i + k) = m'.read (i + k)) :
    m.range i n = m'.range i n := by
  apply List.map_congr_left
  intro k hk
  exact h k (List.mem_range.mp hk)

/-- A range is the concatenation of its two parts. -/
theorem range_add (m : Memory) (i n k : Nat) : m.range i (n + k) = m.range i n ++ m.range (i + n) k := by
  simp [Memory.range, List.range_add, Function.comp_def, Nat.add_assoc]

end Sys2Proof.Machine
end

