-- ==== Sys2Proof/Laws/PerInstr.lean ====
section
/-! SUPPORT. Statements about every instruction as syntax, one lemma per constructor. -/

namespace Sys2Proof.Laws.HasWords

/-- An instruction has an encoding exactly if it is not an internal operation, and a well-formed one that has an encoding is presented as
a command, as frame bits of the length of its format, or by construction (30_encoding.md R61, R70, R73; 46_host_interface.md R218). -/
def Statement (i : Instr) : Prop :=
  (encode i).isNone = i.isInternal ∧
    ∀ d f, i.format = some (d, f) → i.wellFormed = true → (frameBits f).length = 44 + 8 * d

theorem length_of_fits {d : Nat} {f : WireFrame} (h : f.fits d = true) : (frameBits f).length = 44 + 8 * d := by
  simp only [WireFrame.fits, Bool.and_eq_true, decide_eq_true_eq] at h
  simp only [frameBits, List.length_cons, List.length_append, ser, List.length_map, List.length_range, List.length_flatMap,
    List.length_nil, List.length_replicate]
  rw [List.map_const', List.sum_replicate, h.2]
  simp only [smul_eq_mul]
  omega

/-- A frame format whose fields fit it. -/
theorem of_format {i : Instr} {d : Nat} {f : WireFrame} (he : (encode i).isNone = i.isInternal)
    (hf : i.format = some (d, f)) (hw : i.wellFormed = f.fits d) : Statement i := by
  refine ⟨he, fun d' f' h w => ?_⟩
  rw [hf] at h
  obtain ⟨rfl, rfl⟩ := Prod.mk.inj (Option.some.inj h)
  exact length_of_fits (hw ▸ w)

/-- An instruction that is no frame format. -/
theorem of_other {i : Instr} (he : (encode i).isNone = i.isInternal) (hf : i.format = none) : Statement i :=
  ⟨he, fun d f h => by rw [hf] at h; exact absurd h (by simp)⟩

theorem nop : Statement .nop := of_other rfl rfl
theorem begin (baud now : BitVec 32) : Statement (.begin baud now) := of_other rfl rfl
theorem send (f : TxFrame) : Statement (.send f) := of_other rfl rfl
theorem read (now : BitVec 32) : Statement (.read now) := of_other rfl rfl
theorem df0 (f : WireFrame) : Statement (.df0 f) := of_format rfl rfl rfl
theorem df1 (f : WireFrame) : Statement (.df1 f) := of_format rfl rfl rfl
theorem df2 (f : WireFrame) : Statement (.df2 f) := of_format rfl rfl rfl
theorem df3 (f : WireFrame) : Statement (.df3 f) := of_format rfl rfl rfl
theorem df4 (f : WireFrame) : Statement (.df4 f) := of_format rfl rfl rfl
theorem df5 (f : WireFrame) : Statement (.df5 f) := of_format rfl rfl rfl
theorem df6 (f : WireFrame) : Statement (.df6 f) := of_format rfl rfl rfl
theorem df7 (f : WireFrame) : Statement (.df7 f) := of_format rfl rfl rfl
theorem df8 (f : WireFrame) : Statement (.df8 f) := of_format rfl rfl rfl
theorem new (rxPin txPin : Nat) : Statement (.new rxPin txPin) := of_other rfl rfl
theorem driveDominant : Statement .driveDominant := of_other rfl rfl
theorem driveRecessive : Statement .driveRecessive := of_other rfl rfl
theorem release : Statement .release := of_other rfl rfl
theorem sampleRx : Statement .sampleRx := of_other rfl rfl
theorem encInit : Statement .encInit := of_other rfl rfl
theorem encBit (b : Level) : Statement (.encBit b) := of_other rfl rfl
theorem encSeq (bits : List Level) : Statement (.encSeq bits) := of_other rfl rfl
theorem decInit : Statement .decInit := of_other rfl rfl
theorem decBit (s : Level) : Statement (.decBit s) := of_other rfl rfl
theorem crc15Step (reg : BitVec 15) (b : Level) : Statement (.crc15Step reg b) := of_other rfl rfl
theorem crc15 (bits : List Level) : Statement (.crc15 bits) := of_other rfl rfl
theorem txBuild : Statement .txBuild := of_other rfl rfl
theorem rxStep (s : Level) : Statement (.rxStep s) := of_other rfl rfl
theorem rxDecode : Statement .rxDecode := of_other rfl rfl
theorem ackCheck : Statement .ackCheck := of_other rfl rfl
theorem classify : Statement .classify := of_other rfl rfl
theorem onTxFailure : Statement .onTxFailure := of_other rfl rfl
theorem onRxFailure : Statement .onRxFailure := of_other rfl rfl
theorem onTxSuccess : Statement .onTxSuccess := of_other rfl rfl
theorem onRxSuccess : Statement .onRxSuccess := of_other rfl rfl

end Sys2Proof.Laws.HasWords
end

