-- ==== Sys2Proof/Laws/Receiver.lean ====
section
/-! SUPPORT. What a sample does to the receiver, said once for each case (44_receiver.md R164 to R174), and what `READ` is made of. -/

namespace Sys2Proof.Machine

@[simp] theorem countDown_rxs (r : Receiver) : r.countDown.rxs = r.rxs := by
  simp only [Receiver.countDown]; split <;> rfl
@[simp] theorem countDown_rxbuf (r : Receiver) : r.countDown.rxbuf = r.rxbuf := by
  simp only [Receiver.countDown]; split <;> rfl
@[simp] theorem countDown_rxcnt (r : Receiver) : r.countDown.rxcnt = r.rxcnt := by
  simp only [Receiver.countDown]; split <;> rfl
@[simp] theorem countDown_run (r : Receiver) : r.countDown.run = r.run := by
  simp only [Receiver.countDown]; split <;> rfl
@[simp] theorem countDown_lastbit (r : Receiver) : r.countDown.lastbit = r.lastbit := by
  simp only [Receiver.countDown]; split <;> rfl
@[simp] theorem countDown_lastsample (r : Receiver) : r.countDown.lastsample = r.lastsample := by
  simp only [Receiver.countDown]; split <;> rfl
theorem countDown_ackcnt (r : Receiver) : r.countDown.ackcnt = if r.ackcnt = 0 then 0 else r.ackcnt - 1 := by
  simp only [Receiver.countDown]; split <;> simp_all

theorem countDown_eq (r : Receiver) :
    r.countDown = { r with ackcnt := if r.ackcnt = 0 then 0 else r.ackcnt - 1 } := by
  by_cases h : r.ackcnt = 0
  · simp only [Receiver.countDown, h, if_true]; rw [← h]
  · simp only [Receiver.countDown, h, if_false]

/-- `ACK_CHECK` changes the acknowledge countdown alone. -/
theorem ackCheck_frame (r : Receiver) : r.ackCheck = { r with ackcnt := r.ackCheck.ackcnt } := by
  simp only [Receiver.ackCheck]; split <;> rfl

@[simp] theorem ackCheck_rxs (r : Receiver) : r.ackCheck.rxs = r.rxs := by rw [ackCheck_frame]
@[simp] theorem ackCheck_rxbuf (r : Receiver) : r.ackCheck.rxbuf = r.rxbuf := by rw [ackCheck_frame]
@[simp] theorem ackCheck_rxcnt (r : Receiver) : r.ackCheck.rxcnt = r.rxcnt := by rw [ackCheck_frame]
@[simp] theorem ackCheck_run (r : Receiver) : r.ackCheck.run = r.run := by rw [ackCheck_frame]
@[simp] theorem ackCheck_lastbit (r : Receiver) : r.ackCheck.lastbit = r.lastbit := by rw [ackCheck_frame]
@[simp] theorem ackCheck_lastsample (r : Receiver) : r.ackCheck.lastsample = r.lastsample := by rw [ackCheck_frame]

/-- A receiver with one more bit in its buffer (R43). -/
def Receiver.stored (b : Level) (r : Receiver) : Receiver :=
  { r with rxbuf := r.rxbuf.write r.rxcnt b, rxcnt := r.rxcnt + 1 }

/-- The receiver working set after an exit (R173, R174). -/
def Receiver.exited (r : Receiver) : Receiver := { r with rxs := .idle, ackcnt := 0 }

/-- The state after the error exit of the receiver (R174). -/
def failed (s : State) : State :=
  { s with fc := s.fc.onRxFailure, rx := s.rx.exited, readStatus := .frameError }

/-- The state after the success exit of the receiver (R170 step 5, R173). -/
def delivered (s : State) : State :=
  { s with
    rxf := rxAssemble s.rx.rxbuf s.io.fresh
    fc := s.fc.onRxSuccess
    rx := s.rx.exited
    readStatus := .messageOk
    io := { s.io with fresh := s.io.fresh + 8 } }

/-- A verdict is one of the causes of a receive error. -/
theorem verdict_ofReceiver (r : Receiver) (c : ErrorCause) (h : r.verdict = some c) : c.ofReceiver = true := by
  simp only [Receiver.verdict] at h
  split at h
  · cases h; rfl
  · split at h
    · cases h; rfl
    · split at h <;> cases h; rfl

theorem rxStep_idle_recessive (s : State) (h : s.rx.rxs = .idle) :
    rxStep recessive s = ((.noMessage, none), { s with rx := s.rx.countDown }) := by
  simp [rxStep, h, rxIdle]

theorem rxStep_idle_dominant (s : State) (h : s.rx.rxs = .idle) :
    rxStep dominant s =
      ((.noMessage, none),
        { s with rx := { s.rx with rxcnt := 0, lastbit := dominant, run := 1, ackcnt := 0, rxs := .sof } }) := by
  simp only [rxStep, countDown_rxs, h, rxIdle, Receiver.decInit, Bool.false_eq_true, if_false]
  simp

/-- Outside `Idle` a sample is taken as in `Frame` (R166, R167). -/
theorem rxStep_frame (smp : Level) (s : State) (h : s.rx.rxs ≠ .idle) :
    rxStep smp s = rxFrame smp { s with rx := { s.rx.countDown with rxs := .frame } } := by
  simp only [rxStep, countDown_rxs]
  cases hr : s.rx.rxs with
  | idle => exact absurd hr h
  | sof => rfl
  | frame =>
    have : { s.rx.countDown with rxs := .frame } = s.rx.countDown := by
      have h2 := countDown_rxs s.rx
      rw [hr] at h2
      rw [← h2]
    rw [this]

theorem rxFrame_stored (smp b : Level) (s : State) (h : (s.rx.decBit smp).1 = .append b)
    (hn : (s.rx.decBit smp).2.rxcnt ≠ s.par.rxbufBits) :
    rxFrame smp s = ((.noMessage, none), { s with rx := ((s.rx.decBit smp).2.stored b).ackCheck }) := by
  have e : s.rx.decBit smp = (.append b, (s.rx.decBit smp).2) := Prod.ext h rfl
  rw [rxFrame, e]
  simp only [rxAppend, hn, if_false]
  rfl

theorem rxFrame_overflow (smp b : Level) (s : State) (h : (s.rx.decBit smp).1 = .append b)
    (hn : (s.rx.decBit smp).2.rxcnt = s.par.rxbufBits) :
    rxFrame smp s = ((.frameError, some .overflow), failed { s with rx := (s.rx.decBit smp).2 }) := by
  have e : s.rx.decBit smp = (.append b, (s.rx.decBit smp).2) := Prod.ext h rfl
  rw [rxFrame, e]
  simp only [rxAppend, hn, if_true]
  rfl

theorem rxFrame_silent (smp : Level) (s : State) (h : (s.rx.decBit smp).1 = .drop ∨ (s.rx.decBit smp).1 = .hold) :
    rxFrame smp s = ((.noMessage, none), { s with rx := (s.rx.decBit smp).2 }) := by
  rcases h with h | h
  · have e : s.rx.decBit smp = (.drop, (s.rx.decBit smp).2) := Prod.ext h rfl
    rw [rxFrame, e]
  · have e : s.rx.decBit smp = (.hold, (s.rx.decBit smp).2) := Prod.ext h rfl
    rw [rxFrame, e]

theorem rxFrame_stuffError (smp : Level) (s : State) (h : (s.rx.decBit smp).1 = .stuffError) :
    rxFrame smp s = ((.frameError, some .stuffError), failed { s with rx := (s.rx.decBit smp).2 }) := by
  have e : s.rx.decBit smp = (.stuffError, (s.rx.decBit smp).2) := Prod.ext h rfl
  rw [rxFrame, e]
  rfl

theorem rxDecode_ok (s : State) (h : s.rx.verdict = none) :
    rxDecode s =
      (.ok (rxAssemble s.rx.rxbuf s.io.fresh),
        { s with rxf := rxAssemble s.rx.rxbuf s.io.fresh, io := { s.io with fresh := s.io.fresh + 8 } }) := by
  simp [rxDecode, h]

theorem rxDecode_err (s : State) (c : ErrorCause) (h : s.rx.verdict = some c) : rxDecode s = (.err c, s) := by
  simp [rxDecode, h]

theorem rxFrameEnd_bad (s : State) (c : ErrorCause) (hv : s.rx.verdict = some c) :
    rxFrameEnd s = ((.frameError, some c), failed s) := by
  simp only [rxFrameEnd, rxDecode_err s c hv, rxFail, raiseError_receiver _ c _ (verdict_ofReceiver _ c hv)]
  rfl

theorem rxFrameEnd_good (s : State) (hv : s.rx.verdict = none) : rxFrameEnd s = ((.messageOk, none), delivered s) := by
  simp only [rxFrameEnd, rxDecode_ok s hv]
  rfl

theorem rxFrame_bad (smp : Level) (s : State) (c : ErrorCause) (h : (s.rx.decBit smp).1 = .frameEnd)
    (hv : (s.rx.decBit smp).2.verdict = some c) :
    rxFrame smp s = ((.frameError, some c), failed { s with rx := (s.rx.decBit smp).2 }) := by
  have e : s.rx.decBit smp = (.frameEnd, (s.rx.decBit smp).2) := Prod.ext h rfl
  rw [rxFrame, e]
  exact rxFrameEnd_bad { s with rx := (s.rx.decBit smp).2 } c hv

theorem rxFrame_good (smp : Level) (s : State) (h : (s.rx.decBit smp).1 = .frameEnd)
    (hv : (s.rx.decBit smp).2.verdict = none) :
    rxFrame smp s = ((.messageOk, none), delivered { s with rx := (s.rx.decBit smp).2 }) := by
  have e : s.rx.decBit smp = (.frameEnd, (s.rx.decBit smp).2) := Prod.ext h rfl
  rw [rxFrame, e]
  exact rxFrameEnd_good { s with rx := (s.rx.decBit smp).2 } hv

/-- Everything a sample in `Frame` can do: it is passed over or stored, or the frame ends in an error or is delivered. -/
theorem rxFrame_cases (smp : Level) (s : State) :
    (∃ r, (r = (s.rx.decBit smp).2 ∨
          ∃ b, (s.rx.decBit smp).1 = .append b ∧ (s.rx.decBit smp).2.rxcnt ≠ s.par.rxbufBits ∧
            r = ((s.rx.decBit smp).2.stored b).ackCheck) ∧
        rxFrame smp s = ((.noMessage, none), { s with rx := r })) ∨
      (∃ c, rxFrame smp s = ((.frameError, some c), failed { s with rx := (s.rx.decBit smp).2 })) ∨
      rxFrame smp s = ((.messageOk, none), delivered { s with rx := (s.rx.decBit smp).2 }) := by
  cases he : (s.rx.decBit smp).1 with
  | append b =>
    by_cases hn : (s.rx.decBit smp).2.rxcnt = s.par.rxbufBits
    · exact .inr (.inl ⟨_, rxFrame_overflow smp b s he hn⟩)
    · exact .inl ⟨_, .inr ⟨b, rfl, hn, rfl⟩, rxFrame_stored smp b s he hn⟩
  | drop => exact .inl ⟨_, .inl rfl, rxFrame_silent smp s (.inl he)⟩
  | hold => exact .inl ⟨_, .inl rfl, rxFrame_silent smp s (.inr he)⟩
  | frameEnd =>
    cases hv : (s.rx.decBit smp).2.verdict with
    | none => exact .inr (.inr (rxFrame_good smp s he hv))
    | some c => exact .inr (.inl ⟨c, rxFrame_bad smp s c he hv⟩)
  | stuffError => exact .inr (.inl ⟨_, rxFrame_stuffError smp s he⟩)

/-- The node at the end of an accepted bit period, before its sample is fed to `RX_STEP`: the slot moved on, an acknowledge over. -/
def slotState (s : State) : State :=
  { s with
    rx := { s.rx with lastsample := s.rx.lastsample + s.cfg.bittime }
    pin := if s.rx.ackcnt = 1 then { txdir := .output, txlvl := recessive } else s.pin
    io := { s.io with other := s.io.other.tail, drove := s.io.drove ++ [s.drive] } }

/-- An accepted `READ` is `RX_STEP` on the sample of its slot, and the start of the next bit period (R162, R163, R172). -/
theorem rxAccept_eq (s : State) :
    rxAccept s = ((rxStep (sampleRx s) (slotState s)).1, ackDrive (rxStep (sampleRx s) (slotState s)).2) := by
  by_cases h : s.rx.ackcnt = 1
  · simp [rxAccept, ackRelease, State.ackDue, h, slotState, sampleRx, hold, driveRecessive, state_drive, State.otherLevel]
  · have h' : ¬ s.rx.ackcnt = 1#2 := h
    simp [rxAccept, ackRelease, State.ackDue, h', slotState, sampleRx, hold, state_drive, State.otherLevel]

/-- The scheduler as a comparison of numbers (R162). -/
theorem accepts_iff (now : BitVec 32) (s : State) :
    s.accepts now = true ↔ s.cfg.bittime.toNat ≤ (now - s.rx.lastsample).toNat := by
  simp [State.accepts, BitVec.ult]

theorem readOp_busOff (now : BitVec 32) (s : State) (h : s.fc.state = .busOff) :
    readOp now s = ((.noMessage, some .busOff), { s with readStatus := .noMessage }) := by
  simp [readOp, h, raiseError]

theorem readOp_early (now : BitVec 32) (s : State) (h : s.fc.state ≠ .busOff) (ha : s.accepts now = false) :
    readOp now s = ((.noMessage, none), { s with readStatus := .noMessage }) := by
  simp [readOp, h, ha]

theorem readOp_accepted (now : BitVec 32) (s : State) (h : s.fc.state ≠ .busOff) (ha : s.accepts now = true) :
    readOp now s =
      ((rxStep (sampleRx s) (slotState s)).1,
        { ackDrive (rxStep (sampleRx s) (slotState s)).2 with readStatus := (rxStep (sampleRx s) (slotState s)).1.1 }) := by
  simp [readOp, h, ha, rxAccept_eq]

@[simp] theorem decBit_rxs (b : Level) (r : Receiver) : (r.decBit b).2.rxs = r.rxs := by rw [decBit_frame]
@[simp] theorem decBit_rxbuf (b : Level) (r : Receiver) : (r.decBit b).2.rxbuf = r.rxbuf := by rw [decBit_frame]
@[simp] theorem decBit_rxcnt (b : Level) (r : Receiver) : (r.decBit b).2.rxcnt = r.rxcnt := by rw [decBit_frame]
@[simp] theorem decBit_lastsample (b : Level) (r : Receiver) : (r.decBit b).2.lastsample = r.lastsample := by
  rw [decBit_frame]
@[simp] theorem decBit_ackcnt (b : Level) (r : Receiver) : (r.decBit b).2.ackcnt = r.ackcnt := by rw [decBit_frame]

/-- What `RX_STEP` never touches (R164 to R174). -/
structure RxKept (s t : State) : Prop where
  txf        : t.txf = s.txf
  sendOk     : t.sendOk = s.sendOk
  cfg        : t.cfg = s.cfg
  tx         : t.tx = s.tx
  pin        : t.pin = s.pin
  par        : t.par = s.par
  host       : t.io.host = s.io.host
  other      : t.io.other = s.io.other
  drove      : t.io.drove = s.io.drove
  rsp        : t.io.rsp = s.io.rsp
  tec        : t.fc.tec = s.fc.tec
  lastsample : t.rx.lastsample = s.rx.lastsample

theorem rxFrame_kept (smp : Level) (s : State) : RxKept s (rxFrame smp s).2 := by
  obtain ⟨r, hr, h⟩ | ⟨c, h⟩ | h := rxFrame_cases smp s <;> rw [h]
  · refine ⟨rfl, rfl, rfl, rfl, rfl, rfl, rfl, rfl, rfl, rfl, rfl, ?_⟩
    rcases hr with rfl | ⟨b, -, -, rfl⟩ <;> simp [Receiver.stored]
  · exact ⟨rfl, rfl, rfl, rfl, rfl, rfl, rfl, rfl, rfl, rfl, by simp [failed], by simp [failed, Receiver.exited]⟩
  · exact ⟨rfl, rfl, rfl, rfl, rfl, rfl, rfl, rfl, rfl, rfl, by simp [delivered], by simp [delivered, Receiver.exited]⟩

theorem rxStep_kept (smp : Level) (s : State) : RxKept s (rxStep smp s).2 := by
  by_cases h : s.rx.rxs = .idle
  · cases smp
    · rw [rxStep_idle_dominant s h]; exact ⟨rfl, rfl, rfl, rfl, rfl, rfl, rfl, rfl, rfl, rfl, rfl, rfl⟩
    · rw [rxStep_idle_recessive s h]; exact ⟨rfl, rfl, rfl, rfl, rfl, rfl, rfl, rfl, rfl, rfl, rfl, by simp⟩
  · rw [rxStep_frame _ _ h]
    obtain ⟨a, b, c, d, e, f, g, h, i, j, k, l⟩ := rxFrame_kept smp { s with rx := { s.rx.countDown with rxs := .frame } }
    exact ⟨a, b, c, d, e, f, g, h, i, j, k, by rw [l]; simp⟩

/-- The run after `DEC_BIT` in a frame: back to 1, or one more, up to 6 recessive bits short of the frame end (R34 (c)). -/
theorem decBit_good (smp : Level) (r : Receiver) (cap : Nat) (hr : r.rxs = .frame) (h : r.Good cap) :
    ((r.decBit smp).2.run = 6 → (r.decBit smp).2.lastbit = recessive) ∧
      ((r.decBit smp).1 ≠ .frameEnd → 1 ≤ (r.decBit smp).2.run.toNat ∧ (r.decBit smp).2.run.toNat ≤ 6) := by
  have hne : r.rxs ≠ .idle := by rw [hr]; simp
  have h1 := h.frame_run_pos hne
  have h2 := h.frame_run_bound hne
  have h6 := h.run_six
  have e8 : (r.run + 1#3).toNat = r.run.toNat + 1 := by simp; omega
  have o6 : r.run + 1#3 = 6#3 → r.run.toNat = 5 := by
    intro h; have := congrArg BitVec.toNat h; rw [e8] at this; simp at this; omega
  have o7 : r.run + 1#3 ≠ 7#3 → r.run.toNat ≠ 6 := by
    intro h hc; apply h; apply BitVec.eq_of_toNat_eq; rw [e8, hc]; rfl
  simp only [Receiver.decBit]
  split
  · split
    · split
      · exact ⟨by simp, by simp⟩
      · exact ⟨h6, fun _ => ⟨h1, h2⟩⟩
    · split
      · exact ⟨h6, fun _ => ⟨h1, h2⟩⟩
      · have hl : r.lastbit = true := by cases smp <;> simp_all
        split
        · exact ⟨fun _ => hl, by simp⟩
        · rename_i c4
          refine ⟨fun _ => hl, fun _ => ?_⟩
          have := o7 c4
          show 1 ≤ (r.run + 1#3).toNat ∧ (r.run + 1#3).toNat ≤ 6
          omega
  · split
    · refine ⟨fun h => ?_, fun _ => ?_⟩
      · have := o6 h; omega
      · show 1 ≤ (r.run + 1#3).toNat ∧ (r.run + 1#3).toNat ≤ 6
        omega
    · exact ⟨by simp, by simp⟩

/-- The receiver between samples, its buffer in canonical form and within its capacity. -/
structure RxOk (cap : Nat) (r : Receiver) : Prop where
  good  : r.Good cap
  wf    : r.rxbuf.wf = true
  below : r.rxbuf.below cap = true

theorem exited_ok (cap : Nat) (r : Receiver) (h6 : r.run = 6 → r.lastbit = recessive) (hw : r.rxbuf.wf = true)
    (hc : r.rxbuf.below cap = true) : RxOk cap r.exited :=
  ⟨⟨fun _ => rfl, fun h => absurd rfl h, fun h => absurd rfl h, fun h => absurd rfl h, h6⟩, hw, hc⟩

/-- A bit stored short of the capacity keeps the receiver well formed. -/
theorem stored_ok (cap : Nat) (b : Level) (r : Receiver) (h : RxOk cap r) (hx : r.rxs = .frame) (hn : r.rxcnt < cap) :
    RxOk cap (r.stored b).ackCheck := by
  have hne : r.rxs ≠ .idle := by rw [hx]; simp
  refine ⟨⟨?_, ?_, ?_, ?_, ?_⟩, ?_, ?_⟩
  · intro hc; simp only [ackCheck_rxs, Receiver.stored, hx] at hc; cases hc
  · intro _; simpa [Receiver.stored] using h.good.frame_run_pos hne
  · intro _; simpa [Receiver.stored] using h.good.frame_run_bound hne
  · intro _
    simp only [ackCheck_rxcnt, Receiver.stored]
    exact hn
  · simpa [Receiver.stored] using h.good.run_six
  · simp only [ackCheck_rxbuf, Receiver.stored]; exact write_wf _ _ _ h.wf
  · simp only [ackCheck_rxbuf, Receiver.stored]; exact write_below _ _ _ _ h.below hn

/-- `RX_STEP` keeps the receiver and the counters well formed (R34, R205). -/
theorem rxStep_ok (smp : Level) (s : State) (h : RxOk s.par.rxbufBits s.rx) (hfc : s.fc.Good) :
    RxOk s.par.rxbufBits (rxStep smp s).2.rx ∧ (rxStep smp s).2.fc.Good := by
  by_cases hi : s.rx.rxs = .idle
  · cases smp
    · rw [rxStep_idle_dominant s hi]
      exact ⟨⟨⟨by simp, by simp, by simp, by simp, by simp⟩, h.wf, h.below⟩, hfc⟩
    · rw [rxStep_idle_recessive s hi]
      refine ⟨⟨⟨?_, ?_, ?_, ?_, ?_⟩, by simpa using h.wf, by simpa using h.below⟩, hfc⟩
      · intro _; have := h.good.idle_has_no_ack hi; simp [countDown_ackcnt, this]
      · intro hc; simp [hi] at hc
      · intro hc; simp [hi] at hc
      · intro hc; simp [hi] at hc
      · simpa using h.good.run_six
  · rw [rxStep_frame _ _ hi]
    have hg : ({ s.rx.countDown with rxs := .frame } : Receiver).Good s.par.rxbufBits := by
      refine ⟨by simp, ?_, ?_, ?_, ?_⟩
      · intro _; simpa using h.good.frame_run_pos hi
      · intro _; simpa using h.good.frame_run_bound hi
      · intro _; simpa using h.good.frame_count hi
      · simpa using h.good.run_six
    have hcnt : ({ s.rx.countDown with rxs := .frame } : Receiver).rxcnt ≤ s.par.rxbufBits := by
      simpa using h.good.frame_count hi
    have hw : ({ s.rx.countDown with rxs := .frame } : Receiver).rxbuf.wf = true := by simpa using h.wf
    have hb : ({ s.rx.countDown with rxs := .frame } : Receiver).rxbuf.below s.par.rxbufBits = true := by
      simpa using h.below
    have hx : ({ s.rx.countDown with rxs := .frame } : Receiver).rxs = .frame := rfl
    generalize ({ s.rx.countDown with rxs := .frame } : Receiver) = r at *
    have hdec := decBit_good smp r _ hx hg
    have hex : RxOk s.par.rxbufBits (r.decBit smp).2.exited := exited_ok _ _ hdec.1 (by rw [decBit_rxbuf]; exact hw) (by rw [decBit_rxbuf]; exact hb)
    have hmid : (r.decBit smp).1 ≠ .frameEnd → RxOk s.par.rxbufBits (r.decBit smp).2 := by
      intro hfe
      have hrun := hdec.2 hfe
      refine ⟨⟨?_, fun _ => hrun.1, fun _ => hrun.2, ?_, hdec.1⟩, ?_, ?_⟩
      · intro hc; rw [decBit_rxs, hx] at hc; cases hc
      · intro _; rw [decBit_rxcnt]; exact hcnt
      · rw [decBit_rxbuf]; exact hw
      · rw [decBit_rxbuf]; exact hb
    by_cases hfe : (r.decBit smp).1 = .frameEnd
    · cases hv : (r.decBit smp).2.verdict with
      | none => rw [rxFrame_good smp { s with rx := r } hfe hv]; exact ⟨hex, onRxSuccess_good _ hfc⟩
      | some c => rw [rxFrame_bad smp { s with rx := r } c hfe hv]; exact ⟨hex, onRxFailure_good _ hfc⟩
    · obtain ⟨q, hq, h'⟩ | ⟨c, h'⟩ | h' := rxFrame_cases smp { s with rx := r } <;> rw [h']
      · refine ⟨?_, hfc⟩
        rcases hq with rfl | ⟨b, -, hne, rfl⟩
        · exact hmid hfe
        · simp only [decBit_rxcnt] at hne
          have hne : r.rxcnt ≠ s.par.rxbufBits := hne
          exact stored_ok _ b _ (hmid hfe) (by rw [decBit_rxs]; exact hx) (by rw [decBit_rxcnt]; exact Nat.lt_of_le_of_ne hcnt hne)
      · exact ⟨hex, onRxFailure_good _ hfc⟩
      · exact ⟨hex, onRxSuccess_good _ hfc⟩

end Sys2Proof.Machine
end

