-- ==== Sys2Proof/Laws/Reception.lean ====
section
/-! SUPPORT. One `READ` per bit period over a frame (44_receiver.md R175, R176): what each period does to a node that is receiving, from
the start-of-frame bit to the idle line. The period's lemmas speak of the bits in the buffer as a list. -/

namespace Sys2Proof.Machine

/-! ### One bit period -/

/-- One `READ` of an active node: it is always at the first clock value its scheduler accepts. -/
theorem readPeriod_active (l : Level) (s : State) (hb : s.fc.state ≠ .busOff) :
    readPeriod l s =
      ((rxStep (sampleRx (presentLevel l s)) (slotState (presentLevel l s))).1,
        { ackDrive (rxStep (sampleRx (presentLevel l s)) (slotState (presentLevel l s))).2 with
          readStatus := (rxStep (sampleRx (presentLevel l s)) (slotState (presentLevel l s))).1.1 }) := by
  rw [readPeriod, if_neg hb]
  exact readOp_accepted _ (presentLevel l s) hb ((accepts_iff _ _).mpr (by simp))

/-- In Bus-Off the `READ` leaves only its status, and the bit period passes. -/
theorem readPeriod_busOff (l : Level) (s : State) (hb : s.fc.state = .busOff) :
    readPeriod l s =
      ((.noMessage, some .busOff), restPeriod (presentLevel l { s with readStatus := .noMessage })) := by
  rw [readPeriod, if_pos hb, readOp_busOff _ _ hb]

/-- What a node in Bus-Off keeps while bit periods pass. -/
structure MuteKept (s t : State) : Prop where
  fc    : t.fc = s.fc
  rx    : t.rx = s.rx
  rxf   : t.rxf = s.rxf
  cfg   : t.cfg = s.cfg
  host  : t.io.host = s.io.host
  other : t.io.other = s.io.other
  pin   : s.rx.ackcnt ≠ 1 → t.pin = s.pin
  drive : s.drive = recessive → t.drive = recessive ∧ ∃ m, t.io.drove = s.io.drove ++ List.replicate m recessive

/-- In Bus-Off a whole frame passes by a configured node. -/
theorem readPeriods_busOff (ls : List Level) (s : State) (hb : s.fc.state = .busOff) (hc : s.cfg.configured = true) :
    MuteKept s (readPeriods ls s).2 := by
  induction ls generalizing s with
  | nil => exact ⟨rfl, rfl, rfl, rfl, rfl, rfl, fun _ => rfl, fun h => ⟨h, 0, by simp [readPeriods]⟩⟩
  | cons l ls ih =>
    obtain ⟨a, b, c, d, e, f, g, k⟩ :=
      ih (restPeriod (presentLevel l { s with readStatus := .noMessage })) (by simpa using hb) (by simpa using hc)
    have hp := restPeriod_configured (presentLevel l { s with readStatus := .noMessage }) hc
    have hr : (readPeriods (l :: ls) s).2 =
        (readPeriods ls (restPeriod (presentLevel l { s with readStatus := .noMessage }))).2 := by
      simp only [readPeriods, readPeriod_busOff l s hb]
    rw [hr]
    refine ⟨by simpa using a, by simpa using b, by simpa using c, by simpa using d, by simpa using e, by simpa using f, ?_, ?_⟩
    · intro h
      rw [g (by simpa using h), hp]
      exact if_neg h
    · intro h
      have h1 : (restPeriod (presentLevel l { s with readStatus := .noMessage })).drive = recessive := by
        rw [hp, state_drive]
        show (if s.rx.ackcnt = 1 then _ else s.pin).drive = recessive
        split
        · rfl
        · exact h
      obtain ⟨k1, m, k2⟩ := k h1
      refine ⟨k1, m + 1, ?_⟩
      rw [k2, hp]
      show s.io.drove ++ [s.drive] ++ _ = _
      rw [h, List.append_assoc, List.replicate_succ]; rfl

theorem readPeriods_cons {l : Level} {ls : List Level} {s s1 s2 : State} {r : RxResult} {rs : List RxResult}
    (h : readPeriod l s = (r, s1)) (h2 : readPeriods ls s1 = (rs, s2)) : readPeriods (l :: ls) s = (r :: rs, s2) := by
  simp only [readPeriods, h, h2]

theorem readPeriods_append {a b : List Level} {s s1 s2 : State} {r rs : List RxResult}
    (h : readPeriods a s = (r, s1)) (h2 : readPeriods b s1 = (rs, s2)) :
    readPeriods (a ++ b) s = (r ++ rs, s2) := by
  induction a generalizing s r with
  | nil => cases h; exact h2
  | cons x a ih =>
    simp only [readPeriods, Prod.mk.injEq] at h
    obtain ⟨rfl, h⟩ := h
    exact readPeriods_cons rfl (ih (Prod.ext rfl h))

/-- What a configured node with a buffer of at least 128 bits keeps while it receives. -/
structure NodeKept (s0 s : State) : Prop where
  txf    : s.txf = s0.txf
  sendOk : s.sendOk = s0.sendOk
  cfg    : s.cfg = s0.cfg
  tx     : s.tx = s0.tx
  par    : s.par = s0.par
  host   : s.io.host = s0.io.host
  other  : s.io.other = s0.io.other
  conf   : s0.cfg.configured = true
  cap    : 128 ≤ s0.par.rxbufBits

/-- The latches of a receiving node between two `READ`s: recessive but for an acknowledge (R172). -/
def linePin (r : Receiver) : LineDriver := { txdir := .output, txlvl := if r.ackcnt = 1 then dominant else recessive }

/-- The level sampled in a period in which the others drive `l`. -/
def smpOf (l : Level) (s : State) : Level := (if s.rx.ackcnt = 1 then dominant else recessive) && l

/-- The level the node drives in a period. -/
def drvOf (s : State) : Level := if s.rx.ackcnt = 1 then dominant else recessive

theorem smpOf_silent (l : Level) (s : State) (h : s.rx.ackcnt ≠ 1) : smpOf l s = l := by
  have h : ¬ s.rx.ackcnt = 1#2 := h
  simp [smpOf, h]

theorem drvOf_silent (s : State) (h : s.rx.ackcnt ≠ 1) : drvOf s = recessive := by
  have h : ¬ s.rx.ackcnt = 1#2 := h
  simp [drvOf, h]

theorem linePin_silent (r : Receiver) (h : r.ackcnt ≠ 1) : linePin r = { txdir := .output, txlvl := recessive } := by
  have h : ¬ r.ackcnt = 1#2 := h
  simp [linePin, h]

theorem sampleRx_line (l : Level) (s : State) (hp : s.pin = linePin s.rx) : sampleRx (presentLevel l s) = smpOf l s := by
  simp only [sampleRx, State.otherLevel, state_drive, presentLevel_pin, hp, linePin, drive_output, presentLevel_other,
    List.headD_cons, smpOf]

theorem slot_drove (l : Level) (s : State) (hp : s.pin = linePin s.rx) :
    (slotState (presentLevel l s)).io.drove = s.io.drove ++ [drvOf s] := by
  simp only [slotState, state_drive, presentLevel_pin, hp, linePin, drive_output, presentLevel_drove, drvOf]

theorem slot_pin (l : Level) (s : State) (hp : s.pin = linePin s.rx) :
    (slotState (presentLevel l s)).pin = { txdir := .output, txlvl := recessive } := by
  simp only [slotState, presentLevel_rx, presentLevel_pin, hp]
  by_cases h : s.rx.ackcnt = 1
  · rw [if_pos h]
  · rw [if_neg h, linePin_silent _ h]

theorem slot_kept (s0 s : State) (l : Level) (h : NodeKept s0 s) : NodeKept s0 (slotState (presentLevel l s)) :=
  ⟨h.txf, h.sendOk, h.cfg, h.tx, h.par, h.host, h.other, h.conf, h.cap⟩

/-- Another receiver, other counters, another frame and other free values do not matter. -/
theorem NodeKept.congr {s0 s : State} (h : NodeKept s0 s) (t : State) (h1 : t.txf = s.txf) (h2 : t.sendOk = s.sendOk)
    (h3 : t.cfg = s.cfg) (h4 : t.tx = s.tx) (h5 : t.par = s.par) (h6 : t.io.host = s.io.host)
    (h7 : t.io.other = s.io.other) : NodeKept s0 t :=
  ⟨h1.trans h.txf, h2.trans h.sendOk, h3.trans h.cfg, h4.trans h.tx, h5.trans h.par, h6.trans h.host, h7.trans h.other,
    h.conf, h.cap⟩

/-- The start of the next bit period touches the latches alone. -/
theorem NodeKept.settle {s0 t : State} (h : NodeKept s0 t) (st : ReadStatus) :
    NodeKept s0 { ackDrive t with readStatus := st } :=
  h.congr _ (by simp) (by simp) (by simp) (by simp) (by simp) (by simp) (by simp)

theorem linePin_settle (t : State) (hp : t.pin = { txdir := .output, txlvl := recessive }) (st : ReadStatus) :
    ({ ackDrive t with readStatus := st } : State).pin = linePin ({ ackDrive t with readStatus := st } : State).rx := by
  show (ackDrive t).pin = linePin (ackDrive t).rx
  rw [ackDrive_pin, ackDrive_rx, hp, linePin]
  split <;> rfl

/-! ### Idle -/

/-- The node is idle on an idle line, as it was before a frame but for what the frame left in it. -/
structure IdleNode (s0 s : State) : Prop where
  kept : NodeKept s0 s
  pin  : s.pin = { txdir := .output, txlvl := recessive }
  idle : s.rx.rxs = .idle
  ack  : s.rx.ackcnt = 0
  wf   : s.rx.rxbuf.wf = true

theorem IdleNode.silent {s0 s : State} (h : IdleNode s0 s) : s.rx.ackcnt ≠ 1 := by rw [h.ack]; decide

theorem IdleNode.line {s0 s : State} (h : IdleNode s0 s) : s.pin = linePin s.rx := by
  rw [linePin_silent _ h.silent]; exact h.pin

/-- No acknowledge is due on an idle node. -/
theorem IdleNode.settle {s0 t : State} (h : IdleNode s0 t) (st : ReadStatus) :
    IdleNode s0 { ackDrive t with readStatus := st } where
  kept := h.kept.settle st
  pin := by rw [linePin_settle t h.pin st]; exact linePin_silent _ (by simpa using h.silent)
  idle := by simpa using h.idle
  ack := by simpa using h.ack
  wf := by simpa using h.wf

/-- The results of recessive periods of an idle node with counters `c`. -/
def idleResults (c : FaultConf) (m : Nat) : List RxResult :=
  List.replicate m (.noMessage, if c.state = .busOff then some .busOff else none)

theorem idle_period (s0 s : State) (h : IdleNode s0 s) :
    ∃ s', readPeriod recessive s = ((.noMessage, if s.fc.state = .busOff then some .busOff else none), s') ∧
      IdleNode s0 s' ∧ s'.fc = s.fc ∧ s'.rxf = s.rxf ∧ s'.io.drove = s.io.drove ++ [recessive] := by
  have hne : ¬ s.rx.ackcnt = 1 := h.silent
  by_cases hb : s.fc.state = .busOff
  · rw [readPeriod_busOff _ _ hb, if_pos hb,
      restPeriod_configured _ (by show s.cfg.configured = true; rw [h.kept.cfg]; exact h.kept.conf)]
    refine ⟨_, rfl, ⟨h.kept.congr _ rfl rfl rfl rfl rfl rfl rfl, ?_, h.idle, h.ack, h.wf⟩, rfl, rfl, ?_⟩
    · exact (if_neg hne).trans h.pin
    · show s.io.drove ++ [s.drive] = _
      rw [state_drive, h.pin, drive_output]
  · rw [readPeriod_active _ _ hb, sampleRx_line _ _ h.line, smpOf_silent _ _ h.silent,
      rxStep_idle_recessive _ (by exact h.idle), if_neg hb]
    refine ⟨_, rfl, IdleNode.settle ⟨by exact (slot_kept s0 s recessive h.kept).congr _ rfl rfl rfl rfl rfl rfl rfl,
      by exact slot_pin _ _ h.line, ?_, ?_, ?_⟩ _, ?_, ?_, ?_⟩
    · simpa [slotState] using h.idle
    · simp only [countDown_ackcnt]
      have : (slotState (presentLevel recessive s)).rx.ackcnt = 0 := h.ack
      rw [if_pos this]
    · simpa [slotState] using h.wf
    · rw [ackDrive_fc]; rfl
    · rw [ackDrive_rxf]; rfl
    · rw [ackDrive_io]
      show (slotState (presentLevel recessive s)).io.drove = _
      rw [slot_drove _ _ h.line, drvOf_silent s h.silent]

theorem idle_periods (s0 : State) (m : Nat) (s : State) (h : IdleNode s0 s) :
    ∃ s', readPeriods (List.replicate m recessive) s = (idleResults s.fc m, s') ∧ IdleNode s0 s' ∧ s'.fc = s.fc ∧
      s'.rxf = s.rxf ∧ s'.io.drove = s.io.drove ++ List.replicate m recessive := by
  induction m generalizing s with
  | zero => exact ⟨s, rfl, h, rfl, rfl, by simp⟩
  | succ m ih =>
    obtain ⟨s1, h1, r1, f1, x1, d1⟩ := idle_period s0 s h
    obtain ⟨s2, h2, r2, f2, x2, d2⟩ := ih s1 r1
    rw [f1] at h2
    refine ⟨s2, readPeriods_cons h1 h2, r2, f2.trans f1, x2.trans x1, ?_⟩
    rw [d2, d1]
    simp [List.replicate_succ]

/-! ### In a frame -/

/-- The node is in a frame: `bits` are in its buffer, `drv` is what it has driven since `s0`, its latches are `pin`. -/
structure InFrame (pin : LineDriver) (s0 s : State) (bits drv : List Level) : Prop where
  kept   : NodeKept s0 s
  line   : s.pin = pin
  fc     : s.fc = s0.fc
  rxf    : s.rxf = s0.rxf
  drove  : s.io.drove = s0.io.drove ++ drv
  active : s.rx.rxs ≠ .idle
  wf     : s.rx.rxbuf.wf = true
  cnt    : s.rx.rxcnt = bits.length
  buf    : ∀ k, (h : k < bits.length) → s.rx.rxbuf.read k = bits[k]

/-- The node between two `READ`s in a frame. -/
abbrev Receiving (s0 s : State) (bits drv : List Level) : Prop := InFrame (linePin s.rx) s0 s bits drv

/-- From the end of a period, with the line recessive, to the start of the next. -/
theorem InFrame.settle {s0 t : State} {bits drv : List Level}
    (h : InFrame { txdir := .output, txlvl := recessive } s0 t bits drv) (st : ReadStatus) :
    Receiving s0 { ackDrive t with readStatus := st } bits drv where
  kept := h.kept.settle st
  line := linePin_settle t h.line st
  fc := by simpa using h.fc
  rxf := by simpa using h.rxf
  drove := by simpa using h.drove
  active := by simpa using h.active
  wf := by simpa using h.wf
  cnt := by simpa using h.cnt
  buf := by simpa using h.buf

theorem range_eq_subBits (m : Memory) (bits : List Level) (i n : Nat)
    (hb : ∀ k, (h : k < bits.length) → m.read k = bits[k]) (hn : i + n ≤ bits.length) :
    m.range i n = subBits bits i n := by
  apply List.ext_getElem
  · simp [subBits]; omega
  · intro k h1 h2
    rw [range_getElem]
    simp only [range_length] at h1
    rw [hb _ (by omega)]
    simp [subBits]

theorem field_eq_fieldOf (m : Memory) (bits : List Level) (i n : Nat)
    (hb : ∀ k, (h : k < bits.length) → m.read k = bits[k]) (hn : i + n ≤ bits.length) :
    m.field i n = fieldOf bits i n n := by
  rw [Memory.field, range_eq_subBits m bits i n hb hn]; rfl

/-- The payload length a bit sequence announces (R64). -/
def bitsLength (bits : List Level) : Nat := min (fieldOf bits 14 4 4).toNat 8

/-- Its CRC field is the CRC of the bits before it (R126). -/
def BitsCrc (bits : List Level) : Prop :=
  crcOf (subBits bits 0 (18 + 8 * bitsLength bits)) = fieldOf bits (18 + 8 * bitsLength bits) 15 15

/-- `ACK_CHECK` arms the acknowledge on it (R171). -/
def Armed (bits : List Level) : Prop := 33 ≤ bits.length ∧ bits.length = 33 + 8 * bitsLength bits ∧ BitsCrc bits

theorem rxLength_eq (m : Memory) (bits : List Level) (hb : ∀ k, (h : k < bits.length) → m.read k = bits[k])
    (hn : 18 ≤ bits.length) : rxLength m = bitsLength bits := by
  have : rxLength m = min (m.field 14 4).toNat 8 := rfl
  rw [this, field_eq_fieldOf m bits 14 4 hb (by omega)]; rfl

theorem rxCrcMatches_iff (m : Memory) (bits : List Level) (hb : ∀ k, (h : k < bits.length) → m.read k = bits[k])
    (hn : 33 + 8 * bitsLength bits ≤ bits.length) : rxCrcMatches m = true ↔ BitsCrc bits := by
  have h1 := rxLength_eq m bits hb (by omega)
  simp only [rxCrcMatches, h1, decide_eq_true_eq, BitsCrc, nData]
  rw [range_eq_subBits m bits 0 _ hb (by omega), field_eq_fieldOf m bits _ 15 hb (by omega)]

open Classical in
theorem ackCheck_eq (r : Receiver) (bits : List Level) (hc : r.rxcnt = bits.length)
    (hb : ∀ k, (h : k < bits.length) → r.rxbuf.read k = bits[k]) :
    r.ackCheck.ackcnt = if Armed bits then (if r.run = 5 then 3 else 2) else r.ackcnt := by
  simp only [Receiver.ackCheck]
  by_cases h : Armed bits
  · rw [if_pos h, if_pos]
    refine ⟨by rw [hc]; exact h.1, ?_, ?_⟩
    · rw [rxLength_eq _ bits hb (by have := h.1; omega), hc]; exact h.2.1
    · exact (rxCrcMatches_iff _ bits hb (by rw [← h.2.1])).mpr h.2.2
  · rw [if_neg h, if_neg]
    rintro ⟨h1, h2, h3⟩
    apply h
    rw [rxLength_eq _ bits hb (by omega), hc] at h2
    exact ⟨by omega, h2, (rxCrcMatches_iff _ bits hb (by simp only [nBits] at h2; omega)).mp h3⟩

/-- The receiver as it stands when the sample of a period is decoded. -/
def pre (s : State) : Receiver :=
  { s.rx.countDown with lastsample := s.rx.lastsample + s.cfg.bittime, rxs := .frame }

theorem pre_run (s : State) : (pre s).run = s.rx.run := by simp [pre]
theorem pre_lastbit (s : State) : (pre s).lastbit = s.rx.lastbit := by simp [pre]
theorem pre_rxcnt (s : State) : (pre s).rxcnt = s.rx.rxcnt := by simp [pre]
theorem pre_rxbuf (s : State) : (pre s).rxbuf = s.rx.rxbuf := by simp [pre]

/-- A period in a frame is the decoder on its sample. -/
theorem receiving_period (s0 s : State) (bits drv : List Level) (l : Level) (h : Receiving s0 s bits drv)
    (hb : s0.fc.state ≠ .busOff) :
    readPeriod l s =
      ((rxFrame (smpOf l s) { slotState (presentLevel l s) with rx := pre s }).1,
        { ackDrive (rxFrame (smpOf l s) { slotState (presentLevel l s) with rx := pre s }).2 with
          readStatus := (rxFrame (smpOf l s) { slotState (presentLevel l s) with rx := pre s }).1.1 }) := by
  have hp : { (slotState (presentLevel l s)).rx.countDown with rxs := .frame } = pre s := by
    simp only [countDown_eq, pre]; rfl
  rw [readPeriod_active l s (by rw [h.fc]; exact hb), sampleRx_line l s h.line, rxStep_frame _ _ (by exact h.active), hp]

/-- A period whose sample the decoder passes over. -/
theorem receiving_silent (s0 s : State) (bits drv : List Level) (l : Level) (h : Receiving s0 s bits drv)
    (hb : s0.fc.state ≠ .busOff)
    (he : ((pre s).decBit (smpOf l s)).1 = .drop ∨ ((pre s).decBit (smpOf l s)).1 = .hold) :
    ∃ s', readPeriod l s = ((.noMessage, none), s') ∧ Receiving s0 s' bits (drv ++ [drvOf s]) ∧
      s'.rx.run = ((pre s).decBit (smpOf l s)).2.run ∧ s'.rx.lastbit = ((pre s).decBit (smpOf l s)).2.lastbit ∧
      s'.rx.ackcnt = s.rx.countDown.ackcnt := by
  rw [receiving_period s0 s bits drv l h hb, rxFrame_silent _ _ he]
  refine ⟨_, rfl, InFrame.settle ⟨by exact (slot_kept s0 s l h.kept).congr _ rfl rfl rfl rfl rfl rfl rfl, by exact slot_pin l s h.line, by exact h.fc,
    by exact h.rxf, ?_, ?_, ?_, ?_, ?_⟩ _, ?_, ?_, ?_⟩
  · show (slotState (presentLevel l s)).io.drove = _
    rw [slot_drove l s h.line, h.drove, List.append_assoc]
  · show ((pre s).decBit _).2.rxs ≠ _; rw [decBit_rxs]; simp [pre]
  · show ((pre s).decBit _).2.rxbuf.wf = true; rw [decBit_rxbuf, pre_rxbuf]; exact h.wf
  · show ((pre s).decBit _).2.rxcnt = _; rw [decBit_rxcnt, pre_rxcnt]; exact h.cnt
  · intro k hk
    show ((pre s).decBit _).2.rxbuf.read k = _
    rw [decBit_rxbuf, pre_rxbuf]; exact h.buf k hk
  · rw [ackDrive_rx]
  · rw [ackDrive_rx]
  · rw [ackDrive_rx]
    show ((pre s).decBit _).2.ackcnt = _; rw [decBit_ackcnt]; rfl

open Classical in
/-- A period whose sample is appended. -/
theorem receiving_append (s0 s : State) (bits drv : List Level) (l b : Level) (h : Receiving s0 s bits drv)
    (hb : s0.fc.state ≠ .busOff) (he : ((pre s).decBit (smpOf l s)).1 = .append b) (hl : bits.length < 128) :
    ∃ s', readPeriod l s = ((.noMessage, none), s') ∧ Receiving s0 s' (bits ++ [b]) (drv ++ [drvOf s]) ∧
      s'.rx.run = ((pre s).decBit (smpOf l s)).2.run ∧ s'.rx.lastbit = ((pre s).decBit (smpOf l s)).2.lastbit ∧
      s'.rx.ackcnt = if Armed (bits ++ [b]) then (if s'.rx.run = 5 then 3 else 2) else s.rx.countDown.ackcnt := by
  have hcnt : ((pre s).decBit (smpOf l s)).2.rxcnt = s.rx.rxcnt := by rw [decBit_rxcnt, pre_rxcnt]
  have hbuf : ((pre s).decBit (smpOf l s)).2.rxbuf = s.rx.rxbuf := by rw [decBit_rxbuf, pre_rxbuf]
  have hrxs : ((pre s).decBit (smpOf l s)).2.rxs = .frame := by rw [decBit_rxs]; rfl
  have hack : ((pre s).decBit (smpOf l s)).2.ackcnt = s.rx.countDown.ackcnt := by rw [decBit_ackcnt]; rfl
  have hc := h.cnt
  rw [receiving_period s0 s bits drv l h hb,
    rxFrame_stored _ b _ he (by
      show ((pre s).decBit (smpOf l s)).2.rxcnt ≠ s.par.rxbufBits
      have := h.kept.cap
      rw [hcnt, hc, h.kept.par]; omega)]
  have hst_cnt : (((pre s).decBit (smpOf l s)).2.stored b).rxcnt = (bits ++ [b]).length := by
    simp only [Receiver.stored, hcnt, hc, List.length_append, List.length_singleton]
  have hst_buf : ∀ k, (hk : k < (bits ++ [b]).length) →
      (((pre s).decBit (smpOf l s)).2.stored b).rxbuf.read k = (bits ++ [b])[k] := by
    intro k hk
    simp only [Receiver.stored, hcnt, hbuf, hc]
    by_cases hkl : k = bits.length
    · subst hkl; rw [read_write_same _ _ _ 0 h.wf]; simp
    · have : k < bits.length := by simp at hk; omega
      rw [read_write_other _ _ _ _ hkl, h.buf k this, List.getElem_append_left this]
  refine ⟨_, rfl, InFrame.settle ⟨by exact (slot_kept s0 s l h.kept).congr _ rfl rfl rfl rfl rfl rfl rfl, by exact slot_pin l s h.line, by exact h.fc,
    by exact h.rxf, ?_, ?_, ?_, ?_, ?_⟩ _, ?_, ?_, ?_⟩
  · show (slotState (presentLevel l s)).io.drove = _
    rw [slot_drove l s h.line, h.drove, List.append_assoc]
  · simp only [ackCheck_rxs, Receiver.stored, hrxs]; simp
  · simp only [ackCheck_rxbuf, Receiver.stored, hbuf]; exact write_wf _ _ _ h.wf
  · simp only [ackCheck_rxcnt]; exact hst_cnt
  · intro k hk; simp only [ackCheck_rxbuf]; exact hst_buf k hk
  · simp only [ackDrive_rx, ackCheck_run]; rfl
  · simp only [ackDrive_rx, ackCheck_lastbit]; rfl
  · simp only [ackDrive_rx, ackCheck_run]
    rw [ackCheck_eq _ _ hst_cnt hst_buf]
    simp only [Receiver.stored, hack]

/-! ### The stuffed region -/

/-- The receiver's run is the encoder's, as it is between two logical bits (R109). -/
def InStep (s : State) (e : Enc) : Prop := s.rx.lastbit = e.1 ∧ s.rx.run = e.2

/-- One logical bit, with the stuff bit the encoder sends after it. -/
theorem receiving_bit (s0 s : State) (bits drv : List Level) (b : Level) (e : Enc) (h : Receiving s0 s bits drv)
    (hb : s0.fc.state ≠ .busOff) (hok : EncOk e) (hs : InStep s e) (ha : s.rx.ackcnt = 0) (hl : bits.length < 128) :
    ∃ s', readPeriods (encBit b e).1 s = (List.replicate (encBit b e).1.length (.noMessage, none), s') ∧
      Receiving s0 s' (bits ++ [b]) (drv ++ List.replicate (encBit b e).1.length recessive) ∧
      InStep s' (encBit b e).2 ∧
      (Armed (bits ++ [b]) → s'.rx.ackcnt = 2) ∧ (¬ Armed (bits ++ [b]) → s'.rx.ackcnt = 0) := by
  obtain ⟨hl1, hr1⟩ := hs
  have hlt : (pre s).run.toNat < 5 := by rw [pre_run, hr1]; have := hok.2; omega
  have hne : s.rx.ackcnt ≠ 1 := by rw [ha]; decide
  have hcd : s.rx.countDown.ackcnt = 0 := by rw [countDown_ackcnt, if_pos ha]
  have hd := decBit_append b (pre s) hlt
  rw [pre_lastbit, pre_run] at hd
  obtain ⟨s1, h1, m1, r1, l1, a1⟩ := receiving_append s0 s bits drv b b h hb (by rw [smpOf_silent _ _ hne, hd]) hl
  rw [smpOf_silent _ _ hne, hd] at r1 l1
  rw [drvOf_silent _ hne] at m1
  rw [hcd] at a1
  simp only at r1 l1
  obtain ⟨hbe, hn, he⟩ | ⟨hbe, hn, he⟩ | ⟨hbe, he⟩ := encBit_cases b e hok <;> rw [he]
  · have hbl : b = s.rx.lastbit := hbe.trans hl1.symm
    rw [if_pos hbl] at r1 l1
    simp only at r1 l1
    have hr5 : s1.rx.run ≠ 5 := by
      rw [r1, hr1]; intro hc; have := congrArg BitVec.toNat hc; simp at this; omega
    refine ⟨s1, readPeriods_cons h1 rfl, m1, ⟨by rw [l1, hbl], by rw [r1, hr1]⟩, ?_, ?_⟩
    · intro h; rw [a1, if_pos h, if_neg hr5]
    · intro h; rw [a1, if_neg h]
  · have hbl : b = s.rx.lastbit := hbe.trans hl1.symm
    rw [if_pos hbl] at r1 l1
    simp only at r1 l1
    have hr5 : s1.rx.run = 5 := by apply BitVec.eq_of_toNat_eq; rw [r1, hr1]; simp [hn]
    rw [if_pos hr5] at a1
    have hne1 : s1.rx.ackcnt ≠ 1 := by rw [a1]; split <;> decide
    have hd2 := decBit_drop (!b) (pre s1) (by rw [pre_run]; exact hr5) (by rw [pre_lastbit, l1, ← hbl]; simp)
    obtain ⟨s2, h2, m2, r2, l2, a2⟩ :=
      receiving_silent s0 s1 _ _ (!b) m1 hb (.inl (by rw [smpOf_silent _ _ hne1, hd2]))
    rw [smpOf_silent _ _ hne1, hd2] at r2 l2
    refine ⟨s2, readPeriods_cons h1 (readPeriods_cons h2 rfl), ?_, ⟨l2, r2⟩, ?_, ?_⟩
    · rw [drvOf_silent _ hne1] at m2; simpa using m2
    · intro h; rw [a2, countDown_ackcnt, a1, if_pos h]; decide
    · intro h; rw [a2, countDown_ackcnt, a1, if_neg h]; decide
  · have hbl : b ≠ s.rx.lastbit := by rw [hl1]; exact hbe
    rw [if_neg hbl] at r1 l1
    simp only at r1 l1
    have hr5 : s1.rx.run ≠ 5 := by rw [r1]; decide
    refine ⟨s1, readPeriods_cons h1 rfl, m1, ⟨l1, r1⟩, ?_, ?_⟩
    · intro h; rw [a1, if_pos h, if_neg hr5]
    · intro h; rw [a1, if_neg h]

/-- Logical bits on none of which the acknowledge is armed. -/
theorem receiving_bits (bs : List Level) (s0 s : State) (bits drv : List Level) (e : Enc) (h : Receiving s0 s bits drv)
    (hb : s0.fc.state ≠ .busOff) (hok : EncOk e) (hs : InStep s e) (ha : s.rx.ackcnt = 0)
    (hl : bits.length + bs.length ≤ 128) (hna : ∀ p, p <+: bs → ¬ Armed (bits ++ p)) :
    ∃ s', readPeriods (encBits bs e).1 s = (List.replicate (encBits bs e).1.length (.noMessage, none), s') ∧
      Receiving s0 s' (bits ++ bs) (drv ++ List.replicate (encBits bs e).1.length recessive) ∧
      InStep s' (encBits bs e).2 ∧ s'.rx.ackcnt = 0 := by
  induction bs generalizing s bits drv e with
  | nil => exact ⟨s, rfl, by simpa using h, hs, ha⟩
  | cons b bs ih =>
    simp only [List.length_cons] at hl
    obtain ⟨s1, h1, m1, y1, -, a1⟩ := receiving_bit s0 s bits drv b e h hb hok hs ha (by omega)
    have a1' := a1 (hna [b] (by simp))
    obtain ⟨s2, h2, m2, y2, a2⟩ := ih s1 (bits ++ [b]) _ _ m1 (encBit_ok b e hok) y1 a1' (by simp; omega) (by
      intro p hp
      have := hna (b :: p) (by simpa using hp)
      simpa using this)
    rw [encBits_cons]
    refine ⟨s2, ?_, ?_, y2, a2⟩
    · rw [readPeriods_append h1 h2]; simp
    · simpa using m2

/-- The start-of-frame bit on an idle node (R165). -/
theorem sof_period (s : State) (h : IdleNode s s) (hb : s.fc.state ≠ .busOff) :
    ∃ s', readPeriod dominant s = ((.noMessage, none), s') ∧ Receiving s s' [] [recessive] ∧ InStep s' encStart ∧
      s'.rx.ackcnt = 0 := by
  have hsm : sampleRx (presentLevel dominant s) = dominant := by
    rw [sampleRx_line _ _ h.line, smpOf, Bool.and_false]
  rw [readPeriod_active _ _ hb, hsm, rxStep_idle_dominant _ (by exact h.idle)]
  refine ⟨_, rfl, InFrame.settle ⟨by exact (slot_kept s s dominant h.kept).congr _ rfl rfl rfl rfl rfl rfl rfl, by exact slot_pin _ s h.line, by exact rfl,
    by exact rfl, ?_, by simp, by exact h.wf, by exact rfl, by simp⟩ _, ?_, ?_⟩
  · show (slotState (presentLevel dominant s)).io.drove = _
    rw [slot_drove _ _ h.line, drvOf_silent _ h.silent]
  · simp only [InStep, ackDrive_rx]; exact ⟨rfl, rfl⟩
  · rw [ackDrive_rx]

/-! ### The bits of a frame -/

theorem frameLogical_length (f : WireFrame) (d : Nat) (h : f.fits d = true) : (frameLogical f).length = 33 + 8 * d := by
  simp only [WireFrame.fits, Bool.and_eq_true, decide_eq_true_eq] at h
  simp [frameLogical, h.2]; omega

/-- The bits of a frame that the CRC covers (R61, R123). -/
def frameCovered (f : WireFrame) : List Level :=
  ser 11 f.id ++ ser 3 f.ctl ++ ser 4 f.rawDlc ++ f.data.flatMap (ser 8)

theorem frameLogical_eq (f : WireFrame) : frameLogical f = frameCovered f ++ ser 15 f.crc := rfl

theorem bitsLength_frame (f : WireFrame) (d : Nat) (hf : f.fits d = true) (p x : List Level) (hp : p <+: frameLogical f)
    (hn : 18 ≤ p.length) : bitsLength (p ++ x) = d := by
  simp only [WireFrame.fits, Bool.and_eq_true, decide_eq_true_eq] at hf
  obtain ⟨q, hq⟩ := hp
  have h1 : fieldOf (frameLogical f) 14 4 4 = f.rawDlc := by
    have : frameLogical f =
        (ser 11 f.id ++ ser 3 f.ctl) ++ (ser 4 f.rawDlc ++ (f.data.flatMap (ser 8) ++ ser 15 f.crc)) := by
      simp [frameLogical]
    rw [this]; exact fieldOf_of_parts 4 _ _ _ _ (by simp)
  have h2 : ∀ y, fieldOf (p ++ y) 14 4 4 = fieldOf p 14 4 4 := by
    intro y
    simp only [fieldOf, subBits]
    rw [List.drop_append_of_le_length (by omega), List.take_append_of_le_length (by simp; omega)]
  rw [bitsLength, h2, ← h2 q, hq, h1]; exact hf.1

theorem bitsCrc_frame (f : WireFrame) (d : Nat) (hf : f.fits d = true) (x : List Level) :
    BitsCrc (frameLogical f ++ x) ↔ f.crc = crcOf (frameCovered f) := by
  have hL := frameLogical_length f d hf
  have hd := bitsLength_frame f d hf (frameLogical f) x (List.prefix_refl _) (by omega)
  have hc : (frameCovered f).length = 18 + 8 * d := by
    rw [frameLogical_eq, List.length_append, ser_length] at hL; omega
  rw [BitsCrc, hd, frameLogical_eq, List.append_assoc, subBits_of_length _ _ _ hc, fieldOf_of_parts 15 _ _ _ _ hc]
  exact ⟨fun h => h.symm, fun h => h.symm⟩

theorem not_armed_short (f : WireFrame) (d : Nat) (hf : f.fits d = true) (p : List Level) (hp : p <+: frameLogical f)
    (hl : p.length < 33 + 8 * d) : ¬ Armed p := by
  rintro ⟨h1, h2, -⟩
  have := bitsLength_frame f d hf p [] hp (by omega)
  rw [List.append_nil] at this
  omega

theorem not_armed_long (f : WireFrame) (d : Nat) (hf : f.fits d = true) (x : List Level) (hx : x ≠ []) :
    ¬ Armed (frameLogical f ++ x) := by
  rintro ⟨h1, h2, -⟩
  have hL := frameLogical_length f d hf
  have := bitsLength_frame f d hf (frameLogical f) x (List.prefix_refl _) (by omega)
  have : 0 < x.length := List.length_pos_of_ne_nil hx
  simp at h2; omega

theorem armed_frame (f : WireFrame) (d : Nat) (hf : f.fits d = true) :
    Armed (frameLogical f) ↔ f.crc = crcOf (frameCovered f) := by
  have hL := frameLogical_length f d hf
  have hd := bitsLength_frame f d hf (frameLogical f) [] (List.prefix_refl _) (by omega)
  have := bitsCrc_frame f d hf []
  rw [List.append_nil] at this hd
  rw [← this]
  exact ⟨fun h => h.2.2, fun h => ⟨by omega, by omega, h⟩⟩

/-- From the start-of-frame bit to the end of the stuffed region: the acknowledge is armed exactly by a good CRC (R171). -/
theorem receiving_region (s : State) (f : WireFrame) (d : Nat) (hf : f.fits d = true) (hd8 : d ≤ 8) (hi : IdleNode s s)
    (hb : s.fc.state ≠ .busOff) :
    ∃ s' e, readPeriods (dominant :: encSeq (frameLogical f)) s =
        (List.replicate ((encSeq (frameLogical f)).length + 1) (.noMessage, none), s') ∧
      Receiving s s' (frameLogical f) (List.replicate ((encSeq (frameLogical f)).length + 1) recessive) ∧
      InStep s' e ∧ EncOk e ∧
      (f.crc = crcOf (frameCovered f) → s'.rx.ackcnt = 2) ∧ (f.crc ≠ crcOf (frameCovered f) → s'.rx.ackcnt = 0) := by
  have hL := frameLogical_length f d hf
  obtain ⟨s1, h1, m1, y1, a1⟩ := sof_period s hi hb
  obtain ⟨p, b, hpb⟩ : ∃ p b, frameLogical f = p ++ [b] :=
    ⟨(frameLogical f).dropLast, (frameLogical f).getLast (by intro h; rw [h] at hL; simp at hL; omega),
      (List.dropLast_append_getLast _).symm⟩
  have hpl : p.length = 32 + 8 * d := by rw [hpb] at hL; simp at hL; omega
  obtain ⟨s2, h2, m2, y2, a2⟩ := receiving_bits p s s1 [] _ encStart m1 hb encStart_ok y1 a1 (by simp; omega) (by
    intro q hq
    apply not_armed_short f d hf
    · rw [hpb]; exact (by simpa using hq : [] ++ q <+: p).trans (List.prefix_append _ _)
    · have := hq.length_le; simp; omega)
  have hok2 := encBits_ok p encStart encStart_ok
  obtain ⟨s3, h3, m3, y3, a3, a3'⟩ := receiving_bit s s2 _ _ b _ m2 hb hok2 y2 a2 (by simp; omega)
  rw [List.nil_append, ← hpb] at m3 a3 a3'
  have he : encSeq (frameLogical f) = (encBits p encStart).1 ++ (encBit b (encBits p encStart).2).1 := by
    rw [hpb, encSeq, encBits_append]; simp [encBits_cons]
  refine ⟨s3, _, ?_, ?_, y3, encBit_ok _ _ hok2, fun h => a3 ((armed_frame f d hf).mpr h),
    fun h => a3' (fun hc => h ((armed_frame f d hf).mp hc))⟩
  · rw [he, readPeriods_cons h1 (readPeriods_append h2 h3)]; simp [List.replicate_succ]
  · rw [he]; simpa [List.replicate_succ, List.replicate_append_replicate] using m3

/-! ### The tail -/

/-- The CRC delimiter, recessive. -/
theorem receiving_crcDel (s0 s : State) (bits drv : List Level) (h : Receiving s0 s bits drv) (hb : s0.fc.state ≠ .busOff)
    (hrun : s.rx.run.toNat ≤ 4) (ha : s.rx.ackcnt ≠ 1) (hl : bits.length < 128)
    (hna : ¬ Armed (bits ++ [recessive])) :
    ∃ s', readPeriod recessive s = ((.noMessage, none), s') ∧
      Receiving s0 s' (bits ++ [recessive]) (drv ++ [recessive]) ∧ s'.rx.lastbit = recessive ∧
      s'.rx.run.toNat = (if s.rx.lastbit = recessive then s.rx.run.toNat + 1 else 1) ∧
      s'.rx.ackcnt = s.rx.countDown.ackcnt := by
  have hd := decBit_append recessive (pre s) (by rw [pre_run]; omega)
  rw [pre_lastbit, pre_run] at hd
  obtain ⟨s1, h1, m1, r1, l1, a1⟩ :=
    receiving_append s0 s bits drv recessive recessive h hb (by rw [smpOf_silent _ _ ha, hd]) hl
  rw [smpOf_silent _ _ ha, hd] at r1 l1
  rw [drvOf_silent _ ha] at m1
  rw [if_neg hna] at a1
  simp only at r1 l1
  refine ⟨s1, h1, m1, ?_, ?_, a1⟩
  · rw [l1]; split
    · rename_i h; exact h.symm
    · rfl
  · rw [r1]
    by_cases h : s.rx.lastbit = recessive
    · have : (s.rx.run + 1).toNat = s.rx.run.toNat + 1 := by simp; omega
      rw [if_pos h, if_pos h.symm, this]
    · rw [if_neg h, if_neg (fun h' => h h'.symm)]; rfl

/-- The acknowledge slot, dominant because the node drives it (R172) or because another does. -/
theorem receiving_ackSlot (s0 s : State) (bits drv : List Level) (l : Level) (h : Receiving s0 s bits drv)
    (hb : s0.fc.state ≠ .busOff) (hlast : s.rx.lastbit = recessive) (hrun : s.rx.run.toNat ≤ 5)
    (ha : s.rx.ackcnt = 1 ∨ (s.rx.ackcnt = 0 ∧ l = dominant)) (hl : bits.length < 128)
    (hna : ¬ Armed (bits ++ [dominant])) :
    ∃ s' x, readPeriod l s = ((.noMessage, none), s') ∧ Receiving s0 s' (bits ++ x) (drv ++ [drvOf s]) ∧
      s'.rx.lastbit = dominant ∧ s'.rx.run = 1 ∧ x.length ≤ 1 ∧ s'.rx.ackcnt = 0 := by
  have hsm : smpOf l s = dominant := by
    rcases ha with h | ⟨h, rfl⟩
    · simp [smpOf, h]
    · simp [smpOf]
  have hcd : s.rx.countDown.ackcnt = 0 := by
    rw [countDown_ackcnt]; rcases ha with h | ⟨h, -⟩ <;> rw [h] <;> decide
  have hne : dominant ≠ (pre s).lastbit := by rw [pre_lastbit, hlast]; simp
  by_cases h5 : s.rx.run.toNat = 5
  · have hd := decBit_drop dominant (pre s) (by rw [pre_run]; exact BitVec.eq_of_toNat_eq (by simpa using h5)) hne
    obtain ⟨s1, h1, m1, r1, l1, a1⟩ := receiving_silent s0 s bits drv l h hb (.inl (by rw [hsm, hd]))
    rw [hsm, hd] at r1 l1
    exact ⟨s1, [], h1, by rw [List.append_nil]; exact m1, l1, r1, by simp, a1.trans hcd⟩
  · have hd := decBit_append dominant (pre s) (by rw [pre_run]; omega)
    rw [if_neg hne] at hd
    obtain ⟨s1, h1, m1, r1, l1, a1⟩ := receiving_append s0 s bits drv l dominant h hb (by rw [hsm, hd]) hl
    rw [hsm, hd] at r1 l1
    rw [if_neg hna, hcd] at a1
    exact ⟨s1, [dominant], h1, m1, l1, r1, by simp, a1⟩

/-- A recessive run carried on from `5 - k` to 6, the last bit of it held (R107). -/
theorem receiving_recessives (k : Nat) (s0 s : State) (bits drv : List Level) (h : Receiving s0 s bits drv)
    (hb : s0.fc.state ≠ .busOff) (hlast : s.rx.lastbit = recessive) (hr : s.rx.run.toNat + k = 5) (ha : s.rx.ackcnt = 0)
    (hl : bits.length + k ≤ 128) (hna : ∀ x, ¬ Armed (bits ++ x)) :
    ∃ s', readPeriods (List.replicate (k + 1) recessive) s = (List.replicate (k + 1) (.noMessage, none), s') ∧
      Receiving s0 s' (bits ++ List.replicate k recessive) (drv ++ List.replicate (k + 1) recessive) ∧
      s'.rx.lastbit = recessive ∧ s'.rx.run = 6 ∧ s'.rx.ackcnt = 0 := by
  have hne : s.rx.ackcnt ≠ 1 := by rw [ha]; decide
  have hcd : s.rx.countDown.ackcnt = 0 := by rw [countDown_ackcnt, if_pos ha]
  induction k generalizing s bits drv with
  | zero =>
    have h5 : (pre s).run = 5 := by rw [pre_run]; exact BitVec.eq_of_toNat_eq (by simpa using hr)
    have hd : (pre s).decBit recessive = (.hold, { pre s with run := (pre s).run + 1 }) := by
      simp [Receiver.decBit, h5, pre_lastbit, hlast]
    obtain ⟨s1, h1, m1, r1, l1, a1⟩ :=
      receiving_silent s0 s bits drv recessive h hb (.inr (by rw [smpOf_silent _ _ hne, hd]))
    rw [smpOf_silent _ _ hne, hd] at r1 l1
    rw [drvOf_silent _ hne] at m1
    exact ⟨s1, readPeriods_cons h1 rfl, by simpa using m1, by rw [l1]; exact (pre_lastbit s).trans hlast,
      by rw [r1, h5]; rfl, a1.trans hcd⟩
  | succ k ih =>
    have hd := decBit_append recessive (pre s) (by rw [pre_run]; omega)
    rw [if_pos (by rw [pre_lastbit]; exact hlast.symm), pre_run] at hd
    obtain ⟨s1, h1, m1, r1, l1, a1⟩ :=
      receiving_append s0 s bits drv recessive recessive h hb (by rw [smpOf_silent _ _ hne, hd]) (by omega)
    rw [smpOf_silent _ _ hne, hd] at r1 l1
    simp only [pre_lastbit] at r1 l1
    rw [drvOf_silent _ hne] at m1
    rw [if_neg (hna _), hcd] at a1
    have hr1 : s1.rx.run.toNat + k = 5 := by
      have : (s.rx.run + 1).toNat = s.rx.run.toNat + 1 := by simp; omega
      rw [r1, this]; omega
    obtain ⟨s2, h2, m2, l2, r2, a2⟩ := ih s1 (bits ++ [recessive]) _ m1 (l1.trans hlast) hr1 a1 (by simp; omega)
      (by intro x; have := hna ([recessive] ++ x); simpa using this) (by rw [a1]; decide)
      (by rw [countDown_ackcnt, if_pos a1])
    exact ⟨s2, readPeriods_cons h1 h2, by simpa [List.replicate_succ] using m2, l2, r2, a2⟩

/-- The fields of a frame that has been delivered. -/
structure DeliveredFields (s' : State) (bits : List Level) : Prop where
  id   : s'.rxf.id = fieldOf bits 0 11 11
  dlc  : s'.rxf.dlc.toNat = bitsLength bits
  data : (dataBytes s'.rxf.data).take (bitsLength bits) =
    (List.range (bitsLength bits)).map fun k => fieldOf bits (18 + 8 * k) 8 8

theorem dataBytes_dataOf (g : Nat → Byte) (k : Nat) (h : k < 8) : (dataBytes (dataOf g)).getD k 0 = g k := by
  interval_cases k <;> rfl

/-- What a buffer assembles to (R64, R170 step 5). -/
theorem rxAssemble_fields (s' : State) (m : Memory) (fresh : Nat) (bits : List Level) (hs : s'.rxf = rxAssemble m fresh)
    (hbuf : ∀ k, (h : k < bits.length) → m.read k = bits[k]) (hl : 33 + 8 * bitsLength bits ≤ bits.length) :
    DeliveredFields s' bits := by
  have hlen := rxLength_eq m bits hbuf (by omega)
  have hd8 : bitsLength bits ≤ 8 := Nat.min_le_right _ _
  refine ⟨?_, ?_, ?_⟩
  · rw [hs]; exact field_eq_fieldOf _ bits 0 11 hbuf (by omega)
  · rw [hs]
    show (BitVec.ofNat 4 (rxLength m)).toNat = _
    rw [hlen]; simp; omega
  · rw [hs]
    apply List.ext_getElem
    · simp [dataBytes]; omega
    · intro k h1 h2
      simp only [List.length_map, List.length_range] at h2
      simp only [List.getElem_take, List.getElem_map, List.getElem_range]
      have : (dataBytes (rxAssemble m fresh).data).getD k 0 = m.field (18 + 8 * k) 8 := by
        show (dataBytes (dataOf _)).getD k 0 = _
        rw [dataBytes_dataOf _ _ (by omega), if_pos (by rw [hlen]; exact h2)]
      rw [← field_eq_fieldOf _ bits (18 + 8 * k) 8 hbuf (by omega), ← this]
      have h8 : k < (dataBytes (rxAssemble m fresh).data).length := by simp [dataBytes]; omega
      simp [h8]

/-- The seventh recessive bit of a run ends the frame: a complete frame is delivered or refused by its CRC (R169, R170). -/
theorem receiving_end (s0 s : State) (bits drv : List Level) (h : Receiving s0 s bits drv) (hb : s0.fc.state ≠ .busOff)
    (hlast : s.rx.lastbit = recessive) (hr : s.rx.run = 6) (ha : s.rx.ackcnt = 0)
    (hl : 33 + 8 * bitsLength bits ≤ bits.length) :
    ∃ s', IdleNode s0 s' ∧ s'.io.drove = s0.io.drove ++ drv ++ [recessive] ∧
      (BitsCrc bits → readPeriod recessive s = ((.messageOk, none), s') ∧ s'.fc = s0.fc.onRxSuccess ∧
        DeliveredFields s' bits) ∧
      (¬ BitsCrc bits → readPeriod recessive s = ((.frameError, some .crcMismatch), s') ∧
        s'.fc = s0.fc.onRxFailure ∧ s'.rxf = s0.rxf) := by
  have hne : s.rx.ackcnt ≠ 1 := by rw [ha]; decide
  have hd : (pre s).decBit recessive = (.frameEnd, { pre s with run := (pre s).run + 1 }) := by
    have : (pre s).run = 6 := by rw [pre_run]; exact hr
    simp [Receiver.decBit, this, pre_lastbit, hlast]
  rw [receiving_period s0 s bits drv _ h hb, smpOf_silent _ _ hne]
  have hbuf : ∀ k, (hk : k < bits.length) → (pre s).rxbuf.read k = bits[k] := by
    intro k hk; rw [pre_rxbuf]; exact h.buf k hk
  have hcnt : (pre s).rxcnt = bits.length := by rw [pre_rxcnt]; exact h.cnt
  have hlen := rxLength_eq _ bits hbuf (by omega)
  have hcrc := rxCrcMatches_iff _ bits hbuf hl
  have hslot := slot_drove recessive s h.line
  have hpin := slot_pin recessive s h.line
  have hk := slot_kept s0 s recessive h.kept
  have hfc : (slotState (presentLevel recessive s)).fc = s0.fc := h.fc
  have hrf : (slotState (presentLevel recessive s)).rxf = s0.rxf := h.rxf
  generalize slotState (presentLevel recessive s) = u at *
  have hwf : (pre s).rxbuf.wf = true := by rw [pre_rxbuf]; exact h.wf
  have hd1 : u.io.drove = s0.io.drove ++ drv ++ [recessive] := by rw [hslot, h.drove, drvOf_silent _ hne]
  by_cases hg : BitsCrc bits
  · have hv : ((pre s).decBit recessive).2.verdict = none := by
      rw [hd]
      simp only [Receiver.verdict, hcnt, hlen, nBits, hcrc.mpr hg]
      rw [if_neg (by omega), if_neg (by omega), if_pos trivial]
    rw [rxFrame_good recessive { u with rx := pre s } (by rw [hd]) hv]
    refine ⟨{ ackDrive (delivered { u with rx := ((pre s).decBit recessive).2 }) with readStatus := .messageOk },
      IdleNode.settle ⟨by exact hk.congr _ rfl rfl rfl rfl rfl rfl rfl, by exact hpin, by exact rfl, by exact rfl, ?_⟩ _, ?_, fun _ => ⟨rfl, ?_, ?_⟩,
      fun h => absurd hg h⟩
    · simp only [delivered, Receiver.exited, hd]; exact hwf
    · simp only [ackDrive_io]; exact hd1
    · simp only [ackDrive_fc, delivered, hfc]
    · refine rxAssemble_fields _ (pre s).rxbuf u.io.fresh bits ?_ hbuf hl
      simp only [ackDrive_rxf, delivered, hd]
  · have hv : ((pre s).decBit recessive).2.verdict = some .crcMismatch := by
      rw [hd]
      simp only [Receiver.verdict, hcnt, hlen, nBits]
      rw [if_neg (by omega), if_neg (by omega), if_neg (fun h => hg (hcrc.mp h))]
    rw [rxFrame_bad recessive { u with rx := pre s } _ (by rw [hd]) hv]
    refine ⟨{ ackDrive (failed { u with rx := ((pre s).decBit recessive).2 }) with readStatus := .frameError },
      IdleNode.settle ⟨by exact hk.congr _ rfl rfl rfl rfl rfl rfl rfl, by exact hpin, by exact rfl, by exact rfl, ?_⟩ _, ?_, fun h => absurd h hg,
      fun _ => ⟨rfl, ?_, ?_⟩⟩
    · simp only [failed, Receiver.exited, hd]; exact hwf
    · simp only [ackDrive_io]; exact hd1
    · simp only [ackDrive_fc, failed, hfc]
    · simp only [ackDrive_rxf, failed, hrf]

/-- From a recessive run of `5 - k` after a frame's last CRC bit: `k + 1` silent bits, the frame's end, then the idle line. -/
theorem receiving_finish (s0 s : State) (f : WireFrame) (d m k : Nat) (x drv : List Level) (hf : f.fits d = true)
    (hd8 : d ≤ 8) (hx : x ≠ []) (hx8 : x.length ≤ 4) (h : Receiving s0 s (frameLogical f ++ x) drv)
    (hb : s0.fc.state ≠ .busOff) (hlast : s.rx.lastbit = recessive) (hr : s.rx.run.toNat + k = 5)
    (ha : s.rx.ackcnt = 0) (r : RxResult) (c : FaultConf)
    (hcase : (f.crc = crcOf (frameCovered f) ∧ r = (.messageOk, none) ∧ c = s0.fc.onRxSuccess) ∨
      (f.crc ≠ crcOf (frameCovered f) ∧ r = (.frameError, some .crcMismatch) ∧ c = s0.fc.onRxFailure)) :
    ∃ s', readPeriods (List.replicate (k + 2 + m) recessive) s =
        (List.replicate (k + 1) (.noMessage, none) ++ r :: idleResults c m, s') ∧
      IdleNode s0 s' ∧ s'.fc = c ∧
      s'.io.drove = s0.io.drove ++ drv ++ List.replicate (k + 2) recessive ++ List.replicate m recessive ∧
      (r.1 = .messageOk →
        s'.rxf.id = f.id ∧ s'.rxf.dlc.toNat = d ∧ (dataBytes s'.rxf.data).take d = f.data) ∧
      (r.1 ≠ .messageOk → s'.rxf = s0.rxf) := by
  have hL := frameLogical_length f d hf
  obtain ⟨s1, h1, m1, l1, r1, a1⟩ := receiving_recessives k s0 s _ drv h hb hlast hr ha (by simp; omega) (by
    intro y; rw [List.append_assoc]; exact not_armed_long f d hf _ (by simp [hx]))
  rw [List.append_assoc] at m1
  generalize hy : x ++ List.replicate k recessive = y at m1
  have hdl : bitsLength (frameLogical f ++ y) = d := bitsLength_frame f d hf _ _ (List.prefix_refl _) (by omega)
  obtain ⟨s2, q2, d2, g2, b2⟩ := receiving_end s0 s1 _ _ m1 hb l1 r1 a1 (by rw [hdl]; simp; omega)
  rw [bitsCrc_frame f d hf] at g2 b2
  have hend : readPeriod recessive s1 = (r, s2) ∧ s2.fc = c ∧
      (r.1 = .messageOk → DeliveredFields s2 (frameLogical f ++ y)) ∧ (r.1 ≠ .messageOk → s2.rxf = s0.rxf) := by
    rcases hcase with ⟨hc, rfl, rfl⟩ | ⟨hc, rfl, rfl⟩
    · obtain ⟨e1, e2, e3⟩ := g2 hc
      exact ⟨e1, e2, fun _ => e3, fun h => absurd rfl h⟩
    · obtain ⟨e1, e2, e3⟩ := b2 hc
      exact ⟨e1, e2, fun h => by simp at h, fun _ => e3⟩
  obtain ⟨e1, e2, e3, e4⟩ := hend
  obtain ⟨s3, h3, q3, f3, x3, d3⟩ := idle_periods s0 m s2 q2
  rw [e2] at h3 f3
  have hrep : List.replicate (k + 2 + m) recessive =
      List.replicate (k + 1) recessive ++ (recessive :: List.replicate m recessive) := by
    rw [← List.replicate_succ, List.replicate_append_replicate]; congr 1; omega
  refine ⟨s3, ?_, q3, f3, ?_, ?_, fun h => by rw [x3]; exact e4 h⟩
  · rw [hrep]; exact readPeriods_append h1 (readPeriods_cons e1 h3)
  · rw [d3, d2, List.replicate_succ' (n := k + 1)]; simp only [List.append_assoc]
  · intro hm
    obtain ⟨i1, i2, i3⟩ := e3 hm
    rw [hdl] at i2 i3
    refine ⟨?_, by rw [x3, i2], ?_⟩
    · rw [x3, i1]
      have : frameLogical f ++ y =
          [] ++ (ser 11 f.id ++ ((ser 3 f.ctl ++ ser 4 f.rawDlc ++ f.data.flatMap (ser 8) ++ ser 15 f.crc) ++ y)) := by
        simp [frameLogical]
      rw [this]; exact fieldOf_of_parts 11 _ _ _ _ (by simp)
    · rw [x3, i3]
      simp only [WireFrame.fits, Bool.and_eq_true, decide_eq_true_eq] at hf
      apply List.ext_getElem
      · simp [hf.2]
      · intro j j1 j2
        simp only [List.getElem_map, List.getElem_range]
        have : frameLogical f ++ y =
            (ser 11 f.id ++ ser 3 f.ctl ++ ser 4 f.rawDlc) ++ (f.data.flatMap (ser 8) ++ (ser 15 f.crc ++ y)) := by
          simp [frameLogical]
        rw [this]
        have e : 18 + 8 * j = (ser 11 f.id ++ ser 3 f.ctl ++ ser 4 f.rawDlc).length + 8 * j := by simp
        unfold fieldOf
        rw [e, subBits_append_right, subBits_flatMap_ser _ _ _ j2]
        simp

end Sys2Proof.Machine
end

