-- ==== Sys2Proof/Laws/Transmitter.lean ====
section
/-! SUPPORT. One bit period of the transmitter, said once for each phase (43_transmitter.md R134 to R141). -/

namespace Sys2Proof.Machine

/-- The environment after a bit period in which the node drove `w`. -/
def Environment.after (w : Level) (e : Environment) : Environment :=
  { e with other := e.other.tail, drove := e.drove ++ [w] }

theorem txPeriod_sof (s : State) (h : s.tx.txph = .txSof) :
    txPeriod s =
      { s with
        pin := { txdir := .output, txlvl := dominant }
        tx := { s.tx.withEnc encStart with txidx := 0, txph := .txBody }
        io := s.io.after dominant } := by
  simp only [txPeriod, txDrive, h, txSettle, hold, driveDominant, Environment.after, state_drive, drive_output]

/-- What the transmitter samples while it drives `w`. -/
theorem sampleRx_of_pin (s : State) (w : Level) (h : s.pin = { txdir := .output, txlvl := w }) :
    sampleRx s = (w && s.io.other.headD recessive) := by
  simp [sampleRx, State.otherLevel, state_drive, h]

theorem txPeriod_body (s : State) (h : s.tx.txph = .txBody)
    (hm : ¬ (s.tx.monitored = true ∧ s.io.other.headD recessive = dominant)) :
    txPeriod s =
      { s with
        pin := { txdir := .output, txlvl := s.tx.bodyBit }
        tx := s.tx.bodyStep
        io := s.io.after s.tx.bodyBit } := by
  have hs : sampleRx (driveLevel s.tx.bodyBit s) = (s.tx.bodyBit && s.io.other.headD recessive) := by
    rw [sampleRx_of_pin _ _ (driveLevel_pin _ _)]; simp
  have hc : ¬ (s.tx.monitored = true ∧ (s.tx.bodyBit && s.io.other.headD recessive) = dominant) := by
    rintro ⟨h1, h2⟩
    apply hm
    refine ⟨h1, ?_⟩
    have : s.tx.bodyBit = true := by
      simp only [Transmitter.monitored, Bool.and_eq_true] at h1; exact h1.1
    simpa [this] using h2
  have hd : txDrive s = driveLevel s.tx.bodyBit s := by simp only [txDrive, h]
  simp only [txPeriod, hd, hs]
  simp only [txSettle, hold_tx, driveLevel_tx, h, hc, if_false]
  simp only [hold, Environment.after, state_drive, driveLevel_pin, drive_output]
  cases s.tx.bodyBit <;> rfl

theorem txPeriod_lost (s : State) (h : s.tx.txph = .txBody) (hm : s.tx.monitored = true)
    (ho : s.io.other.headD recessive = dominant) :
    txPeriod s =
      { s with
        pin := { txdir := .output, txlvl := recessive }
        tx := { s.tx.bodyStep with txph := .txIdle }
        sendOk := false
        io := { s.io.after s.tx.bodyBit with rsp := .sent false (some .arbitrationLost) } } := by
  have hs : sampleRx (driveLevel s.tx.bodyBit s) = (s.tx.bodyBit && s.io.other.headD recessive) := by
    rw [sampleRx_of_pin _ _ (driveLevel_pin _ _)]; simp
  have hd : txDrive s = driveLevel s.tx.bodyBit s := by simp only [txDrive, h]
  simp only [txPeriod, hd, hs]
  simp only [txSettle, hold_tx, driveLevel_tx, h, hm, ho, Bool.and_false, and_self, if_true, raiseError_arbitrationLost]
  simp only [respond, hold, Environment.after, state_drive, driveLevel_pin, drive_output]
  cases s.tx.bodyBit <;> rfl

theorem txPeriod_crcDel (s : State) (h : s.tx.txph = .txCrcDel) :
    txPeriod s =
      { s with
        pin := { txdir := .output, txlvl := recessive }
        tx := { s.tx with txph := .txAck }
        io := s.io.after recessive } := by
  simp only [txPeriod, txDrive, h, txSettle, hold, driveRecessive, Environment.after, state_drive, drive_output]

theorem txPeriod_noAck (s : State) (h : s.tx.txph = .txAck) (ho : s.io.other.headD recessive = recessive) :
    txPeriod s =
      { s with
        pin := { txdir := .output, txlvl := recessive }
        tx := { s.tx with txph := .txIdle }
        fc := s.fc.onTxFailure
        sendOk := false
        io := { s.io.after recessive with rsp := .sent false (some .noAck) } } := by
  have hd : txDrive s = release s := by simp only [txDrive, h]
  have hs : sampleRx (release s) = recessive := by
    simp only [sampleRx, State.otherLevel, release_io, ho, state_drive, release_pin, drive_input, Bool.and_self]
  simp only [txPeriod, hd, hs]
  simp only [txSettle, hold_tx, release_tx, h, Bool.true_eq_false, if_false, raiseError_noAck]
  simp only [respond, hold, Environment.after, state_drive, drive_input, driveRecessive, release]

theorem txPeriod_ack (s : State) (h : s.tx.txph = .txAck) (ho : s.io.other.headD recessive = dominant) :
    txPeriod s =
      { s with
        pin := { txdir := .output, txlvl := recessive }
        tx := { s.tx with txph := .txAckDel }
        io := s.io.after recessive } := by
  have hd : txDrive s = release s := by simp only [txDrive, h]
  have hs : sampleRx (release s) = dominant := by
    simp only [sampleRx, State.otherLevel, release_io, ho, Bool.and_false]
  simp only [txPeriod, hd, hs]
  simp only [txSettle, hold_tx, release_tx, h, if_true]
  simp only [hold, Environment.after, state_drive, drive_input, driveRecessive, release]

theorem txPeriod_ackDel (s : State) (h : s.tx.txph = .txAckDel) :
    txPeriod s =
      { s with
        pin := { txdir := .output, txlvl := recessive }
        tx := { s.tx with txph := .txEof, txidx := 0 }
        io := s.io.after recessive } := by
  simp only [txPeriod, txDrive, h, txSettle, hold, driveRecessive, Environment.after, state_drive, drive_output]

theorem txPeriod_eof (s : State) (h : s.tx.txph = .txEof) (hn : s.tx.txidx.toNat + 1 < 7) :
    txPeriod s =
      { s with
        pin := { txdir := .output, txlvl := recessive }
        tx := { s.tx with txidx := s.tx.txidx + 1 }
        io := s.io.after recessive } := by
  simp only [txPeriod, txDrive, h, txSettle, hold, driveRecessive, Environment.after, state_drive, drive_output, hn, if_true]

theorem txPeriod_eofLast (s : State) (h : s.tx.txph = .txEof) (hn : ¬ s.tx.txidx.toNat + 1 < 7) :
    txPeriod s =
      { s with
        pin := { txdir := .output, txlvl := recessive }
        fc := s.fc.onTxSuccess
        tx := { s.tx with txph := .txIdle, txidx := s.tx.txidx + 1 }
        sendOk := true
        io := { s.io.after recessive with rsp := .sent true none } } := by
  simp only [txPeriod, txDrive, h, txSettle, hold, driveRecessive, Environment.after, state_drive, drive_output, hn, if_false,
    respond]

/-- The run over an idle sequencer. -/
theorem txRun_idle (n : Nat) (s : State) (h : s.tx.txph = .txIdle) : txRun n s = s := by
  cases n <;> simp [txRun, state_busy, h]

/-- One bit period of the run. -/
theorem txRun_busy (n : Nat) (s : State) (h : s.tx.txph ≠ .txIdle) : txRun (n + 1) s = txRun n (txPeriod s) := by
  simp [txRun, state_busy, h]

/-- The lengths a transmit frame gives the working set (R62, R132). -/
theorem txLength_le (f : TxFrame) : txLength f ≤ 8 := Nat.min_le_right _ _

theorem txCovered_length (f : TxFrame) : (txCovered f).length = nData (txLength f) := by
  have h : ∀ bs : List Byte, (bs.flatMap (ser 8)).length = 8 * bs.length := by
    intro bs
    induction bs with
    | nil => rfl
    | cons b bs ih => simp [ser, ih]; omega
  have := txLength_le f
  simp only [txCovered, List.length_append, h, List.length_take, nData]
  simp [ser, dataBytes]; omega

theorem txLogical_length (f : TxFrame) : (txLogical f).length = nBits (txLength f) := by
  simp only [txLogical, List.length_append, txCovered_length, nData, nBits]
  simp [ser]; omega

end Sys2Proof.Machine
end

