-- ==== Sys2Proof/Laws/TransmitterRun.lean ====
section
/-! SUPPORT. The sequencer from `TxSof` to its end (43_transmitter.md R133 to R142): what the body puts on the bus, and the state in
which each of the three exits leaves the node. -/

namespace Sys2Proof.Machine

/-- The registers no bit period of the transmitter touches (R143). -/
structure TxKept (s t : State) : Prop where
  txf        : t.txf = s.txf
  rxf        : t.rxf = s.rxf
  readStatus : t.readStatus = s.readStatus
  cfg        : t.cfg = s.cfg
  par        : t.par = s.par
  rx         : t.rx = s.rx
  host       : t.io.host = s.io.host
  fresh      : t.io.fresh = s.io.fresh

theorem TxKept.trans {s t u : State} (a : TxKept s t) (b : TxKept t u) : TxKept s u :=
  ⟨b.1.trans a.1, b.2.trans a.2, b.3.trans a.3, b.4.trans a.4, b.5.trans a.5, b.6.trans a.6, b.7.trans a.7, b.8.trans a.8⟩

/-- `t` is the end of a run of the sequencer from `s`: the levels `l` driven, the result `ok` with its cause, the counters `c`. -/
structure TxEnded (s t : State) (c : FaultConf) (ok : Bool) (cause : Option ErrorCause) (l : List Level) : Prop where
  kept   : TxKept s t
  idle   : t.tx.txph = .txIdle
  pin    : t.pin = { txdir := .output, txlvl := recessive }
  fc     : t.fc = c
  sendOk : t.sendOk = ok
  rsp    : t.io.rsp = .sent ok cause
  drove  : t.io.drove = s.io.drove ++ l
  other  : t.io.other = s.io.other.drop l.length

/-- `t` is the state of a run of the sequencer from `s` after the levels `l`, with no end yet. -/
structure TxGone (s t : State) (l : List Level) : Prop where
  kept  : TxKept s t
  fc    : t.fc = s.fc
  drove : t.io.drove = s.io.drove ++ l
  other : t.io.other = s.io.other.drop l.length

theorem TxGone.ended {s t u : State} {c : FaultConf} {ok : Bool} {cause : Option ErrorCause} {l m : List Level}
    (a : TxGone s t l) (b : TxEnded t u c ok cause m) : TxEnded s u c ok cause (l ++ m) where
  kept := a.kept.trans b.kept
  idle := b.idle
  pin := b.pin
  fc := b.fc
  sendOk := b.sendOk
  rsp := b.rsp
  drove := by rw [b.drove, a.drove, List.append_assoc]
  other := by rw [b.other, a.other, List.drop_drop, List.length_append]

theorem TxGone.trans {s t u : State} {l m : List Level} (a : TxGone s t l) (b : TxGone t u m) : TxGone s u (l ++ m) where
  kept := a.kept.trans b.kept
  fc := b.fc.trans a.fc
  drove := by rw [b.drove, a.drove, List.append_assoc]
  other := by rw [b.other, a.other, List.drop_drop, List.length_append]

/-- In the body, `ws` is what is still to be driven before the CRC delimiter, each level with whether it is monitored. -/
def BodyRest (tx : Transmitter) (ws : List (Level × Bool)) : Prop :=
  tx.txbits.length = tx.txlen.toNat ∧ tx.txidx.toNat < tx.txlen.toNat ∧
    ((EncOk tx.enc ∧ ws = wholeBody tx.txndata.toNat tx.txidx.toNat (tx.txbits.drop tx.txidx.toNat) tx.enc) ∨
      (tx.encrun = 5 ∧ ws = (!tx.enclast, !tx.enclast && decide (tx.txidx.toNat < tx.txndata.toNat)) ::
        wholeBody tx.txndata.toNat (tx.txidx.toNat + 1) (tx.txbits.drop (tx.txidx.toNat + 1)) (!tx.enclast, 1)))

theorem wholeBody_ne_nil (nd i : Nat) (bs : List Level) (e : Enc) (h : bs ≠ []) : wholeBody nd i bs e ≠ [] := by
  cases bs with
  | nil => exact absurd rfl h
  | cons b bs => rcases encBit_head b e with h | h <;> simp [wholeBody, h]

/-- After a logical bit and its stuff bit, the next logical bit, or the end of the body. -/
theorem nextBit_rest (tx : Transmitter) (hl : tx.txbits.length = tx.txlen.toNat) (hi : tx.txidx.toNat < tx.txlen.toNat)
    (hp : tx.txph = .txBody) (he : EncOk tx.enc) (ws : List (Level × Bool))
    (hw : ws = wholeBody tx.txndata.toNat (tx.txidx.toNat + 1) (tx.txbits.drop (tx.txidx.toNat + 1)) tx.enc) :
    (ws ≠ [] ∧ tx.nextBit.txph = .txBody ∧ BodyRest tx.nextBit ws) ∨ (ws = [] ∧ tx.nextBit.txph = .txCrcDel) := by
  have hlt := tx.txlen.isLt
  simp only [Transmitter.nextBit]
  split
  · rename_i h
    have e : (tx.txidx + 1).toNat = tx.txidx.toNat + 1 := by simp; omega
    refine .inl ⟨?_, hp, hl, ?_, .inl ⟨he, ?_⟩⟩
    · rw [hw]
      apply wholeBody_ne_nil
      intro hc
      have := congrArg List.length hc
      simp at this
      omega
    · show (tx.txidx + 1).toNat < tx.txlen.toNat; omega
    · show _ = wholeBody _ (tx.txidx + 1).toNat (List.drop (tx.txidx + 1).toNat _) _
      rw [e]; exact hw
  · rename_i h
    refine .inr ⟨?_, rfl⟩
    rw [hw, List.drop_eq_nil_of_le (by omega)]; rfl

/-- One bit period of the body: the head of what is left is driven, the tail is left. -/
theorem bodyStep_rest (tx : Transmitter) (ws : List (Level × Bool)) (hp : tx.txph = .txBody) (h : BodyRest tx ws) :
    ∃ ws', ws = (tx.bodyBit, tx.monitored) :: ws' ∧
      ((ws' ≠ [] ∧ tx.bodyStep.txph = .txBody ∧ BodyRest tx.bodyStep ws') ∨ (ws' = [] ∧ tx.bodyStep.txph = .txCrcDel)) := by
  obtain ⟨hl, hi, ⟨he, hw⟩ | ⟨he, hw⟩⟩ := h
  · have hne5 : ¬ tx.enc.2 = 5#3 := by
      intro hc; have := he.2; rw [hc] at this; simp at this
    have hf : encFull tx.enc = false := by simp [encFull, hne5]
    have hb : tx.bodyBit = tx.txbits[tx.txidx.toNat]'(by omega) := by
      simp [Transmitter.bodyBit, hf, hl, hi]
    rw [List.drop_eq_getElem_cons (by omega), wholeBody, ← hb] at hw
    by_cases hfull : encFull (encCount tx.bodyBit tx.enc) = true
    · have e1 : encBit tx.bodyBit tx.enc = ([tx.bodyBit, !tx.bodyBit], encStuff (encCount tx.bodyBit tx.enc)) := by
        simp [encBit, hfull]
      have e2 : tx.bodyStep = tx.withEnc (encCount tx.bodyBit tx.enc) := by
        have : encFull (tx.withEnc (encCount tx.bodyBit tx.enc)).enc = true := hfull
        simp only [Transmitter.bodyStep, hf, Bool.false_eq_true, if_false, this, if_true]
      have e3 : (encCount tx.bodyBit tx.enc).1 = tx.bodyBit := by
        simp only [encCount]; split
        · rename_i h; exact h.symm
        · rfl
      have e4 : (encCount tx.bodyBit tx.enc).2 = 5 := by simpa [encFull] using hfull
      rw [e1] at hw
      refine ⟨_, hw, .inl ⟨by simp, by rw [e2]; exact hp, ?_⟩⟩
      rw [e2]
      refine ⟨hl, hi, .inr ⟨e4, ?_⟩⟩
      show _ = (!(encCount tx.bodyBit tx.enc).1, _) :: wholeBody _ _ _ (!(encCount tx.bodyBit tx.enc).1, 1)
      simp only [encStuff, e3, Transmitter.withEnc]; rfl
    · have hfull' : encFull (encCount tx.bodyBit tx.enc) = false := by simpa using hfull
      have e1 : encBit tx.bodyBit tx.enc = ([tx.bodyBit], encCount tx.bodyBit tx.enc) := by
        simp [encBit, hfull']
      have e2 : tx.bodyStep = (tx.withEnc (encCount tx.bodyBit tx.enc)).nextBit := by
        have : encFull (tx.withEnc (encCount tx.bodyBit tx.enc)).enc = false := hfull'
        simp only [Transmitter.bodyStep, hf, Bool.false_eq_true, if_false, this]
      have hok := encBit_ok tx.bodyBit tx.enc he
      rw [e1] at hok hw
      refine ⟨_, hw, ?_⟩
      rw [e2]
      exact nextBit_rest (tx.withEnc (encCount tx.bodyBit tx.enc)) hl hi hp hok _ rfl
  · have hf : encFull tx.enc = true := by simp [encFull, Transmitter.enc, he]
    have hb : tx.bodyBit = !tx.enclast := by simp [Transmitter.bodyBit, hf]
    have e2 : tx.bodyStep = (tx.withEnc (encStuff tx.enc)).nextBit := by
      simp only [Transmitter.bodyStep, hf, if_true]
    have hok : EncOk (tx.withEnc (encStuff tx.enc)).enc := by
      simp [EncOk, encStuff, Transmitter.enc, Transmitter.withEnc]
    refine ⟨_, by rw [hw, Transmitter.monitored, hb], ?_⟩
    rw [e2]
    exact nextBit_rest (tx.withEnc (encStuff tx.enc)) hl hi hp hok _ rfl

/-- The level of a coming period is the element of the list. -/
theorem headD_drop (l : List Level) (k : Nat) (d : Level) : (l.drop k).headD d = l.getD k d := by
  induction l generalizing k with
  | nil => simp
  | cons a l ih => cases k <;> simp

/-- Arbitration is lost in one of the periods given. -/
theorem wholeLost_bounds (other : Nat → Level) (k : Nat) (ws : List (Level × Bool)) (p : Nat)
    (h : wholeLost other k ws = some p) : k + 1 ≤ p ∧ p ≤ k + ws.length := by
  induction ws generalizing k with
  | nil => simp [wholeLost] at h
  | cons x ws ih =>
    obtain ⟨w, mon⟩ := x
    simp only [wholeLost] at h
    split at h
    · simp at h; simp; omega
    · have := ih _ h; simp; omega

/-- The last period of an arbitration that is lost: monitored, and the bus dominant. -/
theorem wholeLost_at (other : Nat → Level) (k : Nat) (ws : List (Level × Bool)) (p : Nat)
    (h : wholeLost other k ws = some p) : ∃ w, ws[p - 1 - k]? = some (w, true) ∧ (w && other (p - 1)) = dominant := by
  induction ws generalizing k with
  | nil => simp [wholeLost] at h
  | cons x ws ih =>
    obtain ⟨w, mon⟩ := x
    simp only [wholeLost] at h
    split at h
    · rename_i hc
      cases h
      exact ⟨w, by simp [hc.1], by simpa using hc.2⟩
    · obtain ⟨w', h1, h2⟩ := ih _ h
      have := wholeLost_bounds _ _ _ _ h
      refine ⟨w', ?_, h2⟩
      rw [show p - 1 - k = (p - 1 - (k + 1)) + 1 by omega]
      simpa using h1

/-- A monitored level is recessive. -/
theorem wholeBody_monitored (nd i : Nat) (bs : List Level) (e : Enc) :
    ∀ x ∈ wholeBody nd i bs e, x.2 = true → x.1 = true := by
  induction bs generalizing i e with
  | nil => simp [wholeBody]
  | cons b bs ih =>
    intro x hx
    simp only [wholeBody, List.mem_append, List.mem_map] at hx
    rcases hx with ⟨a, _, rfl⟩ | hx
    · simp; intro h _; exact h
    · exact ih _ _ x hx

/-- The body from any point of it to the loss of arbitration or to the CRC delimiter; `O` is what the others drive from period 0 on,
and the current period is number `k`. -/
theorem txRun_body (O : List Level) (ws : List (Level × Bool)) (s : State) (k n : Nat) (hp : s.tx.txph = .txBody)
    (hr : BodyRest s.tx ws) (ho : s.io.other = O.drop k) :
    (∀ p, wholeLost (fun j => O.getD j recessive) k ws = some p →
      TxEnded s (txRun (n + ws.length) s) s.fc false (some .arbitrationLost) ((ws.take (p - k)).map Prod.fst)) ∧
    (wholeLost (fun j => O.getD j recessive) k ws = none →
      ∃ t, txRun (n + ws.length) s = txRun n t ∧ t.tx.txph = .txCrcDel ∧ TxGone s t (ws.map Prod.fst)) := by
  induction ws generalizing s k with
  | nil => obtain ⟨_, h, _⟩ := bodyStep_rest _ _ hp hr; cases h
  | cons x ws ih =>
    obtain ⟨ws', hx, hnext⟩ := bodyStep_rest _ _ hp hr
    cases hx
    have hne : s.tx.txph ≠ .txIdle := by rw [hp]; simp
    have e : n + ((s.tx.bodyBit, s.tx.monitored) :: ws).length = (n + ws.length) + 1 := by simp; omega
    rw [e, txRun_busy _ _ hne]
    have hh : s.io.other.headD recessive = O.getD k recessive := by rw [ho, headD_drop]
    have htail : s.io.other.tail = O.drop (k + 1) := by rw [ho]; simp [List.tail_drop]
    have hmw : s.tx.monitored = true → s.tx.bodyBit = true := by
      intro h; simp only [Transmitter.monitored, Bool.and_eq_true] at h; exact h.1
    by_cases hc : s.tx.monitored = true ∧ O.getD k recessive = dominant
    · have hper := txPeriod_lost s hp hc.1 (hh.trans hc.2)
      have hl : wholeLost (fun j => O.getD j recessive) k ((s.tx.bodyBit, s.tx.monitored) :: ws) = some (k + 1) := by
        have : s.tx.monitored = true ∧ (s.tx.bodyBit && O.getD k recessive) = dominant := ⟨hc.1, by rw [hc.2]; simp⟩
        simp only [wholeLost, this, and_self, if_true]
      constructor
      · intro p hp'
        rw [hl] at hp'; cases hp'
        rw [txRun_idle _ _ (by rw [hper]), hper]
        refine ⟨⟨rfl, rfl, rfl, rfl, rfl, rfl, rfl, rfl⟩, rfl, rfl, rfl, rfl, rfl, ?_, ?_⟩
        · simp [Environment.after]
        · simp [Environment.after]
      · intro h; rw [hl] at h; cases h
    · have hper := txPeriod_body s hp (by rw [hh]; exact hc)
      have hl : wholeLost (fun j => O.getD j recessive) k ((s.tx.bodyBit, s.tx.monitored) :: ws) =
          wholeLost (fun j => O.getD j recessive) (k + 1) ws := by
        simp only [wholeLost]
        rw [if_neg]
        rintro ⟨h1, h2⟩
        exact hc ⟨h1, by simpa [hmw h1] using h2⟩
      rw [hl]
      have gone : TxGone s (txPeriod s) [s.tx.bodyBit] := by
        rw [hper]; exact ⟨⟨rfl, rfl, rfl, rfl, rfl, rfl, rfl, rfl⟩, rfl, rfl, by simp [Environment.after]⟩
      have ot : (txPeriod s).io.other = O.drop (k + 1) := by rw [hper]; exact htail
      have tx : (txPeriod s).tx = s.tx.bodyStep := by rw [hper]
      obtain ⟨hws, hp2, hr2⟩ | ⟨hws, hp2⟩ := hnext
      · obtain ⟨i1, i2⟩ := ih (txPeriod s) (k + 1) (by rw [tx]; exact hp2) (by rw [tx]; exact hr2) ot
        constructor
        · intro p hl'
          have hb := wholeLost_bounds _ _ _ _ hl'
          have h := gone.ended (i1 p hl')
          rw [show p - k = (p - (k + 1)) + 1 by omega, ← gone.fc]
          exact h
        · intro hl'
          obtain ⟨t, b1, b2, b3⟩ := i2 hl'
          exact ⟨t, b1, b2, gone.trans b3⟩
      · subst hws
        constructor
        · intro p hl'; simp [wholeLost] at hl'
        · intro _
          exact ⟨txPeriod s, rfl, by rw [tx]; exact hp2, gone⟩

/-- The seven end-of-frame bits, from number `6 - m` on (R141). -/
theorem txRun_eof (s : State) (m n : Nat) (hp : s.tx.txph = .txEof) (hi : s.tx.txidx.toNat + m = 6) :
    TxEnded s (txRun (n + m + 1) s) s.fc.onTxSuccess true none (List.replicate (m + 1) recessive) := by
  induction m generalizing s with
  | zero =>
    rw [txRun_busy _ _ (by rw [hp]; simp), txPeriod_eofLast s hp (by omega), txRun_idle _ _ rfl]
    exact ⟨⟨rfl, rfl, rfl, rfl, rfl, rfl, rfl, rfl⟩, rfl, rfl, rfl, rfl, rfl, rfl, by simp [Environment.after]⟩
  | succ m ih =>
    have hper := txPeriod_eof s hp (by omega)
    rw [show n + (m + 1) + 1 = (n + m + 1) + 1 by omega, txRun_busy _ _ (by rw [hp]; simp)]
    have e : (s.tx.txidx + 1).toNat = s.tx.txidx.toNat + 1 := by simp; omega
    have h := ih (txPeriod s) (by rw [hper]; exact hp)
      (by rw [hper]; show (s.tx.txidx + 1).toNat + m = 6; omega)
    have gone : TxGone s (txPeriod s) [recessive] := by
      rw [hper]; exact ⟨⟨rfl, rfl, rfl, rfl, rfl, rfl, rfl, rfl⟩, rfl, rfl, by simp [Environment.after]⟩
    rw [← gone.fc]
    exact gone.ended h

/-- From the CRC delimiter to the end, by the level of the acknowledge slot (R138 to R141). -/
theorem txRun_tail (s : State) (n : Nat) (hp : s.tx.txph = .txCrcDel) :
    (s.io.other.getD 1 recessive = recessive →
      TxEnded s (txRun (n + 10) s) s.fc.onTxFailure false (some .noAck) [recessive, recessive]) ∧
    (s.io.other.getD 1 recessive = dominant →
      TxEnded s (txRun (n + 10) s) s.fc.onTxSuccess true none (List.replicate 10 recessive)) := by
  rw [show n + 10 = (n + 9) + 1 by omega, txRun_busy _ _ (by rw [hp]; simp)]
  have hper := txPeriod_crcDel s hp
  have g1 : TxGone s (txPeriod s) [recessive] := by
    rw [hper]; exact ⟨⟨rfl, rfl, rfl, rfl, rfl, rfl, rfl, rfl⟩, rfl, rfl, by simp [Environment.after]⟩
  have p1 : (txPeriod s).tx.txph = .txAck := by rw [hper]
  have hh : (txPeriod s).io.other.headD recessive = s.io.other.getD 1 recessive := by
    rw [g1.other]; exact headD_drop _ _ _
  rw [← g1.fc]
  generalize txPeriod s = s1 at *
  rw [show n + 9 = (n + 8) + 1 by omega, txRun_busy _ _ (by rw [p1]; simp)]
  constructor
  · intro hr
    have hper := txPeriod_noAck s1 p1 (hh.trans hr)
    refine g1.ended (m := [recessive]) ?_
    rw [hper, txRun_idle _ _ rfl]
    exact ⟨⟨rfl, rfl, rfl, rfl, rfl, rfl, rfl, rfl⟩, rfl, rfl, rfl, rfl, rfl, rfl, by simp [Environment.after]⟩
  · intro hr
    have hper := txPeriod_ack s1 p1 (hh.trans hr)
    have g2 : TxGone s1 (txPeriod s1) [recessive] := by
      rw [hper]; exact ⟨⟨rfl, rfl, rfl, rfl, rfl, rfl, rfl, rfl⟩, rfl, rfl, by simp [Environment.after]⟩
    have p2 : (txPeriod s1).tx.txph = .txAckDel := by rw [hper]
    refine g1.ended (m := List.replicate 9 recessive) ?_
    rw [← g2.fc]
    refine g2.ended (m := List.replicate 8 recessive) ?_
    generalize txPeriod s1 = s2 at *
    rw [show n + 8 = (n + 7) + 1 by omega, txRun_busy _ _ (by rw [p2]; simp)]
    have hper3 := txPeriod_ackDel s2 p2
    have g3 : TxGone s2 (txPeriod s2) [recessive] := by
      rw [hper3]; exact ⟨⟨rfl, rfl, rfl, rfl, rfl, rfl, rfl, rfl⟩, rfl, rfl, by simp [Environment.after]⟩
    rw [← g3.fc]
    exact g3.ended (txRun_eof (txPeriod s2) 6 n (by rw [hper3]) (by rw [hper3]; rfl))

/-- The CRC delimiter is not monitored. -/
theorem wholeLost_append_delimiter (other : Nat → Level) (k : Nat) (ws : List (Level × Bool)) :
    wholeLost other k (ws ++ [(recessive, false)]) = wholeLost other k ws := by
  induction ws generalizing k with
  | nil => simp [wholeLost]
  | cons x ws ih => obtain ⟨w, m⟩ := x; simp only [List.cons_append, wholeLost, ih]

/-- The levels of the body are the encoder's output (R104, R135). -/
theorem wholeBody_map (nd i : Nat) (bs : List Level) (e : Enc) :
    (wholeBody nd i bs e).map Prod.fst = (encBits bs e).1 := by
  induction bs generalizing i e with
  | nil => rfl
  | cons b bs ih => simp [wholeBody, encBits_cons, ih, Function.comp_def]

theorem wholeBody_length (nd i : Nat) (bs : List Level) (e : Enc) :
    (wholeBody nd i bs e).length = (encBits bs e).1.length := by
  rw [← wholeBody_map nd i, List.length_map]

/-- The body of a frame. -/
def bodyWire (f : TxFrame) : List (Level × Bool) := wholeBody (nData (txLength f)) 0 (txLogical f) encStart

theorem wholeWire_eq (f : TxFrame) : wholeWire f = (dominant, false) :: (bodyWire f ++ [(recessive, false)]) := rfl

theorem bodyWire_map (f : TxFrame) : (bodyWire f).map Prod.fst = encSeq (txLogical f) := wholeBody_map _ _ _ _

theorem wholeWire_map (f : TxFrame) :
    (wholeWire f).map Prod.fst = dominant :: (encSeq (txLogical f) ++ [recessive]) := by
  rw [wholeWire_eq, List.map_cons, List.map_append, bodyWire_map]; rfl

theorem wholeWire_length (f : TxFrame) : (wholeWire f).length = (bodyWire f).length + 2 := by simp [wholeWire_eq]

theorem bodyWire_length_le (f : TxFrame) : (bodyWire f).length ≤ 194 := by
  rw [bodyWire, wholeBody_length]
  have h := encBits_length_le (txLogical f) encStart encStart_ok
  have h2 := txLength_le f
  rw [txLogical_length] at h
  have : encStart.2.toNat = 1 := rfl
  simp only [nBits] at h; omega

/-- A monitored level of the frame is recessive. -/
theorem wholeWire_monitored (f : TxFrame) : ∀ x ∈ wholeWire f, x.2 = true → x.1 = true := by
  intro x hx h
  simp only [wholeWire_eq, List.mem_cons, List.mem_append] at hx
  rcases hx with rfl | hx | hx
  · simp at h
  · exact wholeBody_monitored _ _ _ _ _ hx h
  · simp at hx; subst hx; rfl

/-- The whole run from the acceptance of a frame: lost, not acknowledged, or acknowledged. -/
theorem txRun_whole (f : TxFrame) (s : State) :
    (∀ p, wholeLost (fun j => s.io.other.getD j recessive) 0 (wholeWire f) = some p →
      TxEnded (txStart f s) (txRun txFuel (txStart f s)) s.fc false (some .arbitrationLost)
        (((wholeWire f).take p).map Prod.fst)) ∧
    (wholeLost (fun j => s.io.other.getD j recessive) 0 (wholeWire f) = none →
      (s.io.other.getD (wholeWire f).length recessive = recessive →
        TxEnded (txStart f s) (txRun txFuel (txStart f s)) s.fc.onTxFailure false (some .noAck)
          ((wholeWire f).map Prod.fst ++ [recessive])) ∧
      (s.io.other.getD (wholeWire f).length recessive = dominant →
        TxEnded (txStart f s) (txRun txFuel (txStart f s)) s.fc.onTxSuccess true none
          ((wholeWire f).map Prod.fst ++ List.replicate 9 recessive))) := by
  have hlen := bodyWire_length_le f
  have hper := txPeriod_sof (txStart f s) rfl
  obtain ⟨n, hn⟩ : ∃ n, txFuel = (n + 10 + (bodyWire f).length) + 1 :=
    ⟨194 - (bodyWire f).length, by simp only [txFuel]; omega⟩
  rw [hn, txRun_busy _ _ (by simp)]
  have g1 : TxGone (txStart f s) (txPeriod (txStart f s)) [dominant] := by
    rw [hper]; exact ⟨⟨rfl, rfl, rfl, rfl, rfl, rfl, rfl, rfl⟩, rfl, rfl, by simp [Environment.after]⟩
  generalize txPeriod (txStart f s) = s1 at *
  have p1 : s1.tx.txph = .txBody := by rw [hper]
  have hL := txLength_le f
  have el : s1.tx.txlen.toNat = nBits (txLength f) := by
    rw [hper]; show (BitVec.ofNat 7 _).toNat = _; simp [nBits]; omega
  have ed : s1.tx.txndata.toNat = nData (txLength f) := by
    rw [hper]; show (BitVec.ofNat 7 _).toNat = _; simp [nData]; omega
  have eb : s1.tx.txbits = txLogical f := by rw [hper]; rfl
  have ei : s1.tx.txidx = 0 := by rw [hper]
  have ee : s1.tx.enc = encStart := by rw [hper]; rfl
  have r1 : BodyRest s1.tx (bodyWire f) := by
    refine ⟨by rw [eb, el, txLogical_length], by rw [ei, el]; simp [nBits], .inl ⟨by rw [ee]; exact encStart_ok, ?_⟩⟩
    rw [ed, ei, eb, ee]; rfl
  have o1 : s1.io.other = s.io.other.drop 1 := g1.other
  have f1 : s1.fc = s.fc := g1.fc
  have hw : wholeLost (fun j => s.io.other.getD j recessive) 0 (wholeWire f) =
      wholeLost (fun j => s.io.other.getD j recessive) 1 (bodyWire f) := by
    rw [wholeWire_eq, wholeLost, if_neg (by simp), wholeLost_append_delimiter]
  obtain ⟨b1, b2⟩ := txRun_body s.io.other (bodyWire f) s1 1 (n + 10) p1 r1 o1
  rw [hw, wholeWire_length]
  constructor
  · intro p hl
    have hb := wholeLost_bounds _ _ _ _ hl
    have h := g1.ended (b1 p hl)
    obtain ⟨q, rfl⟩ : ∃ q, p = q + 1 := ⟨p - 1, by omega⟩
    rw [f1] at h
    rw [wholeWire_eq, List.take_succ_cons, List.map_cons, List.take_append_of_le_length (by omega)]
    exact h
  · intro hl
    obtain ⟨t, c1, c2, c3⟩ := b2 hl
    have g2 := g1.trans c3
    have hft : t.fc = s.fc := g2.fc
    obtain ⟨x, y⟩ := txRun_tail t n c2
    have ht : t.io.other.getD 1 recessive = s.io.other.getD ((bodyWire f).length + 2) recessive := by
      rw [g2.other, List.getD_eq_getElem?_getD, List.getElem?_drop, List.getD_eq_getElem?_getD]
      simp only [List.length_append, List.length_map, List.length_singleton]
      congr 2; omega
    rw [ht, hft] at x y
    rw [c1, wholeWire_eq, List.map_cons, List.map_append]
    constructor
    · intro ho
      have h := g2.ended (x ho)
      simpa using h
    · intro ho
      have h := g2.ended (y ho)
      simpa [List.replicate_succ] using h

/-- One level and response aside, a bit period does not depend on the outputs of the step before it: the outputs `drove` and `rsp`
are written, never read (R143). -/
theorem txPeriod_outputs (s : State) (hb : s.tx.txph ≠ .txIdle) :
    ∃ w r, (txPeriod s).io.drove = s.io.drove ++ [w] ∧ (txPeriod s).io.host = s.io.host ∧
      (txPeriod s).io.other = s.io.other.tail ∧
      txPeriod (opStart s) = { txPeriod s with io := { (txPeriod s).io with drove := [w], rsp := r } } ∧
      ((txPeriod s).tx.txph = .txIdle → r = (txPeriod s).io.rsp) := by
  cases hp : s.tx.txph with
  | txIdle => exact absurd hp hb
  | txSof => rw [txPeriod_sof s hp, txPeriod_sof (opStart s) hp]; exact ⟨_, _, rfl, rfl, rfl, rfl, by simp⟩
  | txBody =>
    by_cases hm : s.tx.monitored = true ∧ s.io.other.headD recessive = dominant
    · rw [txPeriod_lost s hp hm.1 hm.2, txPeriod_lost (opStart s) hp hm.1 hm.2]
      exact ⟨_, _, rfl, rfl, rfl, rfl, fun _ => rfl⟩
    · rw [txPeriod_body s hp hm, txPeriod_body (opStart s) hp hm]
      refine ⟨_, _, rfl, rfl, rfl, rfl, ?_⟩
      intro h
      exfalso
      have hn : ∀ t : Transmitter, t.txph = .txBody → t.nextBit.txph ≠ .txIdle := by
        intro t ht; simp only [Transmitter.nextBit]; split <;> simp [ht]
      simp only [Transmitter.bodyStep] at h
      split at h
      · exact hn (s.tx.withEnc _) hp h
      · split at h
        · rw [show (s.tx.withEnc _).txph = s.tx.txph from rfl, hp] at h; cases h
        · exact hn (s.tx.withEnc _) hp h
  | txCrcDel => rw [txPeriod_crcDel s hp, txPeriod_crcDel (opStart s) hp]; exact ⟨_, _, rfl, rfl, rfl, rfl, by simp⟩
  | txAck =>
    rcases Bool.eq_false_or_eq_true (s.io.other.headD recessive) with ho | ho
    · rw [txPeriod_noAck s hp ho, txPeriod_noAck (opStart s) hp ho]
      exact ⟨_, _, rfl, rfl, rfl, rfl, fun _ => rfl⟩
    · rw [txPeriod_ack s hp ho, txPeriod_ack (opStart s) hp ho]
      exact ⟨_, _, rfl, rfl, rfl, rfl, by simp⟩
  | txAckDel => rw [txPeriod_ackDel s hp, txPeriod_ackDel (opStart s) hp]; exact ⟨_, _, rfl, rfl, rfl, rfl, by simp⟩
  | txEof =>
    by_cases hn : s.tx.txidx.toNat + 1 < 7
    · rw [txPeriod_eof s hp hn, txPeriod_eof (opStart s) hp hn]; exact ⟨_, _, rfl, rfl, rfl, rfl, by simp [hp]⟩
    · rw [txPeriod_eofLast s hp hn, txPeriod_eofLast (opStart s) hp hn]
      exact ⟨_, _, rfl, rfl, rfl, rfl, fun _ => rfl⟩

/-- The registers the transmitter neither reads nor writes, replaced (R143, R51: after `TX_BUILD` not even `TXF` is read). -/
def withRest (a : TxFrame) (b : RxFrame) (c : Receiver) (d : ReadStatus) (h : List Presented) (s : State) : State :=
  { s with txf := a, rxf := b, rx := c, readStatus := d, io := { s.io with host := h } }

theorem txPeriod_withRest (a : TxFrame) (b : RxFrame) (c : Receiver) (d : ReadStatus) (h : List Presented) (s : State) :
    txPeriod (withRest a b c d h s) = withRest a b c d h (txPeriod s) := by
  cases hp : s.tx.txph with
  | txIdle => simp only [txPeriod, txDrive, hp, withRest, txSettle, hold]; rfl
  | txSof => rw [txPeriod_sof s hp, txPeriod_sof _ (by exact hp)]; rfl
  | txBody =>
    by_cases hm : s.tx.monitored = true ∧ s.io.other.headD recessive = dominant
    · rw [txPeriod_lost s hp hm.1 hm.2, txPeriod_lost _ (by exact hp) (by exact hm.1) (by exact hm.2)]; rfl
    · rw [txPeriod_body s hp hm, txPeriod_body _ (by exact hp) (by exact hm)]; rfl
  | txCrcDel => rw [txPeriod_crcDel s hp, txPeriod_crcDel _ (by exact hp)]; rfl
  | txAck =>
    rcases Bool.eq_false_or_eq_true (s.io.other.headD recessive) with ho | ho
    · rw [txPeriod_noAck s hp ho, txPeriod_noAck _ (by exact hp) (by exact ho)]; rfl
    · rw [txPeriod_ack s hp ho, txPeriod_ack _ (by exact hp) (by exact ho)]; rfl
  | txAckDel => rw [txPeriod_ackDel s hp, txPeriod_ackDel _ (by exact hp)]; rfl
  | txEof =>
    by_cases hn : s.tx.txidx.toNat + 1 < 7
    · rw [txPeriod_eof s hp hn, txPeriod_eof _ (by exact hp) (by exact hn)]; rfl
    · rw [txPeriod_eofLast s hp hn, txPeriod_eofLast _ (by exact hp) (by exact hn)]; rfl

theorem txRun_withRest (a : TxFrame) (b : RxFrame) (c : Receiver) (d : ReadStatus) (h : List Presented) (n : Nat) (s : State) :
    txRun n (withRest a b c d h s) = withRest a b c d h (txRun n s) := by
  induction n generalizing s with
  | zero => rfl
  | succ n ih =>
    by_cases hi : s.tx.txph = .txIdle
    · rw [txRun_idle _ _ hi, txRun_idle _ _ (by exact hi)]
    · rw [txRun_busy _ _ hi, txRun_busy _ _ (by exact hi), txPeriod_withRest, ih]

end Sys2Proof.Machine
end

