-- ==== Sys2Proof/Tests/Slice0.lean ====
section
/-! SUPPORT. The model's own tests: the well-formedness smoke test, words written out from the encodings of the spec, one-step checks with
expected results from the vectors of 95_test_vectors.md, and a witness for the hypotheses of every statement. -/

namespace Sys2Proof.Tests

open Sys2Proof.Machine Sys2Proof.Statements

set_option maxRecDepth 20000

/-- The `n` bits of a number, most significant first: a row of a table as it is printed. -/
def bits (n w : Nat) : List Level := (List.range n).map fun k => w.testBit (n - 1 - k)

/-- The next state of an outcome that has one. -/
def after : Host.Outcome State Fault Refusal → State
  | .next t => t
  | .fault _ => State.reset
  | .refused _ => State.reset

/-- The outcome is a next state. -/
def completes : Host.Outcome State Fault Refusal → Bool
  | .next _ => true
  | .fault _ => false
  | .refused _ => false

/-- The refusal of an outcome. -/
def refusalOf : Host.Outcome State Fault Refusal → Option Refusal
  | .next _ => none
  | .fault _ => none
  | .refused r => some r

theorem eq_next_after {o : Host.Outcome State Fault Refusal} (h : completes o = true) : o = .next (after o) := by
  cases o <;> simp_all [completes, after]

/-- A node after `BEGIN` at 125 000 bit/s, clock value 0. -/
def node : State := beginOp 125000 0 State.reset

/-- The node with these counters and their classification. -/
def nodeAt (tec rec_ : BitVec 9) : State := { node with fc := { tec := tec, rec_ := rec_, state := classOf tec rec_ } }

/-- The node with a decoder or encoder state. -/
def nodeRun (rxs : RxSub) (last : Level) (run : BitVec 3) : State :=
  { node with rx := { node.rx with rxs := rxs, lastbit := last, run := run } }

/-- The node on a bus whose other nodes drive recessive but in one bit period. -/
def nodeBus (p : Nat) : State :=
  { node with io := { node.io with other := List.replicate p recessive ++ [dominant] } }

/-- The node with a receive buffer of these bits. -/
def nodeBuf (b : List Level) : State :=
  { node with rx := { node.rx with rxs := .frame, rxbuf := Memory.ofBits 0 b, rxcnt := b.length, run := 1 } }

/-- The frame of scenario S1. -/
def frameS1 : TxFrame := { id := 0x123, dlc := 4, data := ⟨0xDE, 0xAD, 0xBE, 0xEF, 0, 0, 0, 0⟩ }

/-- The frame of scenario S4. -/
def frameS4 : TxFrame := { id := 0x321, dlc := 12, data := ⟨1, 2, 3, 4, 5, 6, 7, 8⟩ }

/-- The shortest frame of V-TX6 with identifier 0x123. -/
def frame0 : TxFrame := { id := 0x123, dlc := 0, data := ⟨0, 0, 0, 0, 0, 0, 0, 0⟩ }

/-- The frame on the wire of V-CRC20. -/
def wire0 : WireFrame :=
  { id := 0x123, ctl := 0, rawDlc := 0, data := [], crc := 0x6858, crcDel := true, ack := true, ackDel := true }

/-- The remote frame of V-RX7g, its CRC over the bits sent. -/
def remoteG : WireFrame := { wire0 with ctl := 4, rawDlc := 4, crc := crcOf (ser 11 0x123 ++ ser 3 4 ++ ser 4 4) }

/-- The frame of V-RX7f, its CRC over the bits sent. -/
def shortF : WireFrame :=
  { wire0 with
    id := 0x321, rawDlc := 9, data := [1, 2, 3, 4]
    crc := crcOf (ser 11 0x321 ++ ser 3 0 ++ ser 4 9 ++ [1, 2, 3, 4].flatMap (ser 8)) }

/-! ### Well-formedness refuses what it checks -/

theorem test_wf_accepts : (Instr.df0 wire0).wellFormed = true := by decide

theorem test_wf_refuses_dlc : (Instr.df0 { wire0 with rawDlc := 1 }).wellFormed = false := by decide

theorem test_wf_refuses_data : (Instr.df0 { wire0 with data := [0xFF] }).wellFormed = false := by decide

theorem test_wf_refuses_short_data : (Instr.df8 { wire0 with rawDlc := 8, data := [1, 2, 3, 4, 5, 6, 7] }).wellFormed = false := by
  decide

theorem test_wf_clamps_raw_dlc :
    (Instr.df8 { wire0 with rawDlc := 15, data := [1, 2, 3, 4, 5, 6, 7, 8] }).wellFormed = true := by decide

/-! ### Words written out from the encodings -/

/-- R70: the four codes. -/
theorem test_decode_commands :
    decodeTableWord 8 0b00 = some .nop ∧ decodeTableWord 8 0b01 = some (.begin 0 0) ∧
      decodeTableWord 8 0b10 = some (.send { id := 0, dlc := 0, data := Data8.zero }) ∧
      decodeTableWord 8 0b11 = some (.read 0) := by decide

/-- R70, R216: the operands from the ports. -/
theorem test_decode_ports :
    decode (.command { cmd := 0b01, baud := 125000, now := 5000, txId := 0, txDlc := 0, txData := Data8.zero }) =
      .ok (.begin 125000 5000) := by decide

/-- R218: construction. -/
theorem test_decode_construct : decode (.construct 4 5) = .ok (.new 4 5) := by decide

/-- DF0 (R61): identifier 0x123, CRC 0x6858 (V-CRC20). -/
theorem test_decode_df0 :
    decode (.frame (bits 1 0b0 ++ bits 11 0b00100100011 ++ bits 3 0b000 ++ bits 4 0b0000 ++ bits 15 0b110100001011000 ++
      bits 3 0b101 ++ bits 7 0b1111111)) =
      .ok (.df0 { wire0 with ack := false }) := by decide +kernel

/-- DF1 (R61): the frame of node A of V-TX7, its five stuff bits taken out. -/
theorem test_decode_df1 :
    decode (.frame (bits 1 0b0 ++ bits 11 0b00100100011 ++ bits 3 0b000 ++ bits 4 0b0001 ++ bits 8 0b11111111 ++
      bits 15 0b110000011110010 ++ bits 3 0b111 ++ bits 7 0b1111111)) =
      .ok (.df1 { wire0 with rawDlc := 1, data := [0xFF], crc := 0x60F2 }) := by decide +kernel

/-- DF2 (R61, R67): V-RX7e, the control bits 1, CRC 0x27DB. -/
theorem test_decode_df2 :
    decode (.frame (bits 1 0b0 ++ bits 11 0b00100100011 ++ bits 3 0b111 ++ bits 4 0b0010 ++ bits 16 0b1010101001010101 ++
      bits 15 0b010011111011011 ++ bits 3 0b111 ++ bits 7 0b1111111)) =
      .ok (.df2 { wire0 with ctl := 7, rawDlc := 2, data := [0xAA, 0x55], crc := 0x27DB }) := by decide +kernel

/-- DF3 (R61). -/
theorem test_decode_df3 :
    decode (.frame (bits 1 0b0 ++ bits 11 0b10000000000 ++ bits 3 0b001 ++ bits 4 0b0011 ++
      bits 24 0b100000000100000000100000 ++ bits 15 0b000000000000001 ++ bits 3 0b011 ++ bits 7 0b1111111)) =
      .ok (.df3 { wire0 with id := 0x400, ctl := 1, rawDlc := 3, data := [0x80, 0x40, 0x20], crc := 1, crcDel := false }) := by
  decide +kernel

/-- DF4 (R61): the frame of V-TX1, acknowledged. -/
theorem test_decode_df4 :
    decode (.frame (bits 1 0b0 ++ bits 65 0b00100100011000010011011110101011011011111011101111100111001101011 ++ bits 3 0b101 ++
      bits 7 0b1111111)) =
      .ok (.df4 { wire0 with rawDlc := 4, data := [0xDE, 0xAD, 0xBE, 0xEF], crc := 0x4E6B, ack := false }) := by
  decide +kernel

/-- DF5 (R61). -/
theorem test_decode_df5 :
    decode (.frame (bits 1 0b0 ++ bits 11 0b00000000001 ++ bits 3 0b100 ++ bits 4 0b0101 ++
      bits 40 0b0000000100000010000000110000010000000101 ++ bits 15 0b100000000000000 ++ bits 3 0b110 ++ bits 7 0b1111111)) =
      .ok (.df5 { wire0 with id := 1, ctl := 4, rawDlc := 5, data := [1, 2, 3, 4, 5], crc := 0x4000, ackDel := false }) := by
  decide +kernel

/-- DF6 (R61). -/
theorem test_decode_df6 :
    decode (.frame (bits 1 0b0 ++ bits 11 0b11111111111 ++ bits 3 0b000 ++ bits 4 0b0110 ++
      bits 48 0b000000010000001000000011000001000000010100000110 ++ bits 15 0b010101010101010 ++ bits 3 0b111 ++
      bits 7 0b1111111)) =
      .ok (.df6 { wire0 with id := 0x7FF, rawDlc := 6, data := [1, 2, 3, 4, 5, 6], crc := 0x2AAA }) := by decide +kernel

/-- DF7 (R61). -/
theorem test_decode_df7 :
    decode (.frame (bits 1 0b0 ++ bits 11 0b01010101010 ++ bits 3 0b000 ++ bits 4 0b0111 ++
      bits 56 0b00000001000000100000001100000100000001010000011000000111 ++ bits 15 0b111111111111110 ++ bits 3 0b111 ++
      bits 7 0b1111111)) =
      .ok (.df7 { wire0 with id := 0x2AA, rawDlc := 7, data := [1, 2, 3, 4, 5, 6, 7], crc := 0x7FFE }) := by decide +kernel

/-- DF8 (R61): the frame of V-TX4. -/
theorem test_decode_df8 :
    decode (.frame (bits 1 0b0 ++
      bits 97 0b0110010000100010000000000100000010000000110000010000000101000001100000011100001000011001100111111 ++
      bits 3 0b111 ++ bits 7 0b1111111)) =
      .ok (.df8 { wire0 with id := 0x321, rawDlc := 8, data := [1, 2, 3, 4, 5, 6, 7, 8], crc := 0x333F }) := by
  decide +kernel

/-- DF8 with a raw DLC of 12 (R68, V-RX7b). -/
theorem test_decode_df8_raw_dlc :
    decode (.frame (bits 1 0b0 ++ bits 11 0b01100100001 ++ bits 3 0b000 ++ bits 4 0b1100 ++
      bits 64 0b0000000100000010000000110000010000000101000001100000011100001000 ++ bits 15 0b101101111011110 ++ bits 3 0b111 ++
      bits 7 0b1111111)) =
      .ok (.df8 { wire0 with id := 0x321, rawDlc := 12, data := [1, 2, 3, 4, 5, 6, 7, 8], crc := 0x5BDE }) := by
  decide +kernel

/-- A table word: bit `k` is frame position `k` (log 11). -/
theorem test_decode_table_frame :
    decodeTableWord 48 (2 ^ 11 + 2 ^ 33 + 127 * 2 ^ 37) =
      some (.df0 { id := 1, ctl := 0, rawDlc := 0, data := [], crc := 1, crcDel := false, ack := false, ackDel := false }) := by
  decide +kernel

/-- What is no frame format is refused by name. -/
theorem test_decode_rejects :
    decode (.frame (bits 43 0)) = .error .badLength ∧ decode (.frame (bits 44 (2 ^ 44 - 1))) = .error .badSof ∧
      decode (.frame (bits 44 (2 ^ 25 + 127))) = .error .badDlc ∧ decode (.frame (bits 44 126)) = .error .badEof := by
  decide +kernel

/-! ### The host interface -/

/-- R270: the construction state. -/
theorem test_new :
    (after (exec (.new 4 5) (nodeAt 256 0))).fc = { tec := 0, rec_ := 0, state := .errorActive } ∧
      (after (exec (.new 4 5) (nodeAt 256 0))).cfg.configured = false ∧
      (after (exec (.new 4 5) (nodeAt 256 0))).outPorts.rspValid = false := by decide

/-- V-HOST2. -/
theorem test_begin :
    (after (exec (.begin 125000 5000) (nodeAt 256 0))).cfg.bittime = 8 ∧
      (after (exec (.begin 125000 5000) (nodeAt 256 0))).rx.lastsample = 5000 ∧
      (after (exec (.begin 125000 5000) (nodeAt 256 0))).fc.state = .errorActive := by decide +kernel

/-- V-HOST1: truncation, and the two refused rates. -/
theorem test_begin_rates :
    (after (exec (.begin 300000 0) State.reset)).cfg.bittime = 3 ∧ (after (exec (.begin 3 0) State.reset)).cfg.bittime = 333333 ∧
      refusalOf (exec (.begin 0 0) State.reset) = some .baudOutOfRange ∧
      refusalOf (exec (.begin 1000001 0) State.reset) = some .baudOutOfRange := by decide +kernel

/-- V-HOST4. -/
theorem test_nop : (after (exec .nop (nodeAt 5 6))).fc = (nodeAt 5 6).fc := by decide

/-- V-HOST3. -/
theorem test_unconfigured :
    refusalOf (exec (.send frame0) State.reset) = some .notConfigured ∧
      refusalOf (exec (.read 0) State.reset) = some .notConfigured := by
  decide

/-! ### Line driver -/

/-- V-LD2. -/
theorem test_driveDominant :
    (after (exec .driveDominant { node with pin := { txdir := .input, txlvl := recessive } })).pin =
      { txdir := .output, txlvl := dominant } := by decide

/-- V-LD4. -/
theorem test_driveRecessive :
    (after (exec .driveRecessive { node with pin := { txdir := .input, txlvl := dominant } })).pin =
      { txdir := .output, txlvl := recessive } := by decide

/-- V-LD6. -/
theorem test_release :
    (after (exec .release { node with pin := { txdir := .output, txlvl := dominant } })).pin =
      { txdir := .input, txlvl := dominant } ∧
    (after (exec .release { node with pin := { txdir := .output, txlvl := dominant } })).drive = recessive := by decide

/-- V-LD7, V-LD8. -/
theorem test_sampleRx :
    (after (exec .sampleRx (nodeBus 0))).io.rsp = .level dominant ∧
      (after (exec .sampleRx { node with pin := { txdir := .output, txlvl := dominant } })).io.rsp = .level dominant ∧
      (after (exec .sampleRx node)).io.rsp = .level recessive := by decide

/-! ### Bit codec and CRC -/

/-- R102. -/
theorem test_encInit : (after (exec .encInit node)).tx.encrun = 1 ∧ (after (exec .encInit node)).tx.enclast = dominant := by
  decide

/-- The last bit of V-ENC1: the fifth of a run brings the stuff bit. -/
theorem test_encBit :
    (after (exec (.encBit dominant) { node with tx := { node.tx with enclast := dominant, encrun := 4 } })).io.rsp =
      .bits [dominant, recessive] := by decide

/-- V-ENC9: `0000S1111s1`, end state (1, 1). -/
theorem test_encSeq :
    (after (exec (.encSeq (bits 9 0b000011111)) node)).io.rsp = .bits (bits 11 0b00001111101) ∧
      (after (exec (.encSeq (bits 9 0b000011111)) node)).tx.enclast = recessive ∧
      (after (exec (.encSeq (bits 9 0b000011111)) node)).tx.encrun = 1 := by decide +kernel

/-- V-ENC4: `11111s`. -/
theorem test_encSeq_ones :
    (after (exec (.encSeq (bits 5 0b11111)) node)).io.rsp = .bits (bits 6 0b111110) := by decide +kernel

/-- R106. -/
theorem test_decInit : (after (exec .decInit node)).rx.run = 1 ∧ (after (exec .decInit node)).rx.lastbit = dominant := by decide

/-- V-DEC2 and V-DEC3: the sixth dominant bit, the stuff bit. -/
theorem test_decBit :
    (after (exec (.decBit dominant) (nodeRun .frame dominant 5))).io.rsp = .event .stuffError ∧
      (after (exec (.decBit recessive) (nodeRun .frame dominant 5))).io.rsp = .event .drop := by decide

/-- V-DEC4 and V-DEC5: the sixth and seventh recessive bit, a dominant bit after six. -/
theorem test_decBit_end :
    (after (exec (.decBit recessive) (nodeRun .frame recessive 5))).io.rsp = .event .hold ∧
      (after (exec (.decBit recessive) (nodeRun .frame recessive 6))).io.rsp = .event .frameEnd ∧
      (after (exec (.decBit dominant) (nodeRun .frame recessive 6))).io.rsp = .event .stuffError := by decide

/-- V-CRC0: its second and fourth step. -/
theorem test_crc15Step :
    (after (exec (.crc15Step 0x4599 dominant) node)).io.rsp = .crc 0x4EAB ∧
      (after (exec (.crc15Step 0x1D56 recessive) node)).io.rsp = .crc 0x7F35 := by decide +kernel

/-- V-CRC14, V-CRC11. -/
theorem test_crc15 :
    (after (exec (.crc15 (bits 50 0b00100100011000010011011110101011011011111011101111)) node)).io.rsp = .crc 0x4E6B ∧
      (after (exec (.crc15 (bits 18 0b101010101010000000)) node)).io.rsp = .crc 0x674C := by decide +kernel

/-! ### Transmitter -/

/-- V-TX4: `TXBITS`, `TXLEN` and `TXNDATA` of the clamped frame. -/
theorem test_txBuild :
    (after (exec .txBuild { node with txf := frameS4 })).tx.txbits =
        bits 97 0b0110010000100010000000000100000010000000110000010000000101000001100000011100001000011001100111111 ∧
      (after (exec .txBuild { node with txf := frameS4 })).tx.txlen = 97 ∧
      (after (exec .txBuild { node with txf := frameS4 })).tx.txndata = 82 := by decide +kernel

/-- V-TX1f: the levels driven in 78 bit periods, and the result. -/
theorem test_send_acknowledged :
    (after (exec (.send frameS1) (nodeBus 69))).io.drove =
        bits 78 0b000100100011000010011011110101011011011111001110111110001110011010111111111111 ∧
      (after (exec (.send frameS1) (nodeBus 69))).sendOk = true := by decide +kernel

/-- V-TX1a and V-TX1d: nobody acknowledges; arbitration lost on the last data bit. -/
theorem test_send_fails :
    (after (exec (.send frameS1) node)).io.rsp = .sent false (some .noAck) ∧
      (after (exec (.send frameS1) node)).fc.tec = 8 ∧
      (after (exec (.send frameS1) (nodeBus 51))).io.rsp = .sent false (some .arbitrationLost) ∧
      (after (exec (.send frameS1) (nodeBus 51))).io.drove.length = 52 ∧
      (after (exec (.send frameS1) (nodeBus 52))).io.rsp = .sent false (some .noAck) := by decide +kernel

/-- V-TX1g and R220: in Bus-Off no level is driven and `TEC` stays; `TXF` holds the operand. -/
theorem test_send_busOff :
    (after (exec (.send frameS1) (nodeAt 256 0))).io.drove = [] ∧
      (after (exec (.send frameS1) (nodeAt 256 0))).fc.tec = 256 ∧
      (after (exec (.send frameS1) (nodeAt 256 0))).txf = frameS1 := by decide +kernel

/-! ### Receiver -/

/-- V-RX9: too early, on time, and the wrap of the clock. -/
theorem test_read_scheduler :
    (after (exec (.read 7) node)).rx.lastsample = 0 ∧ (after (exec (.read 8) node)).rx.lastsample = 8 ∧
      (after (exec (.read 4) { node with rx := { node.rx with lastsample := 0xFFFFFFFC } })).rx.lastsample = 4 := by
  decide +kernel

/-- The node in a frame with this acknowledge countdown and line level. -/
def nodeDue (a : BitVec 2) (l : Level) : State :=
  { nodeRun .frame recessive 3 with
    rx := { (nodeRun .frame recessive 3).rx with ackcnt := a }, pin := { txdir := .output, txlvl := l } }

/-- V-RX1, periods 68 and 69: the `READ` of period 68 leaves the line dominant, that of period 69 ends it. -/
theorem test_read_acknowledges :
    (after (exec (.read 8) (nodeDue 2 recessive))).io.drove = [recessive] ∧
      (after (exec (.read 8) (nodeDue 2 recessive))).pin = { txdir := .output, txlvl := dominant } ∧
      (after (exec (.read 8) (nodeDue 1 dominant))).io.drove = [dominant] ∧
      (after (exec (.read 8) (nodeDue 1 dominant))).pin = { txdir := .output, txlvl := recessive } ∧
      (after (exec (.read 8) (nodeDue 1 dominant))).rx.ackcnt = 0 := by decide +kernel

/-- R172: the node drives the slot on its own, and for one bit period, when no `READ` comes. -/
theorem test_acknowledge_without_read :
    (after (step (nodeDue 1 dominant))).io.drove = [dominant] ∧
      (after (step (nodeDue 1 dominant))).pin = { txdir := .output, txlvl := recessive } ∧
      (after (step (after (step (nodeDue 1 dominant))))).io.drove = [recessive] := by decide +kernel

/-- R168: the 129th appended bit overflows the default buffer; a larger one (R4) takes it. -/
theorem test_overflow :
    (after (exec (.rxStep dominant) (nodeBuf (List.replicate 128 recessive)))).io.rsp = .status .frameError (some .overflow) ∧
      (after (exec (.rxStep dominant)
        { nodeBuf (List.replicate 128 recessive) with par := { rxbufBits := 129 } })).rx.rxcnt = 129 := by decide +kernel

/-- V-RX1, period 0 (start of frame), and V-DEC2 (sixth dominant bit: `REC` 1). -/
theorem test_rxStep :
    (after (exec (.rxStep dominant) node)).rx.rxs = .sof ∧ (after (exec (.rxStep dominant) node)).rx.run = 1 ∧
      (after (exec (.rxStep dominant) (nodeRun .frame dominant 5))).io.rsp = .status .frameError (some .stuffError) ∧
      (after (exec (.rxStep dominant) (nodeRun .frame dominant 5))).fc.rec_ = 1 := by decide +kernel

/-- The receive buffer of V-RX1 at its `MessageOk`. -/
def bufS1 : List Level := bits 72 0b001001000110000100110111101010110110111110111011111001110011010111011111

/-- V-RX8: a good buffer delivers its fields. -/
theorem test_rxDecode :
    (after (exec .rxDecode (nodeBuf bufS1))).rxf.id = 0x123 ∧ (after (exec .rxDecode (nodeBuf bufS1))).rxf.dlc = 4 ∧
      (after (exec .rxDecode (nodeBuf bufS1))).rxf.data.d0 = 0xDE ∧ (after (exec .rxDecode (nodeBuf bufS1))).rxf.data.d3 = 0xEF := by
  decide +kernel

/-- V-RX8: 18 zeros, 33 bits with a wrong last one. -/
theorem test_rxDecode_errors :
    (after (exec .rxDecode (nodeBuf (bits 17 0)))).io.rsp = .decoded (.err .short) ∧
      (after (exec .rxDecode (nodeBuf (bits 18 0)))).io.rsp = .decoded (.err .length) ∧
      (after (exec .rxDecode (nodeBuf (bits 33 1)))).io.rsp = .decoded (.err .crcMismatch) := by decide +kernel

/-- V-RX1, period 67: the check at the last CRC bit arms the acknowledge. -/
theorem test_ackCheck :
    (after (exec .ackCheck (nodeBuf (bufS1.take 65)))).rx.ackcnt = 2 ∧
      (after (exec .ackCheck (nodeBuf (bufS1.take 64)))).rx.ackcnt = 0 := by decide +kernel

/-- V-RX7d: a remote frame of length 0 is taken as a data frame. -/
theorem test_df0_remote :
    (after (exec (.df0 { wire0 with ctl := 4, crc := 0x1B9D }) node)).rxf.id = 0x123 ∧
      (after (exec (.df0 { wire0 with ctl := 4, crc := 0x1B9D }) node)).rx.rxs = .idle ∧
      (after (exec (.df0 { wire0 with ctl := 4, crc := 0x1B9C }) node)).fc.rec_ = 1 := by decide +kernel

/-- V-RX7g: a remote frame whose DLC announces four bytes is no frame format; it ends as `FrameError(Length)` at the seventh
of the ten recessive bits that end it, with 38 bits in the buffer, unacknowledged. -/
theorem test_remote_is_length_error :
    decode (.frame (frameBits remoteG)) = .error .badDlc ∧
      (after (step (present (.frame (frameBits remoteG)) node))).io.rsp =
        .statuses (List.replicate ((wireImage remoteG).length - 4) (.noMessage, none) ++ (.frameError, some .length) ::
          List.replicate 3 (.noMessage, none)) ∧
      (after (step (present (.frame (frameBits remoteG)) node))).rx.rxcnt = 38 ∧
      (after (step (present (.frame (frameBits remoteG)) node))).fc.rec_ = 1 ∧
      dominant ∉ (after (step (present (.frame (frameBits remoteG)) node))).io.drove := by decide +kernel

/-- R69, R165, R167 and V-RX7f: bits with no start-of-frame bit leave the receiver idle; four bytes under a raw DLC of 9 are a
length error. -/
theorem test_bits_of_no_format :
    (after (step (present (.frame (bits 20 0xFFFFF)) node))).rx.rxs = .idle ∧
      decode (.frame (frameBits shortF)) = .error .badDlc ∧
      (after (step (present (.frame (frameBits shortF)) node))).io.rsp =
        .statuses (List.replicate ((wireImage shortF).length - 4) (.noMessage, none) ++ (.frameError, some .length) ::
          List.replicate 3 (.noMessage, none)) := by decide +kernel

/-- R61, R170, R216: with a dominant ACK delimiter the frame ends in its last bit period, and the ports show it. -/
theorem test_df0_ports :
    (after (exec (.df0 { wire0 with ackDel := dominant }) node)).outPorts.readStatus = some 1 ∧
      (after (exec (.df0 { wire0 with ackDel := dominant }) node)).outPorts.rxId = some 0x123 ∧
      (after (exec (.df0 wire0) node)).outPorts.readStatus = some 0 ∧
      (after (exec (.df0 wire0) node)).outPorts.rxId = none := by decide +kernel

/-- V-RX1 as one frame format: delivered in the bit period before the last, acknowledged in period 69. -/
theorem test_df4 :
    (after (exec (.df4 { wire0 with rawDlc := 4, data := [0xDE, 0xAD, 0xBE, 0xEF], crc := 0x4E6B }) node)).io.rsp =
        .statuses (List.replicate 76 (.noMessage, none) ++ [(.messageOk, none), (.noMessage, none)]) ∧
      (after (exec (.df4 { wire0 with rawDlc := 4, data := [0xDE, 0xAD, 0xBE, 0xEF], crc := 0x4E6B }) node)).io.drove =
        List.replicate 69 recessive ++ [dominant] ++ List.replicate 8 recessive := by decide +kernel

/-! ### Fault confinement -/

/-- V-FC1. -/
theorem test_classify :
    (after (exec .classify { node with fc := { tec := 127, rec_ := 128, state := .errorActive } })).fc.state = .errorPassive ∧
      (after (exec .classify { node with fc := { tec := 255, rec_ := 255, state := .errorActive } })).fc.state = .errorPassive ∧
      (after (exec .classify { node with fc := { tec := 0, rec_ := 256, state := .errorActive } })).fc.state = .busOff := by
  decide +kernel

/-- V-FC2. -/
theorem test_onTxFailure :
    (after (exec .onTxFailure (nodeAt 255 0))).fc = { tec := 263, rec_ := 0, state := .busOff } ∧
      (after (exec .onTxFailure (nodeAt 256 0))).fc = { tec := 256, rec_ := 0, state := .busOff } := by decide +kernel

/-- V-FC2. -/
theorem test_onRxFailure :
    (after (exec .onRxFailure (nodeAt 0 127))).fc = { tec := 0, rec_ := 128, state := .errorPassive } := by decide +kernel

/-- V-FC2. -/
theorem test_onTxSuccess :
    (after (exec .onTxSuccess (nodeAt 128 200))).fc = { tec := 127, rec_ := 200, state := .errorPassive } ∧
      (after (exec .onTxSuccess (nodeAt 0 0))).fc.tec = 0 := by decide +kernel

/-- V-FC2. -/
theorem test_onRxSuccess :
    (after (exec .onRxSuccess (nodeAt 0 128))).fc = { tec := 0, rec_ := 127, state := .errorActive } := by decide +kernel

/-! ### Steps -/

/-- R217: a step runs what a table word presents. -/
theorem test_step_runs_fetch_word :
    completes (step (State.withFetchWord State.reset 8 0)) = true ∧
      after (step (State.withFetchWord State.reset 8 0)) = { State.reset with io := { State.reset.io with rsp := .done } } ∧
      refusalOf (step (State.withFetchWord State.reset 8 3)) = some .notConfigured := by
  decide +kernel

/-- P3: the bus of two senders in bit period 2, where 0x200 drives recessive and 0x100 dominant. -/
theorem test_bus_arbitration :
    busLevel [{ txStart { frame0 with id := 0x200 } node with tx := { (txStart { frame0 with id := 0x200 } node).tx with
        txph := .txBody, txidx := 1, enclast := dominant, encrun := 2 } },
      { txStart { frame0 with id := 0x100 } node with tx := { (txStart { frame0 with id := 0x100 } node).tx with
        txph := .txBody, txidx := 1, enclast := dominant, encrun := 2 } }] = dominant := by decide +kernel

/-! ### Witnesses: for every statement with hypotheses, a state and operands that meet all of them -/

/-- Both ends of each of the two ranges. -/
theorem witness_BeginConfiguresTheNode :
    (1 ≤ (1#32).toNat ∧ (1#32).toNat ≤ 1000000) ∧ (1 ≤ (1000000#32).toNat ∧ (1000000#32).toNat ≤ 1000000) ∧
      (0#32).toNat = 0 ∧ 1000000 < (1000001#32).toNat := by decide

theorem witness_UnconfiguredNodeRefuses :
    State.reset.cfg.configured = false ∧ Instr.ofFormat 0 wire0 = some (.df0 wire0) := by decide

/-- The clauses on the level: dominant, released, recessive; with and without another node's level. -/
theorem witness_SampleRxReturnsTheBusLevel :
    ((driveDominant node).pin.txdir = .output ∧ (driveDominant node).pin.txlvl = dominant) ∧
      ((release node).pin.txdir = .input ∧ node.pin.txlvl = recessive) ∧
      (nodeBus 0).io.other = dominant :: [] ∧ node.io.other = [] := by decide

/-- The acknowledging receiver and the idle one: a dominant and a recessive bus. -/
theorem witness_EveryNodeSamplesTheWiredAnd :
    0 < [node, driveDominant node].length ∧ driveOf (driveDominant node) = dominant ∧ driveOf node = recessive := by decide

/-- Runs 1 and 4, the fifth bit of a run and one that starts a run. -/
theorem witness_EncBitStuffsAfterFive :
    (1 ≤ (4#3).toNat ∧ (4#3).toNat ≤ 4 ∧ 5 = if dominant = dominant then (4#3).toNat + 1 else 1) ∧
      (1 ≤ (1#3).toNat ∧ (1#3).toNat ≤ 4 ∧ 2 = if dominant = dominant then (1#3).toNat + 1 else 1) ∧
      (1 = if recessive = dominant then (4#3).toNat + 1 else 1) := by decide

theorem witness_StuffedRegionHasNoRunOfSix :
    exec (.encSeq (bits 5 0b00000)) node = .next (after (exec (.encSeq (bits 5 0b00000)) node)) ∧
      (after (exec (.encSeq (bits 5 0b00000)) node)).io.rsp = .bits (bits 6 0b000010) ∧
      0 + 6 ≤ (dominant :: bits 6 0b000010).length := ⟨rfl, by decide +kernel, by decide +kernel⟩

/-- A state for each of the seven branches. -/
theorem witness_DecBitDestuffs :
    (∀ s ∈ [nodeRun .frame dominant 1, nodeRun .frame recessive 4, nodeRun .frame dominant 5, nodeRun .frame recessive 5,
        nodeRun .frame recessive 6],
      1 ≤ s.rx.run.toNat ∧ s.rx.run.toNat ≤ 6 ∧ (s.rx.run.toNat = 6 → s.rx.lastbit = recessive)) ∧
      (nodeRun .frame dominant 1).rx.run.toNat < 5 ∧ (nodeRun .frame recessive 4).rx.run.toNat < 5 ∧
      (nodeRun .frame dominant 5).rx.run.toNat = 5 ∧ (nodeRun .frame recessive 5).rx.run.toNat = 5 ∧
      (nodeRun .frame recessive 6).rx.run.toNat = 6 := by decide +kernel

theorem witness_DecoderInvertsEncoder :
    exec (.encSeq (bits 9 0b000011111)) node = .next (after (exec (.encSeq (bits 9 0b000011111)) node)) ∧
      (after (exec (.encSeq (bits 9 0b000011111)) node)).io.rsp = .bits (bits 11 0b00001111101) ∧
      exec .decInit node = .next (after (exec .decInit node)) := ⟨rfl, by decide +kernel, rfl⟩

/-- Length operands 0, 8 and 255. -/
theorem witness_TxBuildLaysOutTheFrame :
    0 = min (0#8).toNat 8 ∧ 8 = min (8#8).toNat 8 ∧ 8 = min (255#8).toNat 8 := by decide

theorem witness_SendInBusOffIsMute : (nodeAt 256 0).cfg.configured = true ∧ (nodeAt 256 0).fc.state = .busOff := by decide

theorem witness_SendIsOneFunctionOfFrameAndBus :
    (nodeBus 69).cfg.configured = true ∧ (nodeBus 69).fc.state ≠ .busOff ∧
      (nodeAt 256 0).cfg.configured = true ∧ (nodeAt 256 0).fc.state = .busOff ∧
      (sendWhole (nodeBus 69).fc frameS1 (fun p => (nodeBus 69).io.other.getD p recessive)).ok = true := by decide +kernel

/-- Each of the four outcomes (V-TX1f, V-TX1a, V-TX1b, V-TX1g). -/
theorem witness_SendTakesTheStatedPeriods :
    (∀ s ∈ [nodeBus 69, node, nodeBus 3, nodeAt 256 0], exec (.send frameS1) s = .next (after (exec (.send frameS1) s))) ∧
      exec (.encSeq (txLogical frameS1)) node = .next (after (exec (.encSeq (txLogical frameS1)) node)) ∧
      (after (exec (.encSeq (txLogical frameS1)) node)).io.rsp = .bits (encSeq (txLogical frameS1)) ∧
      4 = min frameS1.dlc.toNat 8 ∧ 68 = 1 + (encSeq (txLogical frameS1)).length ∧
      (after (exec (.send frameS1) (nodeBus 69))).io.rsp = .sent true none ∧
      (after (exec (.send frameS1) node)).io.rsp = .sent false (some .noAck) ∧
      (after (exec (.send frameS1) (nodeBus 3))).io.rsp = .sent false (some .arbitrationLost) ∧
      (after (exec (.send frameS1) (nodeAt 256 0))).io.rsp = .sent false (some .busOff) := by
  refine ⟨?_, rfl, rfl, by decide +kernel, by decide +kernel, by decide +kernel, by decide +kernel, by decide +kernel,
    by decide +kernel⟩
  intro s hs
  exact eq_next_after ((show ∀ s ∈ [nodeBus 69, node, nodeBus 3, nodeAt 256 0], completes (exec (.send frameS1) s) = true by
    decide +kernel) s hs)

/-- The loss on the last data bit (V-TX1d). -/
theorem witness_ArbitrationLossScoresNothing :
    exec (.send frameS1) (nodeBus 51) = .next (after (exec (.send frameS1) (nodeBus 51))) ∧
      (after (exec (.send frameS1) (nodeBus 51))).io.rsp = .sent false (some .arbitrationLost) :=
  ⟨eq_next_after (by decide +kernel), by decide +kernel⟩

/-- Length operands 8 and 255. -/
theorem witness_SendClampsTheLength :
    8 ≤ (8#8).toNat ∧ 8 ≤ (255#8).toNat ∧
      exec (.send { frameS4 with dlc := 8 }) node = .next (after (exec (.send { frameS4 with dlc := 8 }) node)) ∧
      exec (.send { frameS4 with dlc := 255 }) node = .next (after (exec (.send { frameS4 with dlc := 255 }) node)) :=
  ⟨by decide, by decide, eq_next_after (by decide +kernel), eq_next_after (by decide +kernel)⟩

theorem witness_SendEmitsItsFrameFormat :
    exec (.send frameS1) (nodeBus 69) = .next (after (exec (.send frameS1) (nodeBus 69))) ∧
      (after (exec (.send frameS1) (nodeBus 69))).io.rsp = .sent true none :=
  ⟨eq_next_after (by decide +kernel), by decide +kernel⟩

theorem witness_UnacknowledgedSendsReachBusOff :
    node.cfg.configured = true ∧ fcIs node.fc 0 0 ∧ node.io.other = [] := by
  refine ⟨by decide, ?_, by decide⟩
  unfold fcIs classNat
  decide

theorem witness_SendIgnoresTheReceiver :
    exec (.send frame0) (nodeBus 36) = .next (after (exec (.send frame0) (nodeBus 36))) :=
  eq_next_after (by decide +kernel)

/-- A `READ` waits on the command port meanwhile. -/
theorem witness_BusyStepsMakeTheWholeSend :
    (present (.command (CmdPorts.ofCode 3)) (nodeBus 36)).cfg.configured = true ∧
      (present (.command (CmdPorts.ofCode 3)) (nodeBus 36)).fc.state ≠ .busOff ∧
      (present (.command (CmdPorts.ofCode 3)) (nodeBus 36)).io.host.head? = some (.command (CmdPorts.ofCode 3)) ∧
      exec (.send frame0) (present (.command (CmdPorts.ofCode 3)) (nodeBus 36)) =
        .next (after (exec (.send frame0) (present (.command (CmdPorts.ofCode 3)) (nodeBus 36)))) :=
  ⟨by decide, by decide, by decide, eq_next_after (by decide +kernel)⟩

theorem witness_ReadInBusOffIsMute : (nodeAt 0 256).cfg.configured = true ∧ (nodeAt 0 256).fc.state = .busOff := by decide

/-- The last clock value refused and the first accepted (V-RX9). -/
theorem witness_ReadSchedulerKeepsItsPhase :
    node.cfg.configured = true ∧ node.fc.state ≠ .busOff ∧
      recessive = (node.drive && node.io.other.headD recessive) ∧
      (7#32 - node.rx.lastsample).toNat < node.cfg.bittime.toNat ∧
      node.cfg.bittime.toNat ≤ (8#32 - node.rx.lastsample).toNat := by decide

/-- The node in the bit period of its acknowledge, with a good frame in its buffer. -/
def nodeAck : State :=
  { nodeBuf bufS1 with
    rx := { (nodeBuf bufS1).rx with ackcnt := 1 }, pin := { txdir := .output, txlvl := dominant } }

theorem witness_ReadIsOneFunctionOfClockAndLevel :
    nodeAck.cfg.configured = true ∧
      dominant = (nodeAck.drive && nodeAck.io.other.headD recessive) ∧
      recessive = (node.drive && node.io.other.headD recessive) := by decide +kernel

/-- A `READ` that leaves the acknowledge due and the one after it, one in the period of the acknowledge, one with none due. -/
theorem witness_AcknowledgeIsDrivenForOnePeriod :
    (∀ s ∈ [nodeDue 2 recessive, nodeAck, node], s.cfg.configured = true ∧ s.fc.state ≠ .busOff ∧ s.busy = false ∧
      s.cfg.bittime.toNat ≤ (8#32 - s.rx.lastsample).toNat ∧ completes (exec (.read 8) s) = true) ∧
      (after (exec (.read 8) (nodeDue 2 recessive))).rx.ackcnt = 1 ∧
      (after (exec (.read 8) (nodeDue 2 recessive))).cfg.bittime.toNat ≤
        (16#32 - (after (exec (.read 8) (nodeDue 2 recessive))).rx.lastsample).toNat ∧
      nodeAck.rx.ackcnt = 1 ∧ (after (exec (.read 8) nodeAck)).rx.ackcnt ≠ 1 ∧
      node.rx.ackcnt ≠ 1 ∧ (after (exec (.read 8) node)).rx.ackcnt ≠ 1 := by decide +kernel

/-- An idle receiver, and one after a start of frame. -/
theorem witness_RxStepStartsAFrame :
    node.rx.rxs = .idle ∧ (nodeRun .sof dominant 1).rx.rxs = .sof ∧
      node.rx = { node.rx with ackcnt := if node.rx.ackcnt = 0 then 0 else node.rx.ackcnt - 1 } := by decide

/-- A buffer with room for its last bit, and a full one, of the default capacity and of one more. -/
theorem witness_AppendStoresOneBit :
    (∀ n ∈ [127, 128], (nodeBuf (List.replicate n recessive)).rx.rxbuf.wf = true ∧
      (nodeBuf (List.replicate n recessive)).rx.rxs = .frame ∧ (nodeBuf (List.replicate n recessive)).rx.run.toNat < 5 ∧
      (nodeBuf (List.replicate n recessive)).rx.rxcnt = n ∧
      n ≤ (nodeBuf (List.replicate n recessive)).par.rxbufBits) ∧
      127 < node.par.rxbufBits ∧ 128 = node.par.rxbufBits ∧
      128 < ({ node with par := { rxbufBits := 129 } } : State).par.rxbufBits := by decide +kernel

/-- A `READ` that appends, one that does not, and a command. -/
theorem witness_CommandsStoreOnlyByAppend :
    exec (.read 8) (nodeBuf bufS1) = .next (after (exec (.read 8) (nodeBuf bufS1))) ∧
      exec (.read 0) (nodeBuf bufS1) = .next (after (exec (.read 0) (nodeBuf bufS1))) ∧
      (after (exec (.read 0) (nodeBuf bufS1))).rx.rxcnt = (nodeBuf bufS1).rx.rxcnt ∧
      exec .nop (nodeBuf bufS1) = .next (after (exec .nop (nodeBuf bufS1))) :=
  ⟨rfl, rfl, rfl, rfl⟩

/-- The seventh recessive bit with a good buffer behind it. -/
def nodeEnd : State := { nodeBuf bufS1 with rx := { (nodeBuf bufS1).rx with run := 6, lastbit := recessive } }

/-- Each of the three results. -/
theorem witness_ReceiverExitsScoreTheFrame :
    (∀ s ∈ [node, nodeEnd, nodeRun .frame dominant 5], s.fc.state ≠ .busOff ∧ s.fc.rec_.toNat ≤ 256) ∧
      (after (exec (.rxStep recessive) node)).io.rsp = .status .noMessage none ∧
      (after (exec (.rxStep recessive) nodeEnd)).io.rsp = .status .messageOk none ∧
      (after (exec (.rxStep dominant) (nodeRun .frame dominant 5))).io.rsp = .status .frameError (some .stuffError) := by
  decide +kernel

/-- Each of the four verdicts, the first three at the boundary of their range (V-RX8). -/
theorem witness_RxDecodeChecksThenDelivers :
    17 = (nodeBuf (bits 17 0)).rx.rxcnt ∧ 17 < 18 ∧
      32 = (nodeBuf (bits 32 0)).rx.rxcnt ∧ 0 = min ((nodeBuf (bits 32 0)).rx.rxbuf.field 14 4).toNat 8 ∧
      18 ≤ 32 ∧ 32 < 33 + 8 * 0 ∧
      33 = (nodeBuf (bits 33 1)).rx.rxcnt ∧ 0 = min ((nodeBuf (bits 33 1)).rx.rxbuf.field 14 4).toNat 8 ∧
      crcOf ((nodeBuf (bits 33 1)).rx.rxbuf.range 0 (18 + 8 * 0)) ≠ (nodeBuf (bits 33 1)).rx.rxbuf.field (18 + 8 * 0) 15 ∧
      72 = (nodeBuf bufS1).rx.rxcnt ∧ 4 = min ((nodeBuf bufS1).rx.rxbuf.field 14 4).toNat 8 ∧
      crcOf ((nodeBuf bufS1).rx.rxbuf.range 0 (18 + 8 * 4)) = (nodeBuf bufS1).rx.rxbuf.field (18 + 8 * 4) 15 := by
  decide +kernel

/-- The last CRC bit come with a run of 5. -/
def nodeRun5 : State := { nodeBuf (bufS1.take 65) with rx := { (nodeBuf (bufS1.take 65)).rx with run := 5 } }

/-- The last CRC bit come, with a match (with a run short of 5 and a run of 5); one bit before; the last CRC bit come, wrong. -/
theorem witness_AckCheckArmsOnTheLastCrcBit :
    (∀ s ∈ [nodeBuf (bufS1.take 65), nodeRun5], 65 = s.rx.rxcnt ∧ 4 = min (s.rx.rxbuf.field 14 4).toNat 8 ∧ 65 = 33 + 8 * 4 ∧
      crcOf (s.rx.rxbuf.range 0 (18 + 8 * 4)) = s.rx.rxbuf.field (18 + 8 * 4) 15) ∧
      (nodeBuf (bufS1.take 65)).rx.run ≠ 5 ∧ nodeRun5.rx.run = 5 ∧
      64 = (nodeBuf (bufS1.take 64)).rx.rxcnt ∧ 4 = min ((nodeBuf (bufS1.take 64)).rx.rxbuf.field 14 4).toNat 8 ∧
      64 ≠ 33 + 8 * 4 ∧
      33 = (nodeBuf (bits 33 1)).rx.rxcnt ∧ 0 = min ((nodeBuf (bits 33 1)).rx.rxbuf.field 14 4).toNat 8 ∧ 33 = 33 + 8 * 0 ∧
      crcOf ((nodeBuf (bits 33 1)).rx.rxbuf.range 0 (18 + 8 * 0)) ≠ (nodeBuf (bits 33 1)).rx.rxbuf.field (18 + 8 * 0) 15 := by
  decide +kernel

theorem node_ready : ReadyToReceive node :=
  ⟨by decide, by decide, by decide, by decide, by decide, by decide, by decide⟩

theorem node_good : node.fc.Good := ⟨by decide, by decide, by decide⟩

theorem witness_FrameFormatsAreOneReadPerBitPeriod :
    Instr.ofFormat 0 wire0 = some (.df0 wire0) ∧ node.cfg.configured = true := by decide

/-- DF8 with raw DLC 12 and DF0, both with a good CRC. -/
theorem witness_GoodFrameIsDeliveredAndAcknowledged :
    Instr.ofFormat 8 { wire0 with id := 0x321, rawDlc := 12, data := [1, 2, 3, 4, 5, 6, 7, 8], crc := 0x5BDE } =
        some (.df8 { wire0 with id := 0x321, rawDlc := 12, data := [1, 2, 3, 4, 5, 6, 7, 8], crc := 0x5BDE }) ∧
      (Instr.df8 { wire0 with id := 0x321, rawDlc := 12, data := [1, 2, 3, 4, 5, 6, 7, 8], crc := 0x5BDE }).wellFormed = true ∧
      (0x5BDE : BitVec 15) =
        crcOf (coveredBits { wire0 with id := 0x321, rawDlc := 12, data := [1, 2, 3, 4, 5, 6, 7, 8], crc := 0x5BDE }) ∧
      Instr.ofFormat 0 wire0 = some (.df0 wire0) ∧ (Instr.df0 wire0).wellFormed = true ∧
      wire0.crc = crcOf (coveredBits wire0) ∧ wire0.crcDel = recessive ∧ wire0.ackDel = recessive ∧
      ReadyToReceive node ∧ node.fc.Good :=
  ⟨by decide, by decide, by decide +kernel, by decide, by decide, by decide +kernel, by decide, by decide, node_ready, node_good⟩

theorem witness_WrongCrcIsOneFrameErrorAndNoAck :
    Instr.ofFormat 0 { wire0 with crc := 0x6859 } = some (.df0 { wire0 with crc := 0x6859 }) ∧
      (Instr.df0 { wire0 with crc := 0x6859 }).wellFormed = true ∧
      (0x6859 : BitVec 15) ≠ crcOf (coveredBits { wire0 with crc := 0x6859 }) ∧ wire0.crcDel = recessive ∧
      wire0.ackDel = recessive ∧ ReadyToReceive node ∧ node.fc.Good :=
  ⟨by decide, by decide, by decide +kernel, by decide, by decide, node_ready, node_good⟩

theorem witness_RoundTripFromSenderToReceiver :
    exec (.send frameS4) (nodeBus 108) = .next (after (exec (.send frameS4) (nodeBus 108))) ∧
      (after (exec (.send frameS4) (nodeBus 108))).io.rsp = .sent true none ∧ ReadyToReceive node :=
  ⟨eq_next_after (by decide +kernel), by decide +kernel, node_ready⟩

/-- The largest counters a run reaches. -/
theorem witness_HooksMoveTheCounters :
    (nodeAt 263 256).fc.tec.toNat ≤ 263 ∧ (nodeAt 263 256).fc.rec_.toNat ≤ 256 ∧ (nodeAt 263 256).fc.state = .busOff ∧
      (nodeAt 0 0).fc.tec.toNat ≤ 263 ∧ (nodeAt 0 0).fc.state ≠ .busOff := by decide

/-- A `READ`, a `BEGIN`, a reset, and nothing presented. -/
theorem witness_BusOffIsLeftOnlyByBeginOrReset :
    ∀ s ∈ [present (.command (CmdPorts.ofCode 3)) (nodeAt 256 0),
        present (.command { CmdPorts.ofCode 1 with baud := 125000 }) (nodeAt 256 0),
        present (.construct 4 5) (nodeAt 256 0), nodeAt 256 0],
      s.busy = false ∧ s.fc.state = .busOff ∧ s.cfg.configured = true ∧ s.rx.ackcnt ≠ 1 ∧ s.drive = recessive ∧
        completes (step s) = true := by decide +kernel

/-- A `SEND` and a `READ` of each result. -/
theorem witness_CountersFollowTheOutcome :
    exec (.send frame0) node = .next (after (exec (.send frame0) node)) ∧
      exec (.read 8) nodeEnd = .next (after (exec (.read 8) nodeEnd)) ∧
      (after (exec (.read 8) nodeEnd)).readStatus = .messageOk ∧
      (after (exec (.read 8) (nodeRun .frame recessive 6))).readStatus = .frameError ∧
      (after (exec (.read 8) node)).readStatus = .noMessage ∧ exec .nop node = .next (after (exec .nop node)) :=
  ⟨eq_next_after (by decide +kernel), eq_next_after (by decide +kernel), by decide +kernel, by decide +kernel,
    by decide +kernel, rfl⟩

theorem witness_DecodeInvertsEncode :
    (Instr.df0 wire0).wellFormed = true ∧ encode (.df0 wire0) = some (.frame (frameBits wire0)) ∧
      Instr.wellFormed (.send frameS1) = true ∧ (encode (.send frameS1)).isSome = true := by decide

theorem witness_FrameBitsHaveOneReading : decode (.frame (frameBits wire0)) = .ok (.df0 wire0) := by decide +kernel

theorem witness_InternalOperationsHaveNoEncoding : decode (.frame (frameBits wire0)) = .ok (.df0 wire0) := by decide +kernel

/-- A word that decodes, one that does not, and nothing presented. -/
theorem witness_StepRunsWhatIsPresented :
    (present (.construct 4 5) node).busy = false ∧ (present (.construct 4 5) node).io.host = .construct 4 5 :: [] ∧
      decode (.construct 4 5) = .ok (.new 4 5) ∧ (present (.frame []) node).io.host = .frame [] :: [] ∧
      decode (.frame []) = .error .badLength ∧ node.busy = false ∧ node.io.host = [] ∧ node.cfg.configured = true ∧
      State.reset.busy = false ∧ State.reset.io.host = [] ∧ State.reset.cfg.configured = false := by decide

/-- The three forms of the bits, with their levels, on a configured node, and a node before its first `BEGIN`. -/
theorem witness_BitsOfNoFormatAreReceivedToo :
    (present (.frame (frameBits remoteG)) node).busy = false ∧
      (present (.frame (frameBits remoteG)) node).io.host = .frame (frameBits remoteG) :: [] ∧
      (present (.frame (frameBits remoteG)) node).cfg.configured = true ∧
      decode (.frame (frameBits remoteG)) = .error .badDlc ∧
      frameBits remoteG = List.replicate 0 recessive ++ dominant :: (frameLogical remoteG ++ frameTail remoteG) ∧
      (frameTail remoteG).length = 10 ∧
      decode (.frame (recessive :: dominant :: bits 9 0)) = .error .badLength ∧
      recessive :: dominant :: bits 9 0 = List.replicate 1 recessive ++ dominant :: bits 9 0 ∧ (bits 9 0).length < 10 ∧
      decode (.frame (List.replicate 44 recessive)) = .error .badSof ∧
      (present (.frame []) State.reset).busy = false ∧ (present (.frame []) State.reset).io.host = .frame [] :: [] ∧
      decode (.frame []) = .error .badLength ∧ [] = List.replicate 0 recessive ∧
      (present (.frame []) State.reset).cfg.configured = false := by decide +kernel

/-- A command that waits, and the reset. -/
theorem witness_CommandsWaitWhileBusy :
    (txStart frame0 node).busy = true ∧
      ({ txStart frame0 node with io := { node.io with host := [.command (CmdPorts.ofCode 3)] } } : State).io.host.head? =
        some (.command (CmdPorts.ofCode 3)) ∧
      ({ txStart frame0 node with io := { node.io with host := [.construct 4 5] } } : State).io.host = .construct 4 5 :: [] := by
  decide +kernel

/-- `NOP`, a `READ` of either result, a frame format that ends in either. -/
theorem witness_ReceiveFrameShownOnlyAfterMessageOk :
    exec .nop node = .next (after (exec .nop node)) ∧ exec (.read 8) nodeEnd = .next (after (exec (.read 8) nodeEnd)) ∧
      (after (exec (.read 8) nodeEnd)).readStatus = .messageOk ∧
      exec (.read 8) node = .next (after (exec (.read 8) node)) ∧ (after (exec (.read 8) node)).readStatus ≠ .messageOk ∧
      Instr.ofFormat 0 { wire0 with ackDel := dominant } = some (.df0 { wire0 with ackDel := dominant }) ∧
      exec (.df0 { wire0 with ackDel := dominant }) node =
        .next (after (exec (.df0 { wire0 with ackDel := dominant }) node)) ∧
      (after (exec (.df0 { wire0 with ackDel := dominant }) node)).readStatus = .messageOk ∧
      (after (exec (.df0 wire0) node)).readStatus ≠ .messageOk :=
  ⟨rfl, eq_next_after (by decide +kernel), by decide +kernel, rfl, by decide +kernel, by decide,
    eq_next_after (by decide +kernel), by decide +kernel, by decide +kernel⟩

theorem witness_TheParametersNeverChange :
    exec .nop node = .next (after (exec .nop node)) ∧ step node = .next (after (step node)) := ⟨rfl, rfl⟩

/-- A configured node between operations, and one in the bit period of its acknowledge. -/
theorem witness_EveryStepKeepsTheInvariant :
    node.Inv ∧ nodeAck.Inv ∧ step node = .next (after (step node)) ∧ step nodeAck = .next (after (step nodeAck)) := by
  refine ⟨⟨⟨?_, ?_, ?_⟩, ?_, ?_, ?_, fun _ => ⟨?_, ?_, ?_, ?_, ?_⟩, ?_, ?_, ?_, ?_, ?_⟩,
    ⟨⟨?_, ?_, ?_⟩, ?_, ?_, ?_, fun _ => ⟨?_, ?_, ?_, ?_, ?_⟩, ?_, ?_, ?_, ?_, ?_⟩, rfl, rfl⟩ <;>
  decide +kernel

end Sys2Proof.Tests
end

section
/-! Bits that pass on the wire are received one `READ` per bit period: a whole run of `readPeriods` is the run of single `READ`s
(`reads`), since the receiver writes the outputs of the last step, `drove` and `rsp`, and never reads them. -/

namespace Sys2Proof.Machine

open Sys2Proof.Statements

/-- A state with other outputs of the last step: the levels driven and the response. -/
def withOutputs (d : List Level) (r : Response) (s : State) : State :=
  { s with io := { s.io with drove := d, rsp := r } }

theorem opStart_eq_withOutputs (s : State) : opStart s = withOutputs [] .none s := rfl

/-! ### The receiver does not read the outputs -/

theorem rxFrame_withOutputs (smp : Level) (d : List Level) (r : Response) (s : State) :
    rxFrame smp (withOutputs d r s) = ((rxFrame smp s).1, withOutputs d r (rxFrame smp s).2) := by
  cases he : (s.rx.decBit smp).1 with
  | append b =>
    by_cases hn : (s.rx.decBit smp).2.rxcnt = s.par.rxbufBits
    · rw [rxFrame_overflow smp b s he hn, rxFrame_overflow smp b (withOutputs d r s) he hn]; rfl
    · rw [rxFrame_stored smp b s he hn, rxFrame_stored smp b (withOutputs d r s) he hn]; rfl
  | drop => rw [rxFrame_silent smp s (.inl he), rxFrame_silent smp (withOutputs d r s) (.inl he)]; rfl
  | hold => rw [rxFrame_silent smp s (.inr he), rxFrame_silent smp (withOutputs d r s) (.inr he)]; rfl
  | frameEnd =>
    cases hv : (s.rx.decBit smp).2.verdict with
    | none => rw [rxFrame_good smp s he hv, rxFrame_good smp (withOutputs d r s) he hv]; rfl
    | some c => rw [rxFrame_bad smp s c he hv, rxFrame_bad smp (withOutputs d r s) c he hv]; rfl
  | stuffError => rw [rxFrame_stuffError smp s he, rxFrame_stuffError smp (withOutputs d r s) he]; rfl

theorem rxStep_withOutputs (smp : Level) (d : List Level) (r : Response) (s : State) :
    rxStep smp (withOutputs d r s) = ((rxStep smp s).1, withOutputs d r (rxStep smp s).2) := by
  by_cases hi : s.rx.rxs = .idle
  · cases smp with
    | false => rw [rxStep_idle_dominant s hi, rxStep_idle_dominant (withOutputs d r s) hi]; rfl
    | true => rw [rxStep_idle_recessive s hi, rxStep_idle_recessive (withOutputs d r s) hi]; rfl
  · rw [rxStep_frame smp s hi, rxStep_frame smp (withOutputs d r s) hi]
    exact rxFrame_withOutputs smp d r { s with rx := { s.rx.countDown with rxs := .frame } }

theorem ackDrive_withOutputs (d : List Level) (r : Response) (s : State) :
    ackDrive (withOutputs d r s) = withOutputs d r (ackDrive s) :=
  (apply_ite (withOutputs d r) (s.ackDue = true) (driveDominant s) s).symm

/-! ### One bit period -/

theorem readPeriod_cfg (l : Level) (s : State) : (readPeriod l s).2.cfg = s.cfg := by
  by_cases hb : s.fc.state = .busOff
  · rw [readPeriod_busOff l s hb]; simp
  · rw [readPeriod_active l s hb]
    exact (ackDrive_cfg _).trans (rxStep_kept _ (slotState (presentLevel l s))).cfg

theorem restPeriod_withOutputs (d : List Level) (r : Response) (s : State) (hc : s.cfg.configured = true) :
    restPeriod (withOutputs d r s) = withOutputs (d ++ [s.drive]) r (restPeriod s) := by
  rw [restPeriod_configured s hc, restPeriod_configured (withOutputs d r s) hc]; rfl

/-- The bit period of a configured node does not depend on the outputs before it: its level goes after those already put out. -/
theorem readPeriod_withOutputs (l : Level) (d : List Level) (r : Response) (s : State) (hc : s.cfg.configured = true) :
    readPeriod l (withOutputs d r s) = ((readPeriod l s).1, withOutputs (d ++ [s.drive]) r (readPeriod l s).2) := by
  by_cases hb : s.fc.state = .busOff
  · rw [readPeriod_busOff l s hb, readPeriod_busOff l (withOutputs d r s) hb]
    exact congrArg (Prod.mk _) (restPeriod_withOutputs d r (presentLevel l { s with readStatus := .noMessage }) hc)
  · have hs : slotState (presentLevel l (withOutputs d r s)) =
        withOutputs (d ++ [s.drive]) r (slotState (presentLevel l s)) := rfl
    rw [readPeriod_active l s hb, readPeriod_active l (withOutputs d r s) hb, hs, rxStep_withOutputs, ackDrive_withOutputs]
    rfl

/-! ### A run of bit periods -/

/-- The state after one bit period with its `READ`, the outputs being those of this `READ` alone. -/
def afterRead (l : Level) (s : State) : State :=
  withOutputs [s.drive] (.status (readPeriod l s).1.1 (readPeriod l s).1.2) (readPeriod l s).2

theorem afterRead_configured (l : Level) (s : State) (hc : s.cfg.configured = true) :
    (afterRead l s).cfg.configured = true :=
  (congrArg Conf.configured (readPeriod_cfg l s)).trans hc

/-- In Bus-Off the `READ` answers at once and the bit period passes after it (R161). -/
theorem exec_read_busOff (now : BitVec 32) (s : State) (hc : s.cfg.configured = true) (hb : s.fc.state = .busOff) :
    exec (.read now) s =
      .next (withOutputs [] (.status .noMessage (some .busOff)) { s with readStatus := .noMessage }) := by
  rw [exec_read now s hc, readOp_busOff now (opStart s) hb]; rfl

/-- Outside Bus-Off the `READ` at the first clock value the scheduler accepts is the bit period (R162, R163). -/
theorem exec_read_active (l : Level) (s : State) (hc : s.cfg.configured = true) (hb : s.fc.state ≠ .busOff) :
    exec (.read (s.rx.lastsample + s.cfg.bittime)) (presentLevel l s) = .next (afterRead l s) := by
  have hop : readOp (s.rx.lastsample + s.cfg.bittime) (opStart (presentLevel l s)) =
      readPeriod l (withOutputs [] .none s) := (if_neg hb).symm
  rw [exec_read _ (presentLevel l s) hc, hop, readPeriod_withOutputs l [] .none s hc]; rfl

/-- One `READ` of `reads` is one bit period of the model, and the next one starts from its state. -/
theorem reads_cons (l : Level) (ls : List Level) (s : State) (hc : s.cfg.configured = true) :
    reads (l :: ls) s =
      ((readPeriod l s).1 :: (reads ls (afterRead l s)).1, s.drive :: (reads ls (afterRead l s)).2.1,
        (reads ls (afterRead l s)).2.2) := by
  by_cases hb : s.fc.state = .busOff
  · have hrest : restPeriod (presentLevel l
        (withOutputs [] (.status .noMessage (some .busOff)) { s with readStatus := .noMessage })) = afterRead l s := by
      rw [afterRead, readPeriod_busOff l s hb]
      exact restPeriod_withOutputs [] _ (presentLevel l { s with readStatus := .noMessage }) hc
    simp only [reads, if_pos hb, exec_read_busOff _ s hc hb, hrest, readPeriod_busOff l s hb]
    rfl
  · simp only [reads, if_neg hb, exec_read_active l s hc hb]
    rfl

theorem readPeriods_length (ls : List Level) (s : State) : (readPeriods ls s).1.length = ls.length := by
  induction ls generalizing s with
  | nil => rfl
  | cons l ls ih => simp [readPeriods, ih]

/-- A run of bit periods is the run of single `READ`s: the same results, the same levels, the same state but for the outputs. -/
theorem readPeriods_withOutputs (ls : List Level) (d : List Level) (r : Response) (s : State)
    (hc : s.cfg.configured = true) :
    readPeriods ls (withOutputs d r s) =
      ((reads ls s).1, withOutputs (d ++ (reads ls s).2.1) r (reads ls s).2.2) := by
  induction ls generalizing d s with
  | nil => simp [readPeriods, reads]
  | cons l ls ih =>
    have hstep : readPeriod l (withOutputs d r s) = ((readPeriod l s).1, withOutputs (d ++ [s.drive]) r (afterRead l s)) :=
      readPeriod_withOutputs l d r s hc
    rw [readPeriods_cons hstep (ih _ _ (afterRead_configured l s hc)), reads_cons l ls s hc, List.append_assoc]; rfl

/-- What passes on the wire is received as one `READ` per bit period of its levels (R163, R175). -/
theorem receiveLevels_eq_reads (ls : List Level) (s : State) (hc : s.cfg.configured = true) :
    receiveLevels ls s = .next (withOutputs (reads ls s).2.1 (.statuses (reads ls s).1) (reads ls s).2.2) := by
  rw [receiveLevels_configured ls s hc, opStart_eq_withOutputs, readPeriods_withOutputs ls [] .none s hc]; rfl

/-- Every level gets its `READ`. -/
theorem reads_length (ls : List Level) (s : State) (hc : s.cfg.configured = true) :
    (reads ls s).1.length = ls.length := by
  have h := readPeriods_length ls (withOutputs [] .none s)
  rwa [readPeriods_withOutputs ls [] .none s hc] at h

/-! ### The levels of bits of no format -/

/-- The three shapes of bits on the wire, and the levels of each (R62, R65, R66; log 29). -/
theorem wireLevels_of_shape (bits body tail levels : List Level) (k : Nat)
    (h : (bits = List.replicate k recessive ++ dominant :: (body ++ tail) ∧ tail.length = 10 ∧
        levels = List.replicate k recessive ++ dominant :: (encSeq body ++ tail)) ∨
      (bits = List.replicate k recessive ++ dominant :: tail ∧ tail.length < 10 ∧ levels = bits) ∨
      (bits = List.replicate k recessive ∧ levels = bits)) :
    wireLevels bits = levels := by
  obtain ⟨rfl, hl, rfl⟩ | ⟨rfl, hl, rfl⟩ | ⟨rfl, rfl⟩ := h
  · rw [wireLevels_recessive, wireLevels_frame body tail hl]
  · rw [wireLevels_recessive, wireLevels_short tail hl.le]
  · simpa [wireLevels] using wireLevels_recessive k []

/-- Settles O54: such bits are received as `receiveLevels` of their levels, which is the run of `READ`s. -/
theorem bitsOfNoFormatAreReceivedToo : Obligations.BitsOfNoFormatAreReceivedToo := by
  unfold Obligations.BitsOfNoFormatAreReceivedToo
  intro s bits body tail levels k rest e hb hh hd hshape
  have hstep : step s = receiveLevels levels { s with io := { s.io with host := rest } } := by
    rw [step_of_no_format s _ bits e (fetch_of_idle s _ rest hh hb) hd, wireLevels_of_shape bits body tail levels k hshape]
  constructor
  · intro hc
    exact ⟨_, _, rfl, hstep.trans (receiveLevels_eq_reads levels _ hc), reads_length levels _ hc, rfl⟩
  · intro hc
    exact hstep.trans (receiveLevels_unconfigured levels _ hc)

end Sys2Proof.Machine
end

section
/-! The line driver's operations change the latches alone, and the latches give the level driven (40_line_driver.md R91 to R95). -/

namespace Sys2Proof.Machine

open Sys2Proof.Statements

theorem exec_driveDominant (s : State) :
    exec .driveDominant s =
      .next { answered .done s with pin := { txdir := .output, txlvl := dominant } } := rfl

theorem exec_driveRecessive (s : State) :
    exec .driveRecessive s =
      .next { answered .done s with pin := { txdir := .output, txlvl := recessive } } := rfl

theorem exec_release (s : State) :
    exec .release s = .next { answered .done s with pin := { txdir := .input, txlvl := s.pin.txlvl } } := rfl

/-- Settles O6: an output drives its level latch, an input drives nothing, whatever its latch holds. -/
theorem lineOperationsSetTheLatches : Obligations.LineOperationsSetTheLatches := by
  unfold Obligations.LineOperationsSetTheLatches
  intro s
  refine ⟨⟨_, exec_driveDominant s, rfl, ?_⟩, ⟨_, exec_driveRecessive s, rfl, ?_⟩, ⟨_, exec_release s, rfl, ?_⟩⟩
  · exact drive_output dominant
  · exact drive_output recessive
  · exact drive_input s.pin.txlvl

end Sys2Proof.Machine
end

section
/-! The codec's operations on one bit: what each answers and which part of the state it replaces (41_bit_codec.md R103, R106,
R107). -/

namespace Sys2Proof.Machine

open Sys2Proof.Statements

/-! ### `ENC_BIT` -/

/-- `ENC_BIT` answers with the wire bits and changes the encoder's pair alone (R103). -/
theorem exec_encBit_answered (b : Level) (s : State) :
    exec (.encBit b) s =
      .next { answered (.bits (encBit b s.tx.enc).1) s with tx := s.tx.withEnc (encBit b s.tx.enc).2 } := exec_encBit b s

/-- Settles O10: by the three cases of `ENC_BIT`, each of which fixes the run `n` that the bit brings about. -/
theorem encBitStuffsAfterFive : Obligations.EncBitStuffsAfterFive := by
  unfold Obligations.EncBitStuffsAfterFive
  intro s b n hpos hle hn
  have hok : EncOk s.tx.enc := ⟨hpos, hle⟩
  have hn : n = if b = s.tx.enc.1 then s.tx.enc.2.toNat + 1 else 1 := hn
  obtain ⟨hpos', hle'⟩ := encBit_ok b s.tx.enc hok
  refine ⟨_, exec_encBit_answered b s, hpos', hle', ?_⟩
  obtain ⟨hb, hlt, he⟩ | ⟨hb, hfull, he⟩ | ⟨hb, he⟩ := encBit_cases b s.tx.enc hok <;> rw [he]
  · rw [if_pos hb] at hn
    have hrun : s.tx.enc.2 + 1 = BitVec.ofNat 3 n := by rw [hn]; simp [BitVec.ofNat_add]
    exact ⟨fun _ => by rw [← hrun]; rfl, fun h => by omega⟩
  · rw [if_pos hb, hfull] at hn
    exact ⟨fun h => by omega, fun _ => rfl⟩
  · rw [if_neg hb] at hn
    subst hn
    exact ⟨fun _ => rfl, fun h => by omega⟩

/-! ### `DEC_BIT`, beside `decBit_append` and `decBit_drop` -/

/-- A sixth recessive bit is held (D13). -/
theorem decBit_hold (r : Receiver) (h : r.run = 5) (hl : r.lastbit = recessive) :
    r.decBit recessive = (.hold, { r with run := 6 }) := by
  simp [Receiver.decBit, h, hl]

/-- A seventh recessive bit ends the frame. -/
theorem decBit_frameEnd (r : Receiver) (h : r.run = 6) (hl : r.lastbit = recessive) :
    r.decBit recessive = (.frameEnd, { r with run := 7 }) := by
  simp [Receiver.decBit, h, hl]

/-- A sixth dominant bit is a stuff error at once. -/
theorem decBit_sixth_dominant (r : Receiver) (h : r.run = 5) (hl : r.lastbit = dominant) :
    r.decBit dominant = (.stuffError, r) := by
  simp [Receiver.decBit, h, hl]

/-- A dominant bit after exactly six recessive bits is a stuff error (D13). -/
theorem decBit_dominant_after_six (r : Receiver) (h : r.run = 6) (hl : r.lastbit = recessive) :
    r.decBit dominant = (.stuffError, r) := by
  simp [Receiver.decBit, h, hl]

/-- `DEC_BIT` answers with its event and changes the receiver alone (R107). -/
theorem exec_decBit_answered (b : Level) (s : State) :
    exec (.decBit b) s =
      .next { answered (.event (s.rx.decBit b).1) s with rx := (s.rx.decBit b).2 } := exec_decBit b s

/-- Settles O15: one rule of `DEC_BIT` per branch. -/
theorem decBitDestuffs : Obligations.DecBitDestuffs := by
  unfold Obligations.DecBitDestuffs
  intro s b _ _ hsix
  have run5 : s.rx.run.toNat = 5 → s.rx.run = 5 := fun h => BitVec.eq_of_toNat_eq h
  have run6 : s.rx.run.toNat = 6 → s.rx.run = 6 := fun h => BitVec.eq_of_toNat_eq h
  refine ⟨_, _, exec_decBit_answered b s, congrArg (fun r => { answered _ s with rx := r }) (decBit_frame b s.rx), ?_⟩
  dsimp only
  refine ⟨fun h hb => ?_, fun h hb => ?_, fun h hb => ?_, fun h hl hb => ?_, fun h hl hb => ?_, fun h hb => ?_, fun h hb => ?_⟩
  · rw [decBit_append b s.rx h, if_pos hb]
    exact ⟨rfl, rfl, BitVec.toNat_add_of_lt (show s.rx.run.toNat + 1 < 8 by omega)⟩
  · rw [decBit_append b s.rx h, if_neg hb]
    exact ⟨rfl, rfl, rfl⟩
  · rw [decBit_drop b s.rx (run5 h) hb]
    exact ⟨rfl, rfl, rfl⟩
  · subst hb
    rw [decBit_sixth_dominant s.rx (run5 h) hl.symm]
    exact ⟨rfl, rfl⟩
  · subst hb
    rw [decBit_hold s.rx (run5 h) hl.symm]
    exact ⟨rfl, rfl, rfl⟩
  · subst hb
    rw [decBit_frameEnd s.rx (run6 h) (hsix h)]
    exact ⟨rfl, rfl, rfl⟩
  · subst hb
    rw [decBit_dominant_after_six s.rx (run6 h) (hsix h)]
    exact ⟨rfl, rfl⟩

/-! ### `DEC_INIT` -/

/-- `DEC_INIT` answers `Done` and changes the receiver alone (R106). -/
theorem exec_decInit (s : State) :
    exec .decInit s = .next { answered .done s with rx := s.rx.decInit } := rfl

/-- Settles O14: `Receiver.decInit` sets the last bit and the run. -/
theorem decInitStartsTheRun : Obligations.DecInitStartsTheRun := by
  unfold Obligations.DecInitStartsTheRun
  exact exec_decInit

end Sys2Proof.Machine
end

section
/-! The CRC engine's operations: what each answers, one step of the register in integer arithmetic, and the register of a
sequence bit by bit (42_crc15.md R121, R122). -/

namespace Sys2Proof.Machine

open Sys2Proof.Statements

/-! ### `CRC15_STEP` -/

/-- `CRC15_STEP` answers with the new register and changes nothing else (R121). -/
theorem exec_crc15Step (reg : BitVec 15) (b : Level) (s : State) :
    exec (.crc15Step reg b) s = .next (answered (.crc (crcStep reg b)) s) := rfl

/-- The bit `x` of R121, bit 14 before the shift against the input bit, is the parity of the two. -/
theorem crcTap_iff (reg : BitVec 15) (b : Level) :
    (reg.getLsbD 14 ^^ b) = true ↔ (reg.toNat / 16384 + b.toNat) % 2 = 1 := by
  have htop : reg.getLsbD 14 = decide (reg.toNat / 16384 % 2 = 1) := Nat.testBit_eq_decide_div_mod_eq
  rw [htop]
  cases b with
  | false => simp
  | true =>
    simp only [Bool.xor_true, Bool.not_eq_true', decide_eq_false_iff_not, Bool.toNat_true]
    omega

/-- The shift of R121 discards bit 14: it doubles the register modulo 2^15. -/
theorem toNat_crcShift (reg : BitVec 15) : (reg <<< 1).toNat = 2 * reg.toNat % 32768 := by
  rw [BitVec.toNat_shiftLeft, Nat.shiftLeft_eq, Nat.mul_comm]

theorem toNat_crcStep (reg : BitVec 15) (b : Level) :
    (crcStep reg b).toNat = (2 * reg.toNat % 32768) ^^^
      (if (reg.toNat / 16384 + b.toNat) % 2 = 1 then 0x4599 else 0) := by
  by_cases hx : (reg.getLsbD 14 ^^ b) = true
  · rw [if_pos ((crcTap_iff reg b).mp hx), crcStep, if_pos hx, BitVec.toNat_xor, toNat_crcShift]
    rfl
  · rw [if_neg (mt (crcTap_iff reg b).mpr hx), crcStep, if_neg hx, toNat_crcShift, Nat.xor_zero]

/-- Settles O17: the answer is `crcStep`, read as an integer. -/
theorem crcStepFollowsThePolynomial : Obligations.CrcStepFollowsThePolynomial := by
  unfold Obligations.CrcStepFollowsThePolynomial
  intro s reg b
  exact ⟨crcStep reg b, exec_crc15Step reg b s, toNat_crcStep reg b⟩

/-! ### `CRC15` -/

/-- `CRC15` answers with the register of its bits and changes nothing else (R122). -/
theorem exec_crc15 (bits : List Level) (s : State) :
    exec (.crc15 bits) s = .next (answered (.crc (crcOf bits)) s) := rfl

@[simp] theorem crcOf_nil : crcOf [] = 0 := rfl

theorem crcOf_append_singleton (bits : List Level) (b : Level) :
    crcOf (bits ++ [b]) = crcStep (crcOf bits) b :=
  List.foldl_concat crcStep 0 b bits

/-- Settles O18: the two registers are those of `bits` and of `bits ++ [b]`. -/
theorem crcIteratesTheStep : Obligations.CrcIteratesTheStep := by
  unfold Obligations.CrcIteratesTheStep
  intro s
  refine ⟨by rw [exec_crc15, crcOf_nil], fun bits b => ⟨crcOf bits, crcStep (crcOf bits) b, ?_, ?_, ?_⟩⟩
  · exact exec_crc15 bits s
  · exact exec_crc15Step (crcOf bits) b s
  · rw [exec_crc15, crcOf_append_singleton]

end Sys2Proof.Machine
end

section
/-! `TX_BUILD` and the exits of `SEND`: the fields of the built frame read back, and the four ways a `SEND` ends
(43_transmitter.md R131, R132, R137 to R141). -/

namespace Sys2Proof.Machine

open Sys2Proof.Statements

/-! ### The logical bits of a frame, field by field -/

/-- A segment of a sequence is read back at the place where it starts. -/
theorem subBits_of_parts (p m q : List Level) (i n : Nat) (hi : p.length = i) (hn : m.length = n) :
    subBits (p ++ (m ++ q)) i n = m := by
  subst hi
  rw [← Nat.add_zero p.length, subBits_append_right, subBits_of_length m q n hn]

theorem subBits_txLogical_id (f : TxFrame) : subBits (txLogical f) 0 11 = ser 11 f.id := by
  simp only [txLogical, txCovered, List.append_assoc]
  exact subBits_of_length _ _ _ (ser_length 11 f.id)

theorem subBits_txLogical_flags (f : TxFrame) : subBits (txLogical f) 11 3 = [dominant, dominant, dominant] := by
  simp only [txLogical, txCovered, List.append_assoc _ _ (ser 15 _), List.append_assoc _ _ (List.flatMap _ _),
    List.append_assoc _ _ (ser 4 _)]
  exact subBits_of_parts _ _ _ _ _ (ser_length 11 f.id) rfl

theorem subBits_txLogical_dlc (f : TxFrame) :
    subBits (txLogical f) 14 4 = ser 4 (BitVec.ofNat 4 (txLength f)) := by
  simp only [txLogical, txCovered, List.append_assoc _ _ (ser 15 _), List.append_assoc _ _ (List.flatMap _ _)]
  exact subBits_of_parts _ _ _ _ _ (by simp) (ser_length 4 _)

theorem subBits_txLogical_byte (f : TxFrame) (k : Nat) (h : k < txLength f) :
    subBits (txLogical f) (18 + 8 * k) 8 = ser 8 ((dataBytes f.data).getD k 0) := by
  have hlen : (dataBytes f.data).length = 8 := rfl
  have hle := txLength_le f
  have hhead : 18 = (ser 11 f.id ++ [dominant, dominant, dominant] ++ ser 4 (BitVec.ofNat 4 (txLength f))).length := by
    simp
  simp only [txLogical, txCovered, List.append_assoc _ _ (ser 15 _)]
  rw [hhead, subBits_append_right, subBits_flatMap_ser _ _ _ (by simp; omega), List.getElem_take,
    List.getD_eq_getElem]

/-- The bits the CRC covers. -/
theorem subBits_txLogical_covered (f : TxFrame) : subBits (txLogical f) 0 (18 + 8 * txLength f) = txCovered f :=
  subBits_of_length _ _ _ (txCovered_length f)

theorem subBits_txLogical_crc (f : TxFrame) :
    subBits (txLogical f) (18 + 8 * txLength f) 15 = ser 15 (crcOf (txCovered f)) := by
  simpa [txLogical] using
    subBits_of_parts (txCovered f) (ser 15 (crcOf (txCovered f))) [] (18 + 8 * txLength f) 15 (txCovered_length f)
      (ser_length 15 _)

/-! ### `TX_BUILD` -/

@[simp] theorem build_txbits (f : TxFrame) (t : Transmitter) : (t.build f).txbits = txLogical f := rfl

theorem toNat_build_txlen (f : TxFrame) (t : Transmitter) : (t.build f).txlen.toNat = nBits (txLength f) := by
  have hle := txLength_le f
  exact Nat.mod_eq_of_lt (by rw [nBits]; omega)

theorem toNat_build_txndata (f : TxFrame) (t : Transmitter) : (t.build f).txndata.toNat = nData (txLength f) := by
  have hle := txLength_le f
  exact Nat.mod_eq_of_lt (by rw [nData]; omega)

/-- `TX_BUILD` answers `Done` and builds the working set from `TXF`; the sequencer and the encoder are left (R132). -/
theorem exec_txBuild (s : State) :
    exec .txBuild s = .next { answered .done s with tx := s.tx.build s.txf } := rfl

/-- Settles O21: `TXBITS` is `txLogical`, whose fields are read back one by one. -/
theorem txBuildLaysOutTheFrame : Obligations.TxBuildLaysOutTheFrame := by
  unfold Obligations.TxBuildLaysOutTheFrame
  intro s d hd
  replace hd : d = txLength s.txf := hd
  subst hd
  have hle := txLength_le s.txf
  have hdlc : (BitVec.ofNat 4 (txLength s.txf)).toNat = txLength s.txf := Nat.mod_eq_of_lt (by omega)
  refine ⟨_, exec_txBuild s, rfl, toNat_build_txlen s.txf s.tx, toNat_build_txndata s.txf s.tx, txLogical_length s.txf,
    ?_, subBits_txLogical_flags s.txf, ?_, fun k hk => ?_, ?_⟩ <;>
    simp only [build_txbits]
  · rw [subBits_txLogical_id, intOf_ser]
  · rw [subBits_txLogical_dlc, intOf_ser, hdlc]
  · rw [subBits_txLogical_byte s.txf k hk, intOf_ser]
  · rw [subBits_txLogical_covered, subBits_txLogical_crc, intOf_ser]

/-! ### The exits of `SEND` -/

theorem sendOp_busOff (f : TxFrame) (s : State) (h : s.fc.state = .busOff) :
    sendOp f (opStart s) = { answered (.sent false (some .busOff)) s with txf := f, sendOk := false } := if_pos h

theorem sendOp_active (f : TxFrame) (s : State) (h : s.fc.state ≠ .busOff) :
    sendOp f (opStart s) = txRun txFuel (txStart f (opStart s)) := if_neg h

/-- The number of bit periods after which the `SEND` of `f` loses arbitration to the other nodes, if it does (R136). -/
def State.lossOf (s : State) (f : TxFrame) : Option Nat :=
  wholeLost (fun j => s.io.other.getD j recessive) 0 (wholeWire f)

/-- The four ways in which a `SEND` of `f` from `s` ends in `t`: in Bus-Off at once (R131), by arbitration loss (R137), without an
acknowledge (R139), acknowledged (R141). -/
inductive SendEnd (f : TxFrame) (s t : State) : Prop where
  | busOff (state : s.fc.state = .busOff)
      (eq : t = { answered (.sent false (some .busOff)) s with txf := f, sendOk := false })
  | lost (p : Nat) (loss : s.lossOf f = some p)
      (ended : TxEnded (txStart f (opStart s)) t s.fc false (some .arbitrationLost) (((wholeWire f).take p).map Prod.fst))
  | noAck (loss : s.lossOf f = none) (slot : s.io.other.getD (wholeWire f).length recessive = recessive)
      (ended : TxEnded (txStart f (opStart s)) t s.fc.onTxFailure false (some .noAck)
        ((wholeWire f).map Prod.fst ++ [recessive]))
  | acked (loss : s.lossOf f = none) (slot : s.io.other.getD (wholeWire f).length recessive = dominant)
      (ended : TxEnded (txStart f (opStart s)) t s.fc.onTxSuccess true none
        ((wholeWire f).map Prod.fst ++ List.replicate 9 recessive))

theorem exec_send_end (f : TxFrame) (s t : State) (h : exec (.send f) s = .next t) : SendEnd f s t := by
  rw [exec_send f s (configured_of_send f s t h)] at h
  cases h
  by_cases hb : s.fc.state = .busOff
  · exact .busOff hb (sendOp_busOff f s hb)
  · rw [sendOp_active f s hb]
    obtain ⟨hlost, hsent⟩ := txRun_whole f (opStart s)
    cases hloss : s.lossOf f with
    | some p => exact .lost p hloss (hlost p hloss)
    | none =>
      obtain ⟨hnoAck, hacked⟩ := hsent hloss
      cases hslot : s.io.other.getD (wholeWire f).length recessive with
      | true => exact .noAck hloss hslot (hnoAck hslot)
      | false => exact .acked hloss hslot (hacked hslot)

/-- A `SEND` that answers arbitration loss ended so. -/
theorem ended_of_arbitrationLost (f : TxFrame) (s t : State) (h : exec (.send f) s = .next t)
    (hr : t.io.rsp = .sent false (some .arbitrationLost)) :
    ∃ p, s.lossOf f = some p ∧
      TxEnded (txStart f (opStart s)) t s.fc false (some .arbitrationLost) (((wholeWire f).take p).map Prod.fst) := by
  cases exec_send_end f s t h with
  | busOff _ eq => rw [eq] at hr; cases hr
  | lost p loss ended => exact ⟨p, loss, ended⟩
  | noAck _ _ ended => rw [ended.rsp] at hr; cases hr
  | acked _ _ ended => rw [ended.rsp] at hr; cases hr

/-- The period of the loss: the frame has a monitored recessive level there, which another node overrides (R136). -/
theorem lossOf_at (f : TxFrame) (s : State) (p : Nat) (h : s.lossOf f = some p) :
    ∃ q, p = q + 1 ∧ (wholeWire f)[q]? = some (recessive, true) ∧ s.io.other.getD q recessive = dominant := by
  obtain ⟨hpos, -⟩ := wholeLost_bounds _ 0 (wholeWire f) p h
  obtain ⟨q, rfl⟩ : ∃ q, p = q + 1 := ⟨p - 1, by omega⟩
  obtain ⟨w, hat, hbus⟩ := wholeLost_at _ 0 (wholeWire f) (q + 1) h
  obtain rfl : w = recessive := wholeWire_monitored f _ (List.mem_of_getElem? hat) rfl
  exact ⟨q, rfl, hat, by simpa using hbus⟩

/-- Settles O25: the run kept the receiver and the counters, and its last level is the monitored one of the loss. -/
theorem arbitrationLossScoresNothing : Obligations.ArbitrationLossScoresNothing := by
  unfold Obligations.ArbitrationLossScoresNothing
  intro s t f h hr
  obtain ⟨p, hp, ended⟩ := ended_of_arbitrationLost f s t h hr
  obtain ⟨q, rfl, hat, hother⟩ := lossOf_at f s p hp
  obtain ⟨hq, -⟩ := List.getElem?_eq_some_iff.mp hat
  have hdrove : t.io.drove = ((wholeWire f).take (q + 1)).map Prod.fst := ended.drove
  have hdrive : t.drive = recessive := by rw [state_drive, ended.pin, drive_output]
  refine ⟨ended.fc, ended.sendOk, ended.pin, hdrive, ended.idle, ended.kept.rx, q, ?_, ?_, hother⟩
  · rw [hdrove, List.length_map, List.length_take]; omega
  · simp [hdrove, hat]

end Sys2Proof.Machine
end

section
/-! The receiver's operations: `READ` in Bus-Off, `RX_STEP` and its exits, `RX_DECODE`, `ACK_CHECK` (44_receiver.md R161,
R164 to R174). -/

namespace Sys2Proof.Machine

open Sys2Proof.Statements

/-! ### `READ` in Bus-Off -/

/-- Settles O31: the gate of `READ` answers before the scheduler. -/
theorem readInBusOffIsMute : Obligations.ReadInBusOffIsMute := by
  unfold Obligations.ReadInBusOffIsMute
  intro s now hc hb
  exact exec_read_busOff now s hc hb

/-! ### `RX_STEP` -/

/-- `RX_STEP` reads `Sof` as `Frame` (R166). -/
theorem rxStep_sof (smp : Level) (s : State) (h : s.rx.rxs = .sof) :
    rxStep smp s = rxStep smp { s with rx := { s.rx with rxs := .frame } } := by
  rw [rxStep_frame smp s (by simp [h]), rxStep_frame smp { s with rx := { s.rx with rxs := .frame } } (by simp),
    countDown_eq, countDown_eq]

/-- Settles O35: one rule of `RX_STEP` per sub-state. -/
theorem rxStepStartsAFrame : Obligations.RxStepStartsAFrame := by
  unfold Obligations.RxStepStartsAFrame
  rintro s smp r rfl
  refine ⟨⟨_, _, _, exec_rxStep smp s, rfl⟩, ?_, ?_, fun hsof => ?_⟩
  · rintro hidle rfl
    rw [exec_rxStep, rxStep_idle_recessive (opStart s) hidle, countDown_eq]
    rfl
  · rintro hidle rfl
    rw [exec_rxStep, rxStep_idle_dominant (opStart s) hidle]
    rfl
  · rw [exec_rxStep, exec_rxStep, rxStep_sof smp (opStart s) hsof]
    rfl

/-- Everything `RX_STEP` can do: no message, the receiver alone changed and its buffer by at most one append; or one of the two
exits, the buffer as it was (R164 to R174). -/
theorem rxStep_cases (smp : Level) (s : State) :
    (∃ r, (r.rxbuf = s.rx.rxbuf ∨ ∃ b, r.rxbuf = s.rx.rxbuf.write s.rx.rxcnt b) ∧
        rxStep smp s = ((.noMessage, none), { s with rx := r })) ∨
      ∃ r, r.rxbuf = s.rx.rxbuf ∧
        ((∃ c, rxStep smp s = ((.frameError, some c), failed { s with rx := r })) ∨
          rxStep smp s = ((.messageOk, none), delivered { s with rx := r })) := by
  by_cases hidle : s.rx.rxs = .idle
  · cases smp with
    | false =>
      refine .inl ⟨_, .inl ?_, rxStep_idle_dominant s hidle⟩
      rfl
    | true => exact .inl ⟨_, .inl (countDown_rxbuf s.rx), rxStep_idle_recessive s hidle⟩
  · rw [rxStep_frame smp s hidle]
    obtain ⟨r, rfl | ⟨b, -, -, rfl⟩, h⟩ | ⟨c, h⟩ | h :=
      rxFrame_cases smp { s with rx := { s.rx.countDown with rxs := .frame } }
    · exact .inl ⟨_, .inl (by simp), h⟩
    · exact .inl ⟨_, .inr ⟨b, by simp [Receiver.stored]⟩, h⟩
    · exact .inr ⟨_, by simp, .inl ⟨c, h⟩⟩
    · exact .inr ⟨_, by simp, .inr h⟩

/-- A receive failure counts `REC` up and classifies (R202). -/
theorem fcIs_onRxFailure (c : FaultConf) (hb : c.state ≠ .busOff) (hr : c.rec_.toNat ≤ 510) :
    fcIs c.onRxFailure c.tec.toNat (c.rec_.toNat + 1) := by
  have hrec : c.onRxFailure.rec_.toNat = c.rec_.toNat + 1 := by rw [onRxFailure_rec c hr, if_neg hb]
  refine ⟨by rw [onRxFailure_tec], hrec, ?_⟩
  rw [← hrec, onRxFailure_state, onRxFailure_tec]
  rfl

/-- A receive success counts `REC` down, stopping at 0, and classifies (R204). -/
theorem fcIs_onRxSuccess (c : FaultConf) : fcIs c.onRxSuccess c.tec.toNat (c.rec_.toNat - 1) := by
  refine ⟨by rw [onRxSuccess_tec], onRxSuccess_rec c, ?_⟩
  rw [← onRxSuccess_rec c, onRxSuccess_state, onRxSuccess_tec]
  rfl

/-- Settles O38: the frame of `RX_STEP` holds in every case; the rest goes by its three ends. -/
theorem receiverExitsScoreTheFrame : Obligations.ReceiverExitsScoreTheFrame := by
  unfold Obligations.ReceiverExitsScoreTheFrame
  intro s smp hb hrec
  have kept := rxStep_kept smp (opStart s)
  refine ⟨_, _, _, exec_rxStep smp s, rfl, kept.tec, kept.cfg, kept.tx, kept.txf, kept.pin, kept.par, kept.sendOk,
    kept.lastsample, kept.host, kept.other, kept.drove, ?_⟩
  obtain ⟨r, hbuf, h⟩ | ⟨r, hbuf, ⟨c, h⟩ | h⟩ := rxStep_cases smp (opStart s)
  · rw [h]
    refine ⟨fun a ha => ?_, fun hst => absurd rfl hst, nofun, nofun, fun _ => ⟨rfl, rfl, rfl, rfl⟩⟩
    obtain hsame | ⟨b, hwrite⟩ := hbuf
    · exact congrArg (Memory.read · a) hsame
    · exact (congrArg (Memory.read · a) hwrite).trans (read_write_other s.rx.rxbuf s.rx.rxcnt a b ha)
  · rw [h]
    exact ⟨fun a _ => congrArg (Memory.read · a) hbuf, fun _ => hbuf,
      fun _ => ⟨fcIs_onRxFailure s.fc hb (by omega), rfl, rfl, rfl, rfl, nofun⟩, nofun, nofun⟩
  · rw [h]
    exact ⟨fun a _ => congrArg (Memory.read · a) hbuf, fun _ => hbuf, nofun,
      fun _ => ⟨fcIs_onRxSuccess s.fc, rfl, rfl, rfl, rfl⟩, nofun⟩

/-! ### `RX_DECODE` -/

theorem verdict_short (r : Receiver) (h : r.rxcnt < 18) : r.verdict = some .short := if_pos h

theorem verdict_length (r : Receiver) (hs : 18 ≤ r.rxcnt) (hl : r.rxcnt < nBits (rxLength r.rxbuf)) :
    r.verdict = some .length := by
  rw [Receiver.verdict, if_neg (by omega), if_pos hl]

/-- With enough bits the CRC decides (R170 step 4). -/
theorem verdict_crc (r : Receiver) (hs : 18 ≤ r.rxcnt) (hl : nBits (rxLength r.rxbuf) ≤ r.rxcnt) :
    r.verdict = if rxCrcMatches r.rxbuf = true then none else some .crcMismatch := by
  rw [Receiver.verdict, if_neg (by omega), if_neg (by omega)]

theorem rxLength_le (m : Memory) : rxLength m ≤ 8 := Nat.min_le_right _ _

theorem toNat_rxAssemble_dlc (m : Memory) (fresh : Nat) : (rxAssemble m fresh).dlc.toNat = rxLength m := by
  have hle := rxLength_le m
  exact Nat.mod_eq_of_lt (by omega)

theorem rxAssemble_byte (m : Memory) (fresh k : Nat) (h : k < rxLength m) :
    (dataBytes (rxAssemble m fresh).data).getD k 0 = m.field (18 + 8 * k) 8 := by
  have hle := rxLength_le m
  rw [rxAssemble, dataBytes_dataOf _ _ (by omega), if_pos h]

/-- `RX_DECODE` writes `RXF` and counts free values, and nothing else (R170). -/
theorem rxDecode_frame (s : State) :
    (rxDecode s).2 = { s with rxf := (rxDecode s).2.rxf, io := (rxDecode s).2.io } := by
  cases hv : s.rx.verdict with
  | none => rw [rxDecode_ok s hv]
  | some c => rw [rxDecode_err s c hv]

/-- `RX_DECODE` as an instruction: the registers it leaves, written out. -/
theorem exec_rxDecode_frame (s : State) :
    exec .rxDecode s =
      .next { s with
        rxf := (rxDecode (opStart s)).2.rxf
        io := { (rxDecode (opStart s)).2.io with rsp := .decoded (rxDecode (opStart s)).1 } } := by
  rw [exec_rxDecode, rxDecode_frame]
  rfl

/-- Settles O39: one verdict per clause, and the fields of an assembled frame. -/
theorem rxDecodeChecksThenDelivers : Obligations.RxDecodeChecksThenDelivers := by
  unfold Obligations.RxDecodeChecksThenDelivers
  rintro s _ d rfl hd
  replace hd : d = rxLength s.rx.rxbuf := hd
  subst hd
  refine ⟨_, exec_rxDecode_frame s, rfl, rfl, rfl, rfl, rfl, rfl, rfl, rfl, rfl, fun hs => ?_, fun hs hl => ?_,
    fun hs hl hcrc => ?_, fun hs hl hcrc => ?_⟩
  · rw [rxDecode_err (opStart s) _ (verdict_short s.rx hs)]
    exact ⟨rfl, rfl⟩
  · rw [rxDecode_err (opStart s) _ (verdict_length s.rx hs hl)]
    exact ⟨rfl, rfl⟩
  · have hv := (verdict_crc s.rx hs hl).trans (if_neg (mt of_decide_eq_true hcrc))
    rw [rxDecode_err (opStart s) _ hv]
    exact ⟨rfl, rfl⟩
  · have hv := (verdict_crc s.rx hs hl).trans (if_pos (decide_eq_true hcrc))
    rw [rxDecode_ok (opStart s) hv]
    exact ⟨rfl, rfl, toNat_rxAssemble_dlc s.rx.rxbuf s.io.fresh, rxAssemble_byte s.rx.rxbuf s.io.fresh⟩

/-! ### `ACK_CHECK` -/

/-- `ACK_CHECK` answers `Done` and changes the acknowledge countdown alone (R171). -/
theorem exec_ackCheck (s : State) :
    exec .ackCheck s = .next { answered .done s with rx := { s.rx with ackcnt := s.rx.ackCheck.ackcnt } } := by
  rw [← ackCheck_frame]
  rfl

/-- On the last CRC bit of a good frame the acknowledge is armed (R171). -/
theorem ackCheck_armed (r : Receiver) (hn : r.rxcnt = nBits (rxLength r.rxbuf)) (hcrc : rxCrcMatches r.rxbuf = true) :
    r.ackCheck.ackcnt = if r.run = 5 then 3 else 2 := by
  have h33 : 33 ≤ r.rxcnt := by rw [hn, nBits]; omega
  rw [Receiver.ackCheck, if_pos ⟨h33, hn, hcrc⟩]

/-- Anywhere else, or on a wrong CRC, the countdown stays (R171). -/
theorem ackCheck_unarmed (r : Receiver) (h : r.rxcnt ≠ nBits (rxLength r.rxbuf) ∨ ¬ rxCrcMatches r.rxbuf = true) :
    r.ackCheck.ackcnt = r.ackcnt := by
  rw [Receiver.ackCheck, if_neg]
  rintro ⟨-, hn, hcrc⟩
  exact h.elim (absurd hn) (absurd hcrc)

/-- Settles O40: the two cases of `ACK_CHECK`. -/
theorem ackCheckArmsOnTheLastCrcBit : Obligations.AckCheckArmsOnTheLastCrcBit := by
  unfold Obligations.AckCheckArmsOnTheLastCrcBit
  rintro s _ d rfl hd
  replace hd : d = rxLength s.rx.rxbuf := hd
  subst hd
  refine ⟨s.rx.ackCheck.ackcnt, exec_ackCheck s, fun hn hcrc => ?_, fun h => ?_⟩
  · exact ackCheck_armed s.rx hn (decide_eq_true hcrc)
  · exact ackCheck_unarmed s.rx (h.imp_right (mt of_decide_eq_true))

end Sys2Proof.Machine
end

section
/-! Fault confinement: the classification, the four hooks, and which of them an outcome of `SEND` or `READ` calls
(45_fault_confinement.md R200 to R207). -/

namespace Sys2Proof.Machine

open Sys2Proof.Statements

/-! ### The classifier and the hooks -/

/-- The classification of the counters is that of their numbers (R200). -/
theorem classOf_eq_classNat (tec rec_ : BitVec 9) : classOf tec rec_ = classNat tec.toNat rec_.toNat := rfl

/-- `CLASSIFY` answers `Done` and changes the node state alone (R200). -/
theorem exec_classify (s : State) :
    exec .classify s = .next { answered .done s with fc := s.fc.classify } := rfl

/-- `ON_TX_FAILURE` answers `Done` and changes the fault-confinement registers alone (R201). -/
theorem exec_onTxFailure (s : State) :
    exec .onTxFailure s = .next { answered .done s with fc := s.fc.onTxFailure } := rfl

/-- `ON_RX_FAILURE` answers `Done` and changes the fault-confinement registers alone (R202). -/
theorem exec_onRxFailure (s : State) :
    exec .onRxFailure s = .next { answered .done s with fc := s.fc.onRxFailure } := rfl

/-- `ON_TX_SUCCESS` answers `Done` and changes the fault-confinement registers alone (R203). -/
theorem exec_onTxSuccess (s : State) :
    exec .onTxSuccess s = .next { answered .done s with fc := s.fc.onTxSuccess } := rfl

/-- `ON_RX_SUCCESS` answers `Done` and changes the fault-confinement registers alone (R204). -/
theorem exec_onRxSuccess (s : State) :
    exec .onRxSuccess s = .next { answered .done s with fc := s.fc.onRxSuccess } := rfl

/-- Registers that end classified hold the numbers of their counters. -/
theorem fcIs_of_classified (c : FaultConf) (tec rec_ : Nat) (hc : c.state = classOf c.tec c.rec_)
    (ht : c.tec.toNat = tec) (hr : c.rec_.toNat = rec_) : fcIs c tec rec_ := by
  subst ht hr
  exact ⟨rfl, rfl, hc.trans (classOf_eq_classNat c.tec c.rec_)⟩

/-- A transmit failure counts `TEC` up by 8, unless the node is in Bus-Off, and classifies (R201). -/
theorem fcIs_onTxFailure (c : FaultConf) (h : c.tec.toNat ≤ 503) :
    fcIs c.onTxFailure (if c.state = .busOff then c.tec.toNat else c.tec.toNat + 8) c.rec_.toNat :=
  fcIs_of_classified _ _ _ (onTxFailure_state c) (onTxFailure_tec c h) (congrArg _ (onTxFailure_rec c))

/-- `fcIs_onRxFailure` without its premise: in Bus-Off the counters stay, and are classified (R202). -/
theorem fcIs_onRxFailure_guarded (c : FaultConf) (h : c.rec_.toNat ≤ 510) :
    fcIs c.onRxFailure c.tec.toNat (if c.state = .busOff then c.rec_.toNat else c.rec_.toNat + 1) :=
  fcIs_of_classified _ _ _ (onRxFailure_state c) (congrArg _ (onRxFailure_tec c)) (onRxFailure_rec c h)

/-- A transmit success counts `TEC` down, stopping at 0, and classifies (R203). -/
theorem fcIs_onTxSuccess (c : FaultConf) : fcIs c.onTxSuccess (c.tec.toNat - 1) c.rec_.toNat :=
  fcIs_of_classified _ _ _ (onTxSuccess_state c) (onTxSuccess_tec c) (congrArg _ (onTxSuccess_rec c))

/-- The guarded decrement of R203 and R204 is subtraction on the natural numbers. -/
theorem ite_pos_sub_one (n : Nat) : (if n > 0 then n - 1 else 0) = n - 1 := by
  split <;> omega

/-- Settles O45: `CLASSIFY` computes `classOf`, which is the classification on numbers. -/
theorem classifyIsTheStatedClassification : Obligations.ClassifyIsTheStatedClassification := by
  unfold Obligations.ClassifyIsTheStatedClassification
  intro s
  rw [exec_classify, ← classOf_eq_classNat]
  rfl

/-- Settles O46: one rule per hook; in range (R205) no counter wraps. -/
theorem hooksMoveTheCounters : Obligations.HooksMoveTheCounters := by
  unfold Obligations.HooksMoveTheCounters
  intro s ht hr
  simp only [ite_pos_sub_one]
  exact ⟨⟨_, exec_onTxFailure s, rfl, fcIs_onTxFailure s.fc (by omega)⟩,
    ⟨_, exec_onRxFailure s, rfl, fcIs_onRxFailure_guarded s.fc (by omega)⟩,
    ⟨_, exec_onTxSuccess s, rfl, fcIs_onTxSuccess s.fc⟩,
    ⟨_, exec_onRxSuccess s, rfl, fcIs_onRxSuccess s.fc⟩⟩

/-! ### Who calls what -/

/-- The counters after a `READ` with this status: those of the one hook it calls, if it calls one (R207). -/
def FaultConf.onReadStatus (st : ReadStatus) (c : FaultConf) : FaultConf :=
  match st with
  | .messageOk => c.onRxSuccess
  | .frameError => c.onRxFailure
  | .noMessage => c

/-- `RX_STEP` calls the hook of its result (R173, R174). -/
theorem rxStep_fc (smp : Level) (s : State) : (rxStep smp s).2.fc = s.fc.onReadStatus (rxStep smp s).1.1 := by
  obtain ⟨r, -, h⟩ | ⟨r, -, ⟨c, h⟩ | h⟩ := rxStep_cases smp s <;> rw [h] <;> rfl

/-- `READ` calls the hook of the status it writes: none behind the Bus-Off gate or before its time, else that of `RX_STEP`. -/
theorem readOp_fc (now : BitVec 32) (s : State) :
    (readOp now s).2.fc = s.fc.onReadStatus (readOp now s).2.readStatus := by
  by_cases hb : s.fc.state = .busOff
  · rw [readOp_busOff now s hb]; rfl
  cases ha : s.accepts now with
  | false => rw [readOp_early now s hb ha]; rfl
  | true =>
    rw [readOp_accepted now s hb ha]
    exact (ackDrive_fc _).trans (rxStep_fc (sampleRx s) (slotState s))

/-- A `READ` leaves the counters of the hook of its status (R207). -/
theorem exec_read_fc (now : BitVec 32) (s t : State) (h : exec (.read now) s = .next t) :
    t.fc = s.fc.onReadStatus t.readStatus := by
  rw [exec_read now s (configured_of_read now s t h)] at h
  cases h
  exact readOp_fc now (opStart s)

theorem exec_nop (s : State) : exec .nop s = .next (answered .done s) := rfl

/-- Settles O48: by the four ends of a `SEND`, of which the acknowledge and its absence alone call a hook; by the status of a
`READ`. -/
theorem countersFollowTheOutcome : Obligations.CountersFollowTheOutcome := by
  unfold Obligations.CountersFollowTheOutcome
  refine fun s t => ⟨fun f h => ?_, fun now h => exec_read_fc now s t h, fun h => ?_⟩
  · cases exec_send_end f s t h with
    | busOff _ eq => rw [eq]; rfl
    | lost _ _ ended => rw [ended.fc, ended.rsp]; rfl
    | noAck _ _ ended => rw [ended.fc, ended.rsp]; rfl
    | acked _ _ ended => rw [ended.fc, ended.rsp]; rfl
  · rw [exec_nop] at h
    cases h
    rfl

end Sys2Proof.Machine
end

section
/-! The host interface: `NOP` completes and changes no register (46_host_interface.md R222). -/

namespace Sys2Proof.Machine

open Sys2Proof.Statements

/-- Settles O3: `NOP` is the start of an operation and its response, with nothing between (`exec_nop`). -/
theorem nopLeavesEveryRegister : Obligations.NopLeavesEveryRegister := by
  unfold Obligations.NopLeavesEveryRegister
  exact exec_nop

end Sys2Proof.Machine
end

section
/-! Bus-Off: a `SEND` there latches its operand, sets its result flag and is over (60_exceptions.md R242). -/

namespace Sys2Proof.Machine

open Sys2Proof.Statements

/-- Settles O22: a configured node runs `SEND` (`exec_send`), and its gate turns it away in Bus-Off (`sendOp_busOff`). -/
theorem sendInBusOffIsMute : Obligations.SendInBusOffIsMute := by
  unfold Obligations.SendInBusOffIsMute
  intro s f hconf hoff
  rw [exec_send f s hconf, sendOp_busOff f s hoff]

end Sys2Proof.Machine
end

section
/-! Reset: the registers of the construction column (10_state.md R32, 70_reset_and_hazards.md R270), and the output ports that
show them to the host (46_host_interface.md R216). -/

namespace Sys2Proof.Machine

theorem outPorts_tec (s : State) : s.outPorts.tec = s.fc.tec := rfl

theorem outPorts_rec (s : State) : s.outPorts.rec_ = s.fc.rec_ := rfl

theorem outPorts_state (s : State) : s.outPorts.state = s.fc.state.code := rfl

/-- `busy` is low exactly when the transmitter is idle (R216, R28). -/
theorem outPorts_busy_eq_false_iff (s : State) : s.outPorts.busy = false ↔ s.tx.txph = .txIdle :=
  decide_eq_false_iff_not.trans not_not

theorem reset_fc : State.reset.fc = { tec := 0, rec_ := 0, state := .errorActive } := rfl

theorem reset_configured : State.reset.cfg.configured = false := rfl

theorem reset_txph : State.reset.tx.txph = .txIdle := rfl

/-- Settles O1: the registers are read off `State.reset`; the ports show the fault confinement registers and, the transmitter
being idle, no `busy`. -/
theorem resetGivesConstructionState : Obligations.ResetGivesConstructionState := by
  unfold Obligations.ResetGivesConstructionState
  rw [outPorts_busy_eq_false_iff, outPorts_tec, outPorts_rec, outPorts_state, reset_fc]
  exact ⟨rfl, rfl, rfl, reset_configured, reset_txph, reset_txph, rfl, rfl, rfl⟩

end Sys2Proof.Machine
end

section
/-! How instructions are presented: the encoder and the decoder are inverse to each other (30_encoding.md R61, R65, R70, R73). -/

namespace Sys2Proof

/-- An instruction with the fields of a frame is the frame format for its payload length. -/
theorem ofFormat_of_format (i : Instr) (d : Nat) (f : WireFrame) (h : i.format = some (d, f)) :
    Instr.ofFormat d f = some i := by
  cases i <;> cases h <;> rfl

/-- A command or the construction decodes to what it was made of (R70, R218). -/
theorem decode_encode_of_no_format (i : Instr) (p : Presented) (hf : i.format = none) (he : encode i = some p) :
    decode p = .ok i := by
  cases i with
  | df0 | df1 | df2 | df3 | df4 | df5 | df6 | df7 | df8 => cases hf
  | driveDominant | driveRecessive | release | sampleRx | encInit | encBit | encSeq | decInit | decBit | crc15Step | crc15 |
      txBuild | rxStep | rxDecode | ackCheck | classify | onTxFailure | onRxFailure | onTxSuccess | onRxSuccess => cases he
  | _ => cases he; rfl

/-- Settles O49: a frame by its fields (`decodeFrame_frameBits`), anything else by its ports. -/
theorem decodeInvertsEncode : Obligations.DecodeInvertsEncode := by
  unfold Obligations.DecodeInvertsEncode
  intro i p hw he
  cases hf : i.format with
  | none => exact decode_encode_of_no_format i p hf he
  | some q =>
    have hi := ofFormat_of_format i q.1 q.2 hf
    obtain ⟨-, -, hwf, henc, -⟩ := ofFormat_some q.1 q.2 i hi
    obtain rfl := Option.some.inj (henc.symm.trans he)
    exact decodeFrame_frameBits q.1 q.2 i hi (hwf.symm.trans hw)

/-- What the decoder checks of a frame of payload length `d` (R60 to R62, R68). -/
structure FrameShape (d : Nat) (bits : List Level) : Prop where
  length : bits.length = 44 + 8 * d
  sof    : bits.getD 0 recessive = dominant
  dlc    : min (fieldOf bits 15 4 4).toNat 8 = d
  eof    : subBits bits (37 + 8 * d) 7 = List.replicate 7 recessive

/-- What decodes passes the checks, and is the frame format with the fields read. -/
theorem frameShape_of_decodeFrame (bits : List Level) (i : Instr) (h : decodeFrame bits = .ok i) :
    ∃ d, FrameShape d bits ∧ Instr.ofFormat d (frameFields d bits) = some i := by
  simp only [decodeFrame] at h
  split at h
  case isFalse => cases h
  case isTrue hlen =>
    split at h
    case h_1 => cases h
    case h_2 j hj =>
      split at h
      case isTrue => cases h
      case isFalse hsof =>
        split at h
        case isFalse => cases h
        case isTrue hdlc =>
          split at h
          case isFalse => cases h
          case isTrue heof =>
            cases h
            exact ⟨_, ⟨hlen, Bool.eq_false_iff.mpr hsof, hdlc, heof⟩, hj⟩

theorem FrameShape.fits {d : Nat} {bits : List Level} (h : FrameShape d bits) : (frameFields d bits).fits d = true := by
  simp [WireFrame.fits, frameFields, h.dlc]

/-- The bits of a sequence from index `i` on, its next bit split off. -/
theorem drop_eq_getD_cons (bits : List Level) (i : Nat) (b : Level) (h : i < bits.length) :
    bits.drop i = bits.getD i b :: bits.drop (i + 1) := by
  rw [List.drop_eq_getElem_cons h, List.getD_eq_getElem _ _ h]

/-- A frame cut at the positions of R61. -/
theorem FrameShape.split {d : Nat} {bits : List Level} (h : FrameShape d bits) :
    bits = dominant :: (subBits bits 1 11 ++ (subBits bits 12 3 ++ (subBits bits 15 4 ++ (subBits bits 19 (8 * d) ++
      (subBits bits (19 + 8 * d) 15 ++ (bits.getD (34 + 8 * d) recessive :: bits.getD (35 + 8 * d) recessive ::
        bits.getD (36 + 8 * d) recessive :: List.replicate 7 recessive)))))) := by
  have hlen := h.length
  have hend : bits.drop (37 + 8 * d) = List.replicate 7 recessive := by
    rw [← h.eof, subBits, List.take_of_length_le (by simp; omega)]
  rw [← hend, show 37 + 8 * d = 36 + 8 * d + 1 by omega, ← drop_eq_getD_cons _ _ _ (by omega),
    show 36 + 8 * d = 35 + 8 * d + 1 by omega, ← drop_eq_getD_cons _ _ _ (by omega),
    show 35 + 8 * d = 34 + 8 * d + 1 by omega, ← drop_eq_getD_cons _ _ _ (by omega),
    show 34 + 8 * d = 19 + 8 * d + 15 by omega, ← drop_split, ← drop_split, ← drop_split bits 15, ← drop_split bits 12,
    ← drop_split bits 1, ← h.sof, ← drop_eq_getD_cons bits 0 _ (by omega), List.drop_zero]

/-- The fields read from a frame, laid out again, are the frame. -/
theorem FrameShape.frameBits_frameFields {d : Nat} {bits : List Level} (h : FrameShape d bits) :
    frameBits (frameFields d bits) = bits := by
  have hlen := h.length
  conv_rhs => rw [h.split]
  simp only [frameBits, frameFields, ser_fieldOf bits 1 11 (by omega), ser_fieldOf bits 12 3 (by omega),
    ser_fieldOf bits 15 4 (by omega), flatMap_fields bits 19 d (by omega), ser_fieldOf bits (19 + 8 * d) 15 (by omega),
    List.append_assoc, List.cons_append, List.nil_append]

/-- Settles O50: the decoder's checks leave one frame with the fields read. -/
theorem frameBitsHaveOneReading : Obligations.FrameBitsHaveOneReading := by
  unfold Obligations.FrameBitsHaveOneReading
  intro bits i h
  obtain ⟨d, hshape, hi⟩ := frameShape_of_decodeFrame bits i h
  obtain ⟨-, -, hwf, henc, -⟩ := ofFormat_some d _ i hi
  exact ⟨hwf.trans hshape.fits, by rw [henc, hshape.frameBits_frameFields]⟩

/-- A command code decodes to one of the four commands (R70). -/
theorem decodeCommand_isInternal (p : CmdPorts) : (decodeCommand p).isInternal = false := by
  unfold decodeCommand
  split_ifs <;> rfl

/-- Settles O51: each of the three forms of presentation, and each constructor. -/
theorem internalOperationsHaveNoEncoding : Obligations.InternalOperationsHaveNoEncoding := by
  unfold Obligations.InternalOperationsHaveNoEncoding
  constructor
  · intro p i h
    cases p with
    | command c => cases h; exact decodeCommand_isInternal c
    | frame bits =>
      obtain ⟨d, f, hi⟩ := decodeFrame_format bits i h
      obtain ⟨-, -, -, -, hint⟩ := ofFormat_some d f i hi
      exact hint
    | construct _ _ => cases h; rfl
  · intro i
    cases i <;> simp [encode, Instr.isInternal]

/-- The header-only frame with identifier 0x123 of V-CRC20. -/
def frameV20 : WireFrame :=
  { id := 0x123, ctl := 0, rawDlc := 0, data := [], crc := 0x6858, crcDel := true, ack := true, ackDel := true }

/-- Settles O52: the commands by their codes, the frame by its fields. -/
theorem wordsDecodeToTheirInstructions : Obligations.WordsDecodeToTheirInstructions := by
  unfold Obligations.WordsDecodeToTheirInstructions
  refine ⟨rfl, rfl, rfl, rfl, ?_⟩
  exact decodeFrame_frameBits 0 frameV20 (.df0 frameV20) rfl (by decide)

end Sys2Proof
end

section
/-! The bit codec over a sequence: what `ENC_SEQ` emits and leaves, the bounds of its stuffing, and the decoder that undoes it
(41_bit_codec.md R102 to R109). -/

namespace Sys2Proof.Machine

open Sys2Proof.Statements

/-! ### `ENC_INIT`, `ENC_SEQ` -/

/-- `ENC_INIT` answers `Done` and changes the encoder's pair alone (R102). -/
theorem exec_encInit (s : State) :
    exec .encInit s = .next { answered .done s with tx := s.tx.withEnc encStart } := rfl

/-- `ENC_SEQ` answers with the wire bits and changes the encoder's pair alone (R104). -/
theorem exec_encSeq_answered (bits : List Level) (s : State) :
    exec (.encSeq bits) s =
      .next { answered (.bits (encSeq bits)) s with tx := s.tx.withEnc (encBits bits encStart).2 } :=
  exec_encSeq bits s

/-- What `ENC_SEQ` answers, whatever state it leaves. -/
theorem bits_of_exec_encSeq (bits : List Level) (s t : State) (w : List Level) (h : exec (.encSeq bits) s = .next t)
    (hr : t.io.rsp = .bits w) : w = encSeq bits := by
  rw [exec_encSeq] at h
  cases h
  exact (Response.bits.inj hr).symm

/-- Settles O9: `encStart` is the pair of R102. -/
theorem encInitStartsTheRun : Obligations.EncInitStartsTheRun := by
  unfold Obligations.EncInitStartsTheRun
  exact exec_encInit

/-- One more bit, encoded after the others. -/
theorem encBits_append_singleton (bits : List Level) (b : Level) (e : Enc) :
    encBits (bits ++ [b]) e =
      ((encBits bits e).1 ++ (encBit b (encBits bits e).2).1, (encBit b (encBits bits e).2).2) := by
  rw [encBits_append, encBits_cons, encBits_nil, List.append_nil]

/-- Settles O11: the bits before the last go by `encBits_append_singleton`. -/
theorem encSeqIteratesEncBit : Obligations.EncSeqIteratesEncBit := by
  unfold Obligations.EncSeqIteratesEncBit
  refine fun s => ⟨⟨_, exec_encInit s, rfl⟩, fun bits b => ?_⟩
  refine ⟨_, _, _, _, exec_encSeq_answered bits s, rfl, exec_encBit_answered b _, rfl, ?_⟩
  rw [exec_encSeq_answered, encSeq, encBits_append_singleton]
  rfl

/-! ### The bounds of stuffing -/

/-- No six consecutive bits are equal. -/
def NoSix (w : List Level) : Prop := ∀ i b, i + 6 ≤ w.length → ∃ j, j < 6 ∧ w.getD (i + j) b ≠ b

theorem noSix_of_short (w : List Level) (h : w.length < 6) : NoSix w := fun i b hi => by omega

/-- A run of at most five before a bit that ends it. -/
theorem noSix_replicate_append (r : Nat) (x y : Level) (ys : List Level) (hr : r ≤ 5) (hxy : y ≠ x)
    (h : NoSix (y :: ys)) : NoSix (List.replicate r x ++ y :: ys) := by
  intro i b hi
  rw [List.length_append, List.length_replicate] at hi
  by_cases hir : i < r
  · by_cases hb : x = b
    · refine ⟨r - i, by omega, ?_⟩
      rw [show i + (r - i) = r by omega, List.getD_append_right _ _ _ _ (by simp)]
      simpa [← hb] using hxy
    · refine ⟨0, by omega, ?_⟩
      rw [Nat.add_zero, List.getD_append _ _ _ _ (by simpa using hir)]
      simpa [hir] using hb
  · obtain ⟨j, hj, hne⟩ := h (i - r) b (by omega)
    refine ⟨j, hj, ?_⟩
    rw [List.getD_append_right _ _ _ _ (by simp; omega), List.length_replicate, show i + j - r = i - r + j by omega]
    exact hne

/-- The encoder's output after the run it continues (R105 (a)). -/
theorem noSix_encBits (bs : List Level) (e : Enc) (h : EncOk e) :
    NoSix (List.replicate e.2.toNat e.1 ++ (encBits bs e).1) := by
  induction bs generalizing e with
  | nil =>
    have := h.2
    exact noSix_of_short _ (by simp; omega)
  | cons b bs ih =>
    have hih := ih (encBit b e).2 (encBit_ok b e h)
    rw [encBits_cons]
    obtain ⟨rfl, hn, he⟩ | ⟨rfl, hn, he⟩ | ⟨hb, he⟩ := encBit_cases b e h <;> rw [he] at hih ⊢
    · have hrun : (e.2 + 1).toNat = e.2.toNat + 1 := by simp; omega
      rw [hrun, List.replicate_succ', List.append_assoc] at hih
      exact hih
    · have hrun : List.replicate e.2.toNat e.1 ++ [e.1] = List.replicate 5 e.1 := by rw [hn]; rfl
      have := noSix_replicate_append 5 e.1 (!e.1) _ (Nat.le_refl 5) (by simp) hih
      rw [← hrun, List.append_assoc] at this
      exact this
    · exact noSix_replicate_append _ e.1 b _ (by have := h.2; omega) hb hih

/-- Settles O12: the start-of-frame bit is the run that `ENC_INIT` starts. -/
theorem stuffedRegionHasNoRunOfSix : Obligations.StuffedRegionHasNoRunOfSix := by
  unfold Obligations.StuffedRegionHasNoRunOfSix
  intro bits s t w h hr
  rw [bits_of_exec_encSeq bits s t w h hr]
  exact noSix_encBits bits encStart encStart_ok

/-- From a run of 1 to a run of at least 1, a stuff bit for every four bits at most (R105 (b)). -/
theorem encSeq_length_le (bits : List Level) : (encSeq bits).length ≤ bits.length + bits.length / 4 := by
  have hle := encBits_length_le bits encStart encStart_ok
  have hrun := (encBits_ok bits encStart encStart_ok).1
  have hstart : encStart.2.toNat = 1 := rfl
  rw [encSeq]
  omega

/-- Settles O13: the bounds on the length of the encoder's output. -/
theorem stuffBitsAreAtMostAQuarter : Obligations.StuffBitsAreAtMostAQuarter := by
  unfold Obligations.StuffBitsAreAtMostAQuarter
  intro bits s
  have hle := encSeq_length_le bits
  exact ⟨_, _, exec_encSeq_answered bits s, rfl, encBits_length_ge bits encStart, by omega⟩

/-! ### The decoder after the encoder -/

/-- The decoder's run is the encoder's. -/
def Follows (r : Receiver) (e : Enc) : Prop := r.lastbit = e.1 ∧ r.run = e.2

/-- The bit an event appends, if it appends one. -/
def DecEvent.appended : DecEvent → Option Level
  | .append b => some b
  | .drop | .hold | .frameEnd | .stuffError => none

theorem decEvents_cons {b : Level} {r r' : Receiver} {ev : DecEvent} (bs : List Level) (h : r.decBit b = (ev, r')) :
    decEvents (b :: bs) r = ev :: decEvents bs r' := by
  rw [decEvents, h]

/-- The decoder over what the encoder emits for one bit: the bit appended, its stuff bit dropped, and the runs equal again. -/
theorem decEvents_encBit (b : Level) (e : Enc) (r : Receiver) (ws : List Level) (hok : EncOk e) (h : Follows r e) :
    ∃ r', Follows r' (encBit b e).2 ∧
      decEvents ((encBit b e).1 ++ ws) r =
        (if (encBit b e).1.length = 2 then [.append b, .drop] else [.append b]) ++ decEvents ws r' := by
  obtain ⟨hlast, hrun⟩ := h
  have happend := decBit_append b r (by rw [hrun]; have := hok.2; omega)
  obtain ⟨hb, hn, he⟩ | ⟨hb, hn, he⟩ | ⟨hb, he⟩ := encBit_cases b e hok <;> rw [he]
  · rw [if_pos (hb.trans hlast.symm)] at happend
    refine ⟨{ r with run := r.run + 1 }, ⟨hlast.trans hb.symm, congrArg (· + 1) hrun⟩, ?_⟩
    exact decEvents_cons _ happend
  · rw [if_pos (hb.trans hlast.symm)] at happend
    have hfive : r.run + 1 = 5 := by rw [hrun]; exact BitVec.eq_of_toNat_eq (by simp [hn])
    have hdrop := decBit_drop (!b) { r with run := r.run + 1 } hfive (by simp [hlast, ← hb])
    refine ⟨{ r with lastbit := !b, run := 1 }, ⟨rfl, rfl⟩, ?_⟩
    exact (decEvents_cons _ happend).trans (congrArg _ (decEvents_cons _ hdrop))
  · rw [if_neg (fun hc => hb (hc.trans hlast))] at happend
    refine ⟨{ r with lastbit := b, run := 1 }, ⟨rfl, rfl⟩, ?_⟩
    exact decEvents_cons _ happend

theorem decEvents_encBits (bs : List Level) (e : Enc) (r : Receiver) (hok : EncOk e) (h : Follows r e) :
    decEvents (encBits bs e).1 r = owedEvents bs e := by
  induction bs generalizing e r with
  | nil => rfl
  | cons b bs ih =>
    obtain ⟨r', hr', hev⟩ := decEvents_encBit b e r (encBits bs (encBit b e).2).1 hok h
    rw [encBits_cons, hev, ih _ r' (encBit_ok b e hok) hr', owedEvents]

/-- The bits a decoder owes are those that were encoded. -/
theorem filterMap_owedEvents (bs : List Level) (e : Enc) : (owedEvents bs e).filterMap DecEvent.appended = bs := by
  induction bs generalizing e with
  | nil => rfl
  | cons b bs ih =>
    rw [owedEvents, List.filterMap_append, ih]
    split <;> rfl

/-- Settles O16: the decoder of `DEC_INIT` follows the encoder of `ENC_INIT`, and stays with it bit by bit. -/
theorem decoderInvertsEncoder : Obligations.DecoderInvertsEncoder := by
  unfold Obligations.DecoderInvertsEncoder
  intro bits s t u w ht hw hu
  rw [bits_of_exec_encSeq bits s t w ht hw]
  rw [exec_decInit] at hu
  cases hu
  refine ⟨decEvents_encBits bits encStart _ encStart_ok ⟨rfl, rfl⟩, ?_⟩
  have happended : (fun e : DecEvent => match e with | .append b => some b | _ => none) = DecEvent.appended := by
    funext e; cases e <;> rfl
  exact (congrArg (fun g => (owedEvents bits encStart).filterMap g) happended).trans (filterMap_owedEvents bits encStart)

end Sys2Proof.Machine
end

section
/-! The CRC over leading zeros and over a sequence with its own CRC behind it (42_crc15.md R124, R125). -/

namespace Sys2Proof.Machine

open Sys2Proof.Statements

theorem crcStep_zero_dominant : crcStep 0 dominant = 0 := rfl

theorem foldl_crcStep_zeros (n : Nat) : (List.replicate n dominant).foldl crcStep 0 = 0 := by
  induction n with
  | zero => rfl
  | succ n ih => rw [List.replicate_succ, List.foldl_cons, crcStep_zero_dominant, ih]

theorem crcOf_zeros_append (n : Nat) (bits : List Level) : crcOf (List.replicate n dominant ++ bits) = crcOf bits := by
  rw [crcOf, List.foldl_append, foldl_crcStep_zeros, crcOf]

/-- Settles O19: the register stays 0 over leading zeros. -/
theorem crcIgnoresLeadingZeros : Obligations.CrcIgnoresLeadingZeros := by
  unfold Obligations.CrcIgnoresLeadingZeros
  intro s n bits
  rw [exec_crc15, exec_crc15, crcOf_zeros_append]

/-- A step on the register's own top bit only shifts: the tap is 0 (R121). -/
theorem crcStep_top (reg : BitVec 15) : crcStep reg (reg.getLsbD 14) = reg <<< 1 := by
  simp [crcStep]

/-- Fed with its own bits, the register shifts them out one by one. -/
theorem foldl_crcStep_own (v : BitVec 15) (k : Nat) (hk : k ≤ 15) :
    ((List.range k).map fun i => v.getMsbD i).foldl crcStep v = v <<< k := by
  induction k with
  | zero => simp
  | succ k ih =>
    have htop : v.getMsbD k = (v <<< k).getLsbD 14 := by
      simp only [BitVec.getMsbD, BitVec.getLsbD_shiftLeft]
      simp [show k < 15 by omega, show ¬ 14 < k by omega]
    rw [List.range_succ, List.map_append, List.foldl_append, ih (by omega), List.map_singleton, htop]
    exact (crcStep_top _).trans (BitVec.shiftLeft_add v k 1).symm

theorem crcOf_append_own (bits : List Level) : crcOf (bits ++ ser 15 (crcOf bits)) = 0 := by
  have hown : (ser 15 (crcOf bits)).foldl crcStep (crcOf bits) = crcOf bits <<< 15 :=
    foldl_crcStep_own (crcOf bits) 15 (Nat.le_refl 15)
  rw [crcOf, List.foldl_append]
  exact hown.trans (BitVec.shiftLeft_eq_zero (Nat.le_refl 15))

/-- Settles O20: the 15 bits of the CRC shift the register empty. -/
theorem crcResidueIsZero : Obligations.CrcResidueIsZero := by
  unfold Obligations.CrcResidueIsZero
  intro s bits
  refine ⟨crcOf bits, exec_crc15 bits s, ?_⟩
  rw [exec_crc15, crcOf_append_own]

end Sys2Proof.Machine
end

section
/-! `SEND` as a whole: the one function of R144, the time it takes, the frame it puts on the bus, and what it does not depend on
(43_transmitter.md R142 to R144). -/

namespace Sys2Proof.Machine

open Sys2Proof.Statements

/-! ### `SEND` as one function -/

theorem sendWhole_busOff (fc : FaultConf) (f : TxFrame) (other : Nat → Level) (h : fc.state = .busOff) :
    sendWhole fc f other = { ok := false, cause := some .busOff, drove := [], fc := fc } := if_pos h

theorem sendWhole_lost (fc : FaultConf) (f : TxFrame) (other : Nat → Level) (p : Nat) (h : fc.state ≠ .busOff)
    (hl : wholeLost other 0 (wholeWire f) = some p) :
    sendWhole fc f other =
      { ok := false, cause := some .arbitrationLost, drove := ((wholeWire f).take p).map Prod.fst, fc := fc } := by
  simp only [sendWhole, if_neg h, hl]

theorem sendWhole_noAck (fc : FaultConf) (f : TxFrame) (other : Nat → Level) (h : fc.state ≠ .busOff)
    (hl : wholeLost other 0 (wholeWire f) = none) (hs : other (wholeWire f).length = recessive) :
    sendWhole fc f other =
      { ok := false, cause := some .noAck, drove := (wholeWire f).map Prod.fst ++ [recessive], fc := fc.onTxFailure } := by
  simp only [sendWhole, if_neg h, hl, if_pos hs]

theorem sendWhole_acked (fc : FaultConf) (f : TxFrame) (other : Nat → Level) (h : fc.state ≠ .busOff)
    (hl : wholeLost other 0 (wholeWire f) = none) (hs : other (wholeWire f).length = dominant) :
    sendWhole fc f other =
      { ok := true, cause := none, drove := (wholeWire f).map Prod.fst ++ List.replicate 9 recessive
        fc := fc.onTxSuccess } := by
  have hne : other (wholeWire f).length ≠ recessive := by rw [hs]; decide
  simp only [sendWhole, if_neg h, hl, if_neg hne, List.append_assoc, List.replicate_succ, List.cons_append, List.nil_append]

/-- What R144 makes of a `SEND` of `f` from `s`. -/
def State.sendResult (s : State) (f : TxFrame) : SendResult :=
  sendWhole s.fc f fun p => s.io.other.getD p recessive

/-- Outside Bus-Off the sequencer ends as R144 says. -/
theorem exec_send_active (f : TxFrame) (s t : State) (h : exec (.send f) s = .next t) (hb : s.fc.state ≠ .busOff) :
    TxEnded (txStart f (opStart s)) t (s.sendResult f).fc (s.sendResult f).ok (s.sendResult f).cause
      (s.sendResult f).drove := by
  cases exec_send_end f s t h with
  | busOff state _ => exact absurd state hb
  | lost p loss ended => rw [State.sendResult, sendWhole_lost _ _ _ p hb loss]; exact ended
  | noAck loss slot ended => rw [State.sendResult, sendWhole_noAck _ _ _ hb loss slot]; exact ended
  | acked loss slot ended => rw [State.sendResult, sendWhole_acked _ _ _ hb loss slot]; exact ended

/-- The hooks of `SEND` leave `REC` (R201, R203). -/
theorem sendResult_rec (s : State) (f : TxFrame) : (s.sendResult f).fc.rec_ = s.fc.rec_ := by
  by_cases hb : s.fc.state = .busOff
  · rw [State.sendResult, sendWhole_busOff _ _ _ hb]
  cases hl : s.lossOf f with
  | some p => rw [State.sendResult, sendWhole_lost _ _ _ p hb hl]
  | none =>
    cases hs : s.io.other.getD (wholeWire f).length recessive with
    | true => rw [State.sendResult, sendWhole_noAck _ _ _ hb hl hs]; exact onTxFailure_rec s.fc
    | false => rw [State.sendResult, sendWhole_acked _ _ _ hb hl hs]; exact onTxSuccess_rec s.fc

/-- Settles O23: at the gate by its own rule, past it by the end of the sequencer's run. -/
theorem sendIsOneFunctionOfFrameAndBus : Obligations.SendIsOneFunctionOfFrameAndBus := by
  unfold Obligations.SendIsOneFunctionOfFrameAndBus
  intro s f r hc hr
  have hexec := exec_send f s hc
  refine ⟨_, hexec, ?_⟩
  by_cases hb : s.fc.state = .busOff
  · rw [sendWhole_busOff _ _ _ hb] at hr
    rw [sendOp_busOff f s hb, hr]
    exact ⟨rfl, rfl, rfl, rfl, rfl, rfl, rfl, rfl, rfl, rfl, rfl, rfl, rfl, rfl, fun _ => ⟨rfl, rfl⟩, fun h => absurd hb h⟩
  · have ended := exec_send_active f s _ hexec hb
    change r = s.sendResult f at hr
    rw [← hr] at ended
    have hrec : r.fc.rec_ = s.fc.rec_ := by rw [hr]; exact sendResult_rec s f
    exact ⟨ended.sendOk, ended.rsp, ended.drove, ended.other, ended.fc, by rw [ended.fc, hrec], ended.kept.rx,
      ended.kept.rxf, ended.kept.readStatus, ended.kept.cfg, ended.kept.par, ended.kept.host, ended.kept.fresh,
      ended.kept.txf, fun h => absurd h hb, fun _ => ⟨ended.idle, ended.pin⟩⟩

/-! ### The time a `SEND` takes -/

/-- The levels of a frame to its CRC delimiter: `W` of R142, and one. -/
theorem wholeWire_length_encSeq (f : TxFrame) : (wholeWire f).length = (encSeq (txLogical f)).length + 2 := by
  rw [← List.length_map (f := Prod.fst), wholeWire_map]
  simp

/-- Arbitration is lost before the CRC delimiter. -/
theorem lossOf_le (f : TxFrame) (s : State) (p : Nat) (h : s.lossOf f = some p) :
    p ≤ (encSeq (txLogical f)).length + 1 := by
  have hsplit : wholeWire f = ((dominant, false) :: bodyWire f) ++ [(recessive, false)] := rfl
  rw [State.lossOf, hsplit, wholeLost_append_delimiter] at h
  obtain ⟨-, hle⟩ := wholeLost_bounds _ _ _ _ h
  have hlen := wholeWire_length f
  rw [wholeWire_length_encSeq] at hlen
  rw [List.length_cons] at hle
  omega

/-- What is driven up to an arbitration loss belongs to the start-of-frame bit and the stuffed region. -/
theorem take_wholeWire (f : TxFrame) (p : Nat) (h : p ≤ (encSeq (txLogical f)).length + 1) :
    ((wholeWire f).take p).map Prod.fst = (dominant :: encSeq (txLogical f)).take p := by
  rw [List.map_take, wholeWire_map, ← List.cons_append, List.take_append_of_le_length (by simpa using h)]

/-- Settles O24: the lengths of the four ends. -/
theorem sendTakesTheStatedPeriods : Obligations.SendTakesTheStatedPeriods := by
  unfold Obligations.SendTakesTheStatedPeriods
  intro s t f d W e w hd he hw hW h
  have hwire := bits_of_exec_encSeq _ s e w he hw
  subst hwire
  have hlog : (txLogical f).length = 33 + 8 * d := by rw [hd]; exact txLogical_length f
  have hge : (txLogical f).length ≤ (encSeq (txLogical f)).length := encBits_length_ge (txLogical f) encStart
  have hle := encSeq_length_le (txLogical f)
  have hlen := wholeWire_length_encSeq f
  rw [hlog] at hge hle
  refine ⟨by omega, by omega, ?_⟩
  cases exec_send_end f s t h with
  | busOff _ eq =>
    rw [eq]
    exact ⟨fun _ => rfl, nofun, nofun, nofun, .inl rfl⟩
  | lost p loss ended =>
    have hp := lossOf_le f s p loss
    obtain ⟨q, rfl, -, hother⟩ := lossOf_at f s p loss
    have hdrove := ended.drove.trans (take_wholeWire f (q + 1) hp)
    rw [ended.rsp]
    refine ⟨nofun, fun _ => ⟨q, by omega, ?_, hdrove, hother⟩, nofun, nofun, .inr (.inl rfl)⟩
    rw [hdrove, List.length_take, List.length_cons]
    omega
  | noAck _ _ ended =>
    have hdrove : t.io.drove.length = _ := congrArg List.length ended.drove
    rw [ended.rsp]
    refine ⟨nofun, nofun, fun _ => ?_, nofun, .inr (.inr (.inl rfl))⟩
    simp at hdrove
    omega
  | acked _ _ ended =>
    have hdrove : t.io.drove.length = _ := congrArg List.length ended.drove
    rw [ended.rsp]
    refine ⟨nofun, nofun, nofun, fun _ => ?_, .inr (.inr (.inr rfl))⟩
    simp at hdrove
    omega

/-! ### The frame on the bus -/

theorem ser_ctl_zero : ser 3 (0 : BitVec 3) = [dominant, dominant, dominant] := by decide

/-- The frame a transmit frame stands for has a good CRC (R63, R123). -/
theorem crc_wireOf (f : TxFrame) : (wireOf f).crc = crcOf (coveredBits (wireOf f)) := by
  simp only [wireOf, coveredBits, ser_ctl_zero]

/-- The logical bits of a transmit frame are those of the frame on the wire it stands for (R61, R63). -/
theorem frameLogical_wireOf (f : TxFrame) : frameLogical (wireOf f) = txLogical f := by
  simp only [frameLogical, wireOf, ser_ctl_zero, txLogical, txCovered, txLength, clampDlc]

theorem wireOf_fits (f : TxFrame) : (wireOf f).fits (min f.dlc.toNat 8) = true := by
  have hle : min f.dlc.toNat 8 ≤ 8 := Nat.min_le_right _ _
  have hraw : (BitVec.ofNat 4 (min f.dlc.toNat 8)).toNat = min f.dlc.toNat 8 := Nat.mod_eq_of_lt (by omega)
  simp only [WireFrame.fits, wireOf, hraw, Bool.and_eq_true, decide_eq_true_eq, List.length_take]
  exact ⟨Nat.min_eq_left hle, Nat.min_eq_left hle⟩

/-- There is a frame format for every payload length up to 8 (R62). -/
theorem exists_ofFormat (d : Nat) (f : WireFrame) (h : d ≤ 8) : ∃ i, Instr.ofFormat d f = some i := by
  interval_cases d <;> exact ⟨_, rfl⟩

/-- An acknowledged `SEND` drives the wire image of its frame (R104). -/
theorem drove_of_acked (f : TxFrame) (s t : State) (h : exec (.send f) s = .next t) (hr : t.io.rsp = .sent true none) :
    t.io.drove = wireImage (wireOf f) := by
  cases exec_send_end f s t h with
  | busOff _ eq => rw [eq] at hr; cases hr
  | lost _ _ ended => rw [ended.rsp] at hr; cases hr
  | noAck _ _ ended => rw [ended.rsp] at hr; cases hr
  | acked _ _ ended =>
    rw [ended.drove, wholeWire_map, wireImage, frameLogical_wireOf, List.cons_append, List.append_assoc]
    rfl

/-- Settles O27: the fields fit the format, and the levels are its wire image. -/
theorem sendEmitsItsFrameFormat : Obligations.SendEmitsItsFrameFormat := by
  unfold Obligations.SendEmitsItsFrameFormat
  intro s t f h hr
  obtain ⟨i, hi⟩ := exists_ofFormat (min f.dlc.toNat 8) (wireOf f) (Nat.min_le_right _ _)
  obtain ⟨-, -, -, henc, -⟩ := ofFormat_some _ _ i hi
  exact ⟨wireOf_fits f, drove_of_acked f s t h hr, i, hi, henc⟩

/-! ### What `SEND` does not depend on -/

theorem sendOp_of_busOff (f : TxFrame) (s : State) (h : s.fc.state = .busOff) :
    sendOp f s = respond (.sent false (some .busOff)) (raiseError .send .busOff (latchTxf f s)) := if_pos h

theorem sendOp_of_active (f : TxFrame) (s : State) (h : s.fc.state ≠ .busOff) :
    sendOp f s = txRun txFuel (txStart f s) := if_neg h

/-- `SEND` reads neither the receiver nor the registers it latches or leaves (R143). -/
theorem sendOp_withRest (f a : TxFrame) (b : RxFrame) (c : Receiver) (d : ReadStatus) (h : List Presented) (s : State) :
    sendOp f (withRest a b c d h s) = withRest f b c d h (sendOp f s) := by
  by_cases hb : s.fc.state = .busOff
  · rw [sendOp_of_busOff f s hb, sendOp_of_busOff f (withRest a b c d h s) hb]; rfl
  · rw [sendOp_of_active f s hb, sendOp_of_active f (withRest a b c d h s) hb, ← txRun_withRest]; rfl

/-- Frames that `TX_BUILD` lays out alike are sent alike, but for the latch `TXF`. -/
theorem sendOp_congr (f g : TxFrame) (s : State) (h : s.tx.build f = s.tx.build g) :
    sendOp f s = withRest f s.rxf s.rx s.readStatus s.io.host (sendOp g s) := by
  by_cases hb : s.fc.state = .busOff
  · rw [sendOp_of_busOff f s hb, sendOp_of_busOff g s hb]; rfl
  · rw [sendOp_of_active f s hb, sendOp_of_active g s hb, ← txRun_withRest, txStart, h]; rfl

/-- A `SEND` leaves the registers of R143, its latch aside. -/
theorem exec_send_kept (f : TxFrame) (s t : State) (h : exec (.send f) s = .next t) : TxKept (latchTxf f s) t := by
  have hstart : TxKept (latchTxf f s) (txStart f (opStart s)) := ⟨rfl, rfl, rfl, rfl, rfl, rfl, rfl, rfl⟩
  cases exec_send_end f s t h with
  | busOff _ eq => rw [eq]; exact ⟨rfl, rfl, rfl, rfl, rfl, rfl, rfl, rfl⟩
  | lost _ _ ended => exact hstart.trans ended.kept
  | noAck _ _ ended => exact hstart.trans ended.kept
  | acked _ _ ended => exact hstart.trans ended.kept

theorem withRest_own (b : RxFrame) (c : Receiver) (d : ReadStatus) (t : State) :
    withRest t.txf b c d t.io.host t = { t with rxf := b, rx := c, readStatus := d } := rfl

/-- Settles O29: the registers replaced are among those of `withRest`. -/
theorem sendIgnoresTheReceiver : Obligations.SendIgnoresTheReceiver := by
  unfold Obligations.SendIgnoresTheReceiver
  intro s t f rx rxf st h
  have hc := configured_of_send f s t h
  have kept := exec_send_kept f s t h
  have htxf : t.txf = f := kept.txf
  have hhost : t.io.host = s.io.host := kept.host
  rw [exec_send f s hc] at h
  obtain rfl := Host.Outcome.next.inj h
  have hself : withRest f rxf rx st s.io.host (sendOp f (opStart s)) =
      { sendOp f (opStart s) with rx := rx, rxf := rxf, readStatus := st } := by
    rw [← withRest_own, htxf, hhost]
  rw [exec_send f { s with rx := rx, rxf := rxf, readStatus := st } hc, ← hself]
  exact congrArg Host.Outcome.next (sendOp_withRest f s.txf rxf rx st s.io.host (opStart s))

/-- Above a length of 8 the length operand is not built in (R63). -/
theorem build_clamped (f g : TxFrame) (t : Transmitter) (hid : f.id = g.id) (hdata : f.data = g.data)
    (hf : 8 ≤ f.dlc.toNat) (hg : 8 ≤ g.dlc.toNat) : t.build f = t.build g := by
  have hlen : txLength f = txLength g := (Nat.min_eq_right hf).trans (Nat.min_eq_right hg).symm
  simp only [Transmitter.build, txLogical, txCovered, hlen, hid, hdata]

/-- Settles O26: the two frames are built alike, so they are sent alike. -/
theorem sendClampsTheLength : Obligations.SendClampsTheLength := by
  unfold Obligations.SendClampsTheLength
  intro s t u f g hid hdata hf hg ht hu
  have hc := configured_of_send f s t ht
  have hhost : u.io.host = s.io.host := (exec_send_kept g s u hu).host
  rw [exec_send f s hc] at ht
  rw [exec_send g s hc] at hu
  obtain rfl := Host.Outcome.next.inj ht
  obtain rfl := Host.Outcome.next.inj hu
  have heq := sendOp_congr f g (opStart s) (build_clamped f g s.tx hid hdata hf hg)
  rw [heq]
  refine ⟨?_, rfl, rfl, rfl⟩
  rw [withRest, opStart_host, ← hhost]

/-! ### Nobody acknowledges -/

/-- Nobody overrides a level when nobody else drives. -/
theorem wholeLost_silent (k : Nat) (ws : List (Level × Bool)) (h : ∀ x ∈ ws, x.2 = true → x.1 = true) :
    wholeLost (fun j => ([] : List Level).getD j recessive) k ws = none := by
  induction ws generalizing k with
  | nil => rfl
  | cons x ws ih =>
    obtain ⟨w, mon⟩ := x
    rw [wholeLost, if_neg, ih (k + 1) fun y hy => h y (List.mem_cons_of_mem _ hy)]
    rintro ⟨rfl, hdom⟩
    have hw : w = true := h (w, true) (List.mem_cons_self ..) rfl
    simp [hw] at hdom

/-- A `SEND` on a bus with nobody else: in Bus-Off it is mute, else it ends without an acknowledge (R139). -/
theorem exec_send_alone (f : TxFrame) (s : State) (hc : s.cfg.configured = true) (ho : s.io.other = []) :
    ∃ t, exec (.send f) s = .next t ∧ t.cfg = s.cfg ∧ t.io.other = [] ∧ t.sendOk = false ∧
      t.fc = if s.fc.state = .busOff then s.fc else s.fc.onTxFailure := by
  have hexec := exec_send f s hc
  refine ⟨_, hexec, ?_⟩
  have hnone : s.lossOf f = none := by
    rw [State.lossOf, ho]
    exact wholeLost_silent 0 (wholeWire f) (wholeWire_monitored f)
  by_cases hb : s.fc.state = .busOff
  · rw [sendOp_busOff f s hb, if_pos hb]
    exact ⟨rfl, ho, rfl, rfl⟩
  · rw [if_neg hb]
    have hslot : s.io.other.getD (wholeWire f).length recessive = recessive := by rw [ho]; rfl
    have ended := exec_send_active f s _ hexec hb
    rw [State.sendResult, sendWhole_noAck _ _ _ hb hnone hslot] at ended
    refine ⟨ended.kept.cfg, ?_, ended.sendOk, ended.fc⟩
    rw [ended.other, txStart_io, opStart_other, ho, List.drop_nil]

/-- `k` lone `SEND`s, and one more (R201). -/
theorem fcIs_lone_send (c : FaultConf) (k : Nat) (h : fcIs c (8 * min k 32) 0) :
    fcIs (if c.state = .busOff then c else c.onTxFailure) (8 * min (k + 1) 32) 0 := by
  obtain ⟨htec, hrec, hstate⟩ := h
  by_cases hk : 32 ≤ k
  · have hoff : c.state = .busOff := by
      rw [hstate, classNat, if_pos (by omega)]
    rw [if_pos hoff]
    exact ⟨by omega, hrec, by rw [hstate]; congr 1; omega⟩
  · have hon : c.state ≠ .busOff := by
      rw [hstate, classNat, if_neg (by omega)]
      split_ifs <;> decide
    have hfail := fcIs_onTxFailure c (by omega)
    rw [if_neg hon, htec, hrec] at hfail
    rw [if_neg hon, show 8 * min (k + 1) 32 = 8 * min k 32 + 8 by omega]
    exact hfail

theorem sends_alone (fs : List TxFrame) (s : State) (k : Nat) (hc : s.cfg.configured = true)
    (hfc : fcIs s.fc (8 * min k 32) 0) (ho : s.io.other = []) :
    ∃ t, sends fs s = some t ∧ fcIs t.fc (8 * min (k + fs.length) 32) 0 ∧
      (0 < fs.length ∨ s.sendOk = false → t.sendOk = false) := by
  induction fs generalizing s k with
  | nil => exact ⟨s, rfl, hfc, fun h => h.resolve_left (Nat.lt_irrefl 0)⟩
  | cons f fs ih =>
    obtain ⟨u, hexec, hcfg, hother, hok, hufc⟩ := exec_send_alone f s hc ho
    have hcu : u.cfg.configured = true := by rw [hcfg]; exact hc
    have hfcu : fcIs u.fc (8 * min (k + 1) 32) 0 := by rw [hufc]; exact fcIs_lone_send s.fc k hfc
    obtain ⟨t, hsends, htfc, htok⟩ := ih u (k + 1) hcu hfcu hother
    refine ⟨t, ?_, ?_, fun _ => htok (.inr hok)⟩
    · rw [sends, hexec]
      exact hsends
    · rw [List.length_cons, show k + (fs.length + 1) = k + 1 + fs.length by omega]
      exact htfc

/-- Settles O28: by induction over the `SEND`s, from a node that has sent `k` frames to nobody. -/
theorem unacknowledgedSendsReachBusOff : Obligations.UnacknowledgedSendsReachBusOff := by
  unfold Obligations.UnacknowledgedSendsReachBusOff
  intro fs s hc hfc ho
  obtain ⟨t, hsends, htfc, htok⟩ := sends_alone fs s 0 hc hfc ho
  rw [Nat.zero_add] at htfc
  exact ⟨t, hsends, htfc, fun h => htok (.inl h)⟩

end Sys2Proof.Machine
end

section
/-! A `SEND` in progress, one bit period per step: commands wait, and the steps together make the whole `SEND`
(46_host_interface.md R217; 43_transmitter.md R133; log 8). -/

namespace Sys2Proof.Machine

open Sys2Proof.Statements

/-- What waits for the end of a `SEND`: a command at the head, or nothing (R217). -/
def State.CommandsOnly (s : State) : Prop := ∀ p, s.io.host.head? = some p → ∃ c, p = .command c

theorem txph_of_busy {s : State} (h : s.busy = true) : s.tx.txph ≠ .txIdle := of_decide_eq_true h

theorem txph_of_not_busy {s : State} (h : s.busy = false) : s.tx.txph = .txIdle :=
  not_not.mp (of_decide_eq_false h)

/-- While a command waits, a step is one bit period of the transmitter. -/
theorem step_busy (s : State) (hb : s.busy = true) (hw : s.CommandsOnly) : step s = .next (txPeriod (opStart s)) := by
  have hnone : fetch s = none := fetch_of_busy s hb fun p hp => by
    obtain ⟨c, rfl⟩ := hw p hp
    rfl
  rw [step_of_no_fetch s hnone, if_pos hb]

/-- The reset does not wait (R217, R270; log 21). -/
theorem fetch_of_construct (s : State) (rx tx : Nat) (rest : List Presented) (h : s.io.host = .construct rx tx :: rest) :
    fetch s = some (.construct rx tx, { s with io := { s.io with host := rest } }) := by
  simp [fetch, h, isReset]

/-- Settles O55: a waiting command leaves the step to the transmitter (`txPeriod_outputs`), a reset is fetched. -/
theorem commandsWaitWhileBusy : Obligations.CommandsWaitWhileBusy := by
  unfold Obligations.CommandsWaitWhileBusy
  refine fun s hb => ⟨fun hw => ⟨_, step_busy s hb hw, ?_⟩, fun rx tx rest hh => ?_⟩
  · obtain ⟨w, r, hdrove, hhost, hother, -, -⟩ := txPeriod_outputs (opStart s) (txph_of_busy hb)
    refine ⟨hhost, ?_, hother⟩
    rw [hdrove]
    rfl
  · exact step_of_fetch s _ _ _ (fetch_of_construct s rx tx rest hh) rfl

/-- One bit period of a `SEND` by a step, beside the same period of its run: only the outputs differ. -/
theorem step_withOutputs (d : List Level) (r : Response) (s : State) (hb : s.busy = true) (hw : s.CommandsOnly) :
    ∃ w r', step (withOutputs d r s) = .next (withOutputs [w] r' (txPeriod s)) ∧
      (txPeriod s).io.drove = s.io.drove ++ [w] ∧ (txPeriod s).CommandsOnly ∧
      ((txPeriod s).busy = false → r' = (txPeriod s).io.rsp) := by
  obtain ⟨w, r', hdrove, hhost, -, hperiod, hrsp⟩ := txPeriod_outputs s (txph_of_busy hb)
  refine ⟨w, r', ?_, hdrove, ?_, fun h => hrsp (txph_of_not_busy h)⟩
  · rw [step_busy (withOutputs d r s) hb hw]
    exact congrArg Host.Outcome.next hperiod
  · intro p hp
    exact hw p (by rw [← hhost]; exact hp)

/-- Steps until the run of the sequencer is over, from a state that may differ from it in the outputs. -/
theorem busySteps_txRun (n : Nat) (s : State) (d : List Level) (r : Response) (hw : s.CommandsOnly)
    (hr : s.busy = false → r = s.io.rsp) (hend : (txRun n s).busy = false) :
    ∃ l d', (txRun n s).io.drove = s.io.drove ++ l ∧
      busySteps l.length (withOutputs d r s) = (l, withOutputs d' (txRun n s).io.rsp (txRun n s)) := by
  induction n generalizing s d r with
  | zero =>
    refine ⟨[], d, (List.append_nil _).symm, ?_⟩
    rw [hr hend]
    rfl
  | succ n ih =>
    cases hb : s.busy with
    | false =>
      rw [txRun_idle _ s (txph_of_not_busy hb)]
      refine ⟨[], d, (List.append_nil _).symm, ?_⟩
      rw [hr hb]
      rfl
    | true =>
      rw [txRun_busy n s (txph_of_busy hb)] at hend ⊢
      obtain ⟨w, r', hstep, hdrove, hw', hr'⟩ := step_withOutputs d r s hb hw
      obtain ⟨l, d', hl, hsteps⟩ := ih (txPeriod s) [w] r' hw' hr' hend
      refine ⟨w :: l, d', by rw [hl, hdrove, List.append_assoc]; rfl, ?_⟩
      have hbusy : (withOutputs d r s).busy = true := hb
      simp only [List.length_cons, busySteps, hbusy, if_true, hstep, hsteps]
      rfl

/-- Settles O30: the acceptance differs from the start of the run in the outputs alone. -/
theorem busyStepsMakeTheWholeSend : Obligations.BusyStepsMakeTheWholeSend := by
  unfold Obligations.BusyStepsMakeTheWholeSend
  intro s t f hc hb hw h
  have ended := exec_send_active f s t h hb
  have hidle : t.busy = false := by rw [state_busy, ended.idle]; rfl
  have ht : t = txRun txFuel (txStart f (opStart s)) := by
    rw [exec_send f s hc, sendOp_active f s hb] at h
    exact (Host.Outcome.next.inj h).symm
  obtain ⟨l, d', hl, hsteps⟩ :=
    busySteps_txRun txFuel (txStart f (opStart s)) s.io.drove s.io.rsp hw nofun (by rw [← ht]; exact hidle)
  rw [← ht] at hl hsteps
  replace hl : t.io.drove = l := hl
  rw [hl]
  exact ⟨_, hsteps, hidle, by rw [← hl]; rfl⟩

end Sys2Proof.Machine
end

section
/-! Whole frames: a frame format is a run of `READ`s; what a ready node makes of a frame, by its CRC; and the round trip from a
sender to a receiver (30_encoding.md R73; 44_receiver.md R170 to R177). -/

namespace Sys2Proof.Machine

open Sys2Proof.Statements

/-- Settles O41: a frame format receives the levels of its wire image (`receiveLevels_eq_reads`). -/
theorem frameFormatsAreOneReadPerBitPeriod : Obligations.FrameFormatsAreOneReadPerBitPeriod := by
  unfold Obligations.FrameFormatsAreOneReadPerBitPeriod
  intro s d f i hi hc
  refine ⟨_, ?_, reads_length (wireImage f) s hc, rfl⟩
  rw [exec_ofFormat d f i hi, receiveFrame, receiveLevels_eq_reads (wireImage f) s hc]
  rfl

/-! ### A frame at a ready node -/

/-- A node ready to receive is idle on an idle line. -/
theorem idleNode_of_ready {s : State} (h : ReadyToReceive s) : IdleNode s s := by
  obtain ⟨hc, -, hidle, hack, hwf, hpin, hcap⟩ := h
  exact ⟨⟨rfl, rfl, rfl, rfl, rfl, rfl, rfl, hc, hcap⟩, hpin, hidle, hack, hwf⟩

theorem active_of_ready {s : State} (h : ReadyToReceive s) : s.fc.state ≠ .busOff := by
  obtain ⟨-, hb, -⟩ := h
  exact hb

theorem configured_of_ready {s : State} (h : ReadyToReceive s) : s.cfg.configured = true := by
  obtain ⟨hc, -⟩ := h
  exact hc

/-- The start of an operation leaves a ready node ready. -/
theorem ready_opStart {s : State} (h : ReadyToReceive s) : ReadyToReceive (opStart s) := h

/-- The fields of a frame that has been received. -/
def HoldsFields (s : State) (f : WireFrame) (d : Nat) : Prop :=
  s.rxf.id = f.id ∧ s.rxf.dlc.toNat = d ∧ (dataBytes s.rxf.data).take d = f.data

/-- The bits up to the CRC delimiter, whatever the CRC (R171): the acknowledge is due in the next period exactly if it is good. -/
theorem receiving_to_ackSlot (s : State) (f : WireFrame) (d : Nat) (hf : f.fits d = true) (hd8 : d ≤ 8) (hi : IdleNode s s)
    (hb : s.fc.state ≠ .busOff) :
    ∃ s', readPeriods (dominant :: encSeq (frameLogical f) ++ [recessive]) s =
        (List.replicate ((encSeq (frameLogical f)).length + 2) (.noMessage, none), s') ∧
      Receiving s s' (frameLogical f ++ [recessive]) (List.replicate ((encSeq (frameLogical f)).length + 2) recessive) ∧
      s'.rx.lastbit = recessive ∧ 1 ≤ s'.rx.run.toNat ∧ s'.rx.run.toNat ≤ 5 ∧
      (f.crc = crcOf (frameCovered f) → s'.rx.ackcnt = 1) ∧ (f.crc ≠ crcOf (frameCovered f) → s'.rx.ackcnt = 0) := by
  have hlen := frameLogical_length f d hf
  obtain ⟨s1, e, h1, m1, ⟨-, hrun⟩, ⟨-, hle⟩, hgood, hbad⟩ := receiving_region s f d hf hd8 hi hb
  rw [← hrun] at hle
  have hack : s1.rx.ackcnt ≠ 1 := by
    by_cases hcrc : f.crc = crcOf (frameCovered f)
    · rw [hgood hcrc]; decide
    · rw [hbad hcrc]; decide
  obtain ⟨s2, h2, m2, hlast, hrun2, hack2⟩ := receiving_crcDel s s1 _ _ m1 hb hle hack (by omega)
    (not_armed_long f d hf [recessive] (by simp))
  refine ⟨s2, ?_, ?_, hlast, ?_, ?_, fun h => ?_, fun h => ?_⟩
  · rw [readPeriods_append h1 (readPeriods_cons h2 rfl), List.replicate_succ' (n := _ + 1)]; rfl
  · rw [List.replicate_succ' (n := _ + 1)]; exact m2
  · rw [hrun2]; split <;> omega
  · rw [hrun2]; split <;> omega
  · rw [hack2, countDown_ackcnt, hgood h]; decide
  · rw [hack2, countDown_ackcnt, hbad h]; decide

/-- From a dominant acknowledge slot to the idle line: the ACK delimiter and the end of frame, seven recessive bits of which end
the frame one period before its last. -/
theorem receiving_after_ackSlot (s0 s : State) (f : WireFrame) (d : Nat) (hf : f.fits d = true) (hd8 : d ≤ 8)
    (hb : s0.fc.state ≠ .busOff) (l : Level) (drv : List Level) (h : Receiving s0 s (frameLogical f ++ [recessive]) drv)
    (hlast : s.rx.lastbit = recessive) (hrun : s.rx.run.toNat ≤ 5)
    (ha : s.rx.ackcnt = 1 ∨ (s.rx.ackcnt = 0 ∧ l = dominant)) (r : RxResult) (c : FaultConf)
    (hcase : (f.crc = crcOf (frameCovered f) ∧ r = (.messageOk, none) ∧ c = s0.fc.onRxSuccess) ∨
      (f.crc ≠ crcOf (frameCovered f) ∧ r = (.frameError, some .crcMismatch) ∧ c = s0.fc.onRxFailure)) :
    ∃ s', readPeriods (l :: recessive :: List.replicate 7 recessive) s =
        (List.replicate 7 (.noMessage, none) ++ r :: idleResults c 1, s') ∧
      IdleNode s0 s' ∧ s'.fc = c ∧ s'.io.drove = s0.io.drove ++ drv ++ [drvOf s] ++ List.replicate 8 recessive ∧
      (r.1 = .messageOk → HoldsFields s' f d) ∧ (r.1 ≠ .messageOk → s'.rxf = s0.rxf) := by
  have hlen := frameLogical_length f d hf
  have hna : ∀ x, x ≠ [] → ¬ Armed (frameLogical f ++ x) := not_armed_long f d hf
  obtain ⟨s1, x, h1, m1, hlast1, hrun1, hx, hack1⟩ := receiving_ackSlot s0 s _ drv l h hb hlast hrun ha
    (by simp; omega) (by rw [List.append_assoc]; exact hna _ (by simp))
  obtain ⟨s2, h2, m2, hlast2, hrun2, hack2⟩ := receiving_crcDel s0 s1 _ _ m1 hb (by rw [hrun1]; decide)
    (by rw [hack1]; decide) (by simp; omega) (by rw [List.append_assoc, List.append_assoc]; exact hna _ (by simp))
  rw [if_neg (by rw [hlast1]; decide)] at hrun2
  rw [countDown_ackcnt, if_pos hack1] at hack2
  rw [List.append_assoc, List.append_assoc] at m2
  obtain ⟨s3, h3, hidle, hfc, hdrove, hok, hbad⟩ := receiving_finish s0 s2 f d 1 4 ([recessive] ++ (x ++ [recessive])) _ hf hd8
    (by simp) (by simp; omega) m2 hb hlast2 (by omega) hack2 r c hcase
  refine ⟨s3, readPeriods_cons h1 (readPeriods_cons h2 h3), hidle, hfc, ?_, hok, hbad⟩
  rw [hdrove]
  simp [List.replicate_succ]

/-- A frame with recessive delimiters on the wire, cut before the acknowledge slot (R66). -/
theorem wireImage_split (f : WireFrame) (hc : f.crcDel = recessive) (ha : f.ackDel = recessive) :
    wireImage f = (dominant :: encSeq (frameLogical f) ++ [recessive]) ++ f.ack :: recessive :: List.replicate 7 recessive := by
  simp [wireImage, frameTail, hc, ha]

/-- The number of levels of a frame on the wire. -/
theorem wireImage_length (f : WireFrame) : (wireImage f).length = (encSeq (frameLogical f)).length + 11 := by
  simp [wireImage, frameTail]

/-- A frame with a good CRC at a ready node: delivered in the period before its last, and acknowledged in its slot alone. -/
theorem receive_good_frame (s : State) (f : WireFrame) (d : Nat) (hf : f.fits d = true) (hd8 : d ≤ 8)
    (hr : ReadyToReceive s) (hcrc : f.crc = crcOf (coveredBits f)) (hc : f.crcDel = recessive) (ha : f.ackDel = recessive) :
    ∃ s', readPeriods (wireImage f) s =
        (List.replicate ((encSeq (frameLogical f)).length + 9) (.noMessage, none) ++
          (.messageOk, none) :: idleResults s.fc.onRxSuccess 1, s') ∧
      IdleNode s s' ∧ s'.fc = s.fc.onRxSuccess ∧
      s'.io.drove = s.io.drove ++ List.replicate ((encSeq (frameLogical f)).length + 2) recessive ++ [dominant] ++
        List.replicate 8 recessive ∧
      HoldsFields s' f d := by
  have hb : s.fc.state ≠ .busOff := active_of_ready hr
  obtain ⟨s1, h1, m1, hlast, -, hrun, hack, -⟩ := receiving_to_ackSlot s f d hf hd8 (idleNode_of_ready hr) hb
  obtain ⟨s2, h2, hidle, hfc, hdrove, hfields, -⟩ :=
    receiving_after_ackSlot s s1 f d hf hd8 hb f.ack _ m1 hlast hrun (.inl (hack hcrc)) _ _ (.inl ⟨hcrc, rfl, rfl⟩)
  refine ⟨s2, ?_, hidle, hfc, ?_, hfields rfl⟩
  · rw [wireImage_split f hc ha, readPeriods_append h1 h2, ← List.append_assoc, List.replicate_append_replicate]
  · rw [hdrove, drvOf, if_pos (hack hcrc)]

/-- A success of the receiver does not lead into Bus-Off (R204). -/
theorem onRxSuccess_not_busOff (c : FaultConf) (h : c.Good) (hb : c.state ≠ .busOff) : c.onRxSuccess.state ≠ .busOff := by
  obtain ⟨htec, hrec⟩ := good_counters c h hb
  obtain ⟨-, -, hstate⟩ := fcIs_onRxSuccess c
  rw [hstate, classNat, if_neg (by omega)]
  split <;> decide

/-- What an idle node has kept, with its counters, is a ready node. -/
theorem IdleNode.ready {s0 s : State} (h : IdleNode s0 s) (hb : s.fc.state ≠ .busOff) : ReadyToReceive s :=
  ⟨by rw [h.kept.cfg]; exact h.kept.conf, hb, h.idle, h.ack, h.wf, h.pin, by rw [h.kept.par]; exact h.kept.cap⟩

/-- Settles O42: the frame format receives its wire image, and `receive_good_frame` says what that does. -/
theorem goodFrameIsDeliveredAndAcknowledged : Obligations.GoodFrameIsDeliveredAndAcknowledged := by
  unfold Obligations.GoodFrameIsDeliveredAndAcknowledged
  intro s d f i hi hw hr hg hcrc hc ha
  obtain ⟨hd8, -, hwf, -, -⟩ := ofFormat_some d f i hi
  obtain ⟨t, ht, hidle, hfc, hdrove, hid, hdlc, hdata⟩ :=
    receive_good_frame (opStart s) f d (hwf.symm.trans hw) hd8 (ready_opStart hr) hcrc hc ha
  have hon : s.fc.onRxSuccess.state ≠ .busOff := onRxSuccess_not_busOff s.fc hg (active_of_ready hr)
  have hready : ReadyToReceive t := hidle.ready (by rw [hfc]; exact hon)
  have hexec : exec i s = .next (respond (.statuses (readPeriods (wireImage f) (opStart s)).1)
      (readPeriods (wireImage f) (opStart s)).2) := by
    rw [exec_ofFormat d f i hi, receiveFrame_configured f s (configured_of_ready hr)]
  rw [ht] at hexec
  refine ⟨_, (encSeq (frameLogical f)).length + 1, hexec, wireImage_length f, ?_, hdrove, hid, hdlc, hdata, ?_, hready,
    hidle.kept.cfg, hidle.kept.tx, hidle.kept.txf, hidle.kept.sendOk, hidle.kept.par, hidle.kept.host, hidle.kept.other⟩
  · rw [idleResults, opStart_fc, if_neg hon]; rfl
  · rw [respond_fc, hfc]; exact fcIs_onRxSuccess s.fc

/-- A frame with a wrong CRC at a ready node: one error, and nothing driven. -/
theorem receive_bad_frame (s : State) (f : WireFrame) (d : Nat) (hf : f.fits d = true) (hd8 : d ≤ 8)
    (hr : ReadyToReceive s) (hcrc : f.crc ≠ crcOf (coveredBits f)) (hc : f.crcDel = recessive) (ha : f.ackDel = recessive) :
    ∃ s' j k n, readPeriods (wireImage f) s =
        (List.replicate j (.noMessage, none) ++ (.frameError, some .crcMismatch) :: idleResults s.fc.onRxFailure k, s') ∧
      IdleNode s s' ∧ s'.fc = s.fc.onRxFailure ∧ s'.io.drove = s.io.drove ++ List.replicate n recessive ∧
      s'.rxf = s.rxf := by
  have hb : s.fc.state ≠ .busOff := active_of_ready hr
  obtain ⟨s1, h1, m1, hlast, hpos, hrun, -, hack⟩ := receiving_to_ackSlot s f d hf hd8 (idleNode_of_ready hr) hb
  have hsilent : s1.rx.ackcnt ≠ 1 := by rw [hack hcrc]; decide
  rw [wireImage_split f hc ha]
  cases hslot : f.ack with
  | false =>
    obtain ⟨s2, h2, hidle, hfc, hdrove, -, hrxf⟩ := receiving_after_ackSlot s s1 f d hf hd8 hb dominant _ m1 hlast hrun
      (.inr ⟨hack hcrc, rfl⟩) _ _ (.inr ⟨hcrc, rfl, rfl⟩)
    refine ⟨s2, (encSeq (frameLogical f)).length + 2 + 7, 1, (encSeq (frameLogical f)).length + 2 + (1 + 8), ?_, hidle, hfc,
      ?_, hrxf (by simp)⟩
    · rw [readPeriods_append h1 h2, ← List.append_assoc, List.replicate_append_replicate]
    · rw [hdrove, drvOf_silent s1 hsilent, ← List.replicate_one, List.append_assoc, List.append_assoc,
        List.replicate_append_replicate, List.replicate_append_replicate]
  | true =>
    obtain ⟨k, hk⟩ : ∃ k, s1.rx.run.toNat + k = 5 := ⟨5 - s1.rx.run.toNat, by omega⟩
    obtain ⟨s2, h2, hidle, hfc, hdrove, -, hrxf⟩ := receiving_finish s s1 f d (7 - k) k [recessive] _ hf hd8 (by simp)
      (by simp) m1 hb hlast hk (hack hcrc) _ _ (.inr ⟨hcrc, rfl, rfl⟩)
    have hnine : recessive :: recessive :: List.replicate 7 recessive = List.replicate (k + 2 + (7 - k)) recessive := by
      rw [show k + 2 + (7 - k) = 9 by omega]; rfl
    refine ⟨s2, (encSeq (frameLogical f)).length + 2 + (k + 1), 7 - k,
      (encSeq (frameLogical f)).length + 2 + (k + 2 + (7 - k)), ?_, hidle, hfc, ?_, hrxf (by simp)⟩
    · rw [hnine, readPeriods_append h1 h2, ← List.append_assoc, List.replicate_append_replicate]
    · rw [hdrove, List.append_assoc, List.append_assoc, List.replicate_append_replicate, List.replicate_append_replicate]

/-- A failure of the receiver leads into Bus-Off exactly when `REC` passes 255 (R200, R202). -/
theorem onRxFailure_busOff_iff (c : FaultConf) (h : c.Good) (hb : c.state ≠ .busOff) :
    c.onRxFailure.state = .busOff ↔ c.rec_.toNat + 1 > 255 := by
  obtain ⟨htec, hrec⟩ := good_counters c h hb
  obtain ⟨-, -, hstate⟩ := fcIs_onRxFailure c hb (by omega)
  rw [hstate, classNat]
  by_cases hfull : c.rec_.toNat + 1 > 255
  · simp [hfull]
  · rw [if_neg (by omega)]
    refine ⟨fun hc => ?_, fun hc => absurd hc hfull⟩
    split at hc <;> cases hc

/-- Settles O43: the frame format receives its wire image, and `receive_bad_frame` says what that does. -/
theorem wrongCrcIsOneFrameErrorAndNoAck : Obligations.WrongCrcIsOneFrameErrorAndNoAck := by
  unfold Obligations.WrongCrcIsOneFrameErrorAndNoAck
  intro s d f i hi hw hr hg hcrc hc ha
  obtain ⟨hd8, -, hwf, -, -⟩ := ofFormat_some d f i hi
  obtain ⟨t, j, k, n, ht, hidle, hfc, hdrove, hrxf⟩ :=
    receive_bad_frame (opStart s) f d (hwf.symm.trans hw) hd8 (ready_opStart hr) hcrc hc ha
  have hb : s.fc.state ≠ .busOff := active_of_ready hr
  have hlen := readPeriods_length (wireImage f) (opStart s)
  have hexec : exec i s = .next (respond (.statuses (readPeriods (wireImage f) (opStart s)).1)
      (readPeriods (wireImage f) (opStart s)).2) := by
    rw [exec_ofFormat d f i hi, receiveFrame_configured f s (configured_of_ready hr)]
  rw [ht] at hexec hlen
  refine ⟨_, j, k, hexec, ?_, ?_, fun l hl => ?_, hrxf, ?_, hidle.idle, hidle.ack⟩
  · rw [← hlen]
    simp [idleResults]
    omega
  · rw [respond_rsp, idleResults, opStart_fc, List.append_assoc]
    simp only [onRxFailure_busOff_iff s.fc hg hb, List.singleton_append]
  · rw [respond_drove, hdrove, opStart_drove, List.nil_append] at hl
    exact List.eq_of_mem_replicate hl
  · rw [respond_fc, hfc]
    have hle := hg.rec_bound
    exact fcIs_onRxFailure s.fc hb (by omega)

/-! ### The round trip -/

/-- Settles O44: an acknowledged `SEND` drives the wire image of its frame (`drove_of_acked`), whose CRC is good by construction. -/
theorem roundTripFromSenderToReceiver : Obligations.RoundTripFromSenderToReceiver := by
  unfold Obligations.RoundTripFromSenderToReceiver
  intro a ta b f h hr hb
  obtain ⟨t, ht, -, -, -, hid, hdlc, hdata⟩ := receive_good_frame b (wireOf f) (min f.dlc.toNat 8) (wireOf_fits f)
    (Nat.min_le_right _ _) hb (crc_wireOf f) rfl rfl
  rw [drove_of_acked f a ta h hr, ht]
  refine ⟨hid, hdlc, hdata, ?_⟩
  simp [idleResults]

end Sys2Proof.Machine
end

section
/-! The host interface: construction, `BEGIN`, the refusals before it, `SAMPLE_RX`, and what a step runs
(46_host_interface.md R217 to R225; 40_line_driver.md R94). -/

namespace Sys2Proof.Machine

open Sys2Proof.Statements

/-- `NEW` leaves the construction state, and answers nothing (R218; log 21). -/
theorem exec_new (rxPin txPin : Nat) (s : State) :
    exec (.new rxPin txPin) s = .next (respond .none (construct (opStart s))) := rfl

/-- Settles O2: `NEW` does not read its operands, and `construct` gives the registers of the first column of R32. -/
theorem newConstructsWhateverThePins : Obligations.NewConstructsWhateverThePins := by
  unfold Obligations.NewConstructsWhateverThePins
  intro s rxPin txPin rxPin' txPin'
  exact ⟨_, exec_new rxPin txPin s, exec_new rxPin' txPin' s, ⟨rfl, rfl, rfl⟩, rfl, rfl, rfl, rfl, rfl, rfl, rfl, rfl, rfl⟩

/-- A baud rate out of range (R219, R225). -/
theorem exec_begin_refused (baud now : BitVec 32) (s : State) (h : baudOk baud = false) :
    exec (.begin baud now) s = .refused .baudOutOfRange := by
  simp [exec, execBegin, h]

theorem baudOk_iff (baud : BitVec 32) : baudOk baud = true ↔ 1 ≤ baud.toNat ∧ baud.toNat ≤ 1000000 := by
  simp [baudOk, Config.baudMax]

/-- A `BEGIN` that answers a next state had a baud rate in range. -/
theorem baudOk_of_begin (baud now : BitVec 32) (s t : State) (h : exec (.begin baud now) s = .next t) :
    baudOk baud = true := by
  by_contra hbad
  rw [exec_begin_refused baud now s (Bool.eq_false_iff.mpr hbad)] at h
  cases h

/-- The bit time of a baud rate in range fits its register (R18). -/
theorem toNat_bittime (baud : BitVec 32) : (BitVec.ofNat 32 (1000000 / baud.toNat)).toNat = 1000000 / baud.toNat := by
  have hle : 1000000 / baud.toNat ≤ 1000000 := Nat.div_le_self _ _
  exact Nat.mod_eq_of_lt (by omega)

/-- Settles O4: `beginOp` for a rate in range, the refusal for any other. -/
theorem beginConfiguresTheNode : Obligations.BeginConfiguresTheNode := by
  unfold Obligations.BeginConfiguresTheNode
  refine fun s baud now => ⟨fun hmin hmax => ?_, fun hrange => ?_⟩
  · have hpos : 1 ≤ 1000000 / baud.toNat := (Nat.one_le_div_iff hmin).mpr hmax
    have hbit : (beginOp baud now (opStart s)).cfg.bittime.toNat = 1000000 / baud.toNat := toNat_bittime baud
    exact ⟨_, exec_begin baud now s ((baudOk_iff baud).mpr ⟨hmin, hmax⟩), hbit, hpos.trans_eq hbit.symm, rfl, rfl, rfl, rfl,
      ⟨rfl, rfl, rfl⟩, rfl, rfl, rfl, rfl, rfl, rfl, rfl, rfl, rfl, rfl, rfl, rfl, rfl, rfl⟩
  · refine exec_begin_refused baud now s (Bool.eq_false_iff.mpr fun h => ?_)
    obtain ⟨hmin, hmax⟩ := (baudOk_iff baud).mp h
    omega

theorem exec_send_unconfigured (f : TxFrame) (s : State) (h : s.cfg.configured = false) :
    exec (.send f) s = .refused .notConfigured := by
  simp [exec, execSend, h]

theorem exec_read_unconfigured (now : BitVec 32) (s : State) (h : s.cfg.configured = false) :
    exec (.read now) s = .refused .notConfigured := by
  simp [exec, execRead, h]

/-- Settles O5: the three gates on `CONFIGURED`. -/
theorem unconfiguredNodeRefuses : Obligations.UnconfiguredNodeRefuses := by
  unfold Obligations.UnconfiguredNodeRefuses
  refine fun s f now d w i h => ⟨exec_send_unconfigured f s h, exec_read_unconfigured now s h, fun hi => ?_⟩
  rw [exec_ofFormat d w i hi]
  exact receiveLevels_unconfigured (wireImage w) s h

/-- `SAMPLE_RX` answers with the level of the bus and changes nothing else (R94). -/
theorem exec_sampleRx (s : State) : exec .sampleRx s = .next (answered (.level (sampleRx s)) s) := rfl

/-- A pin that is no output, or whose level is recessive, leaves the bus to the others (R95). -/
theorem drive_released (p : LineDriver) (h : p.txdir = .input ∨ p.txlvl = recessive) : p.drive = recessive := by
  obtain ⟨dir, lvl⟩ := p
  obtain rfl | rfl := h
  · exact drive_input lvl
  · cases dir <;> rfl

/-- Settles O7: the sample is the AND of the node's own level and the others'. -/
theorem sampleRxReturnsTheBusLevel : Obligations.SampleRxReturnsTheBusLevel := by
  unfold Obligations.SampleRxReturnsTheBusLevel
  refine fun s => ⟨sampleRx s, exec_sampleRx s, fun hdir hlvl => ?_, fun h => ?_⟩
  · have hdrive : s.drive = dominant := if_pos ⟨hdir, hlvl⟩
    rw [sampleRx, hdrive, Bool.false_and]
  · rw [sampleRx, state_drive, drive_released s.pin h, Bool.true_and, State.otherLevel]
    exact ⟨fun o rest ho => by rw [ho]; rfl, fun ho => by rw [ho]; rfl⟩

/-- A configured node with nothing presented lets one bit period pass, and an acknowledge ends with it. -/
theorem step_rest (s : State) (hc : s.cfg.configured = true) (hb : s.busy = false) (hh : s.io.host = []) :
    step s = .next { s with
      pin := if s.rx.ackcnt = 1 then { txdir := .output, txlvl := recessive } else s.pin
      io := { s.io with other := s.io.other.tail, drove := [s.drive], rsp := .none } } := by
  rw [step_of_no_fetch s (fetch_of_empty s hh), hb, if_neg Bool.false_ne_true, restPeriod_configured (opStart s) hc]
  rfl

/-- Settles O53: the three results of a step (`step_cases`), by what is presented. -/
theorem stepRunsWhatIsPresented : Obligations.StepRunsWhatIsPresented := by
  unfold Obligations.StepRunsWhatIsPresented
  refine fun s p rest hb => ⟨fun hh i hd => ?_, fun hh e hd => ?_, fun hh hc => ?_, fun hh hc => ?_⟩
  · exact step_of_fetch s _ p i (fetch_of_idle s p rest hh hb) hd
  · obtain ⟨bits, rfl⟩ := frame_of_error p e hd
    exact ⟨bits, rfl, step_of_no_format s _ bits e (fetch_of_idle s _ rest hh hb) hd⟩
  · exact step_rest s hc hb hh
  · refine ⟨pinOf (Config.freeValue s.io.fresh), ?_⟩
    rw [step_of_no_fetch s (fetch_of_empty s hh), hb, if_neg Bool.false_ne_true, restPeriod_unconfigured (opStart s) hc]
    rfl

end Sys2Proof.Machine
end

section
/-! `READ`: what `RX_STEP` can do, the scheduler and the sample it feeds to it, and the one function of R177 (44_receiver.md R162 to
R177). -/

namespace Sys2Proof.Machine

open Sys2Proof.Statements

/-! ### What `RX_STEP` can do -/

/-- Everything `RX_STEP` can do, with the acknowledge countdown and the count of the buffer: a sample passed over, a bit stored, an
error, a frame delivered (R164 to R174). -/
inductive RxEnd (s : State) : RxResult × State → Prop where
  | silent (r : Receiver) (buf : r.rxbuf = s.rx.rxbuf)
      (ack : r.ackcnt = s.rx.countDown.ackcnt ∨ r.ackcnt = 0) : RxEnd s ((.noMessage, none), { s with rx := r })
  | stored (r : Receiver) (b : Level) (buf : r.rxbuf = s.rx.rxbuf.write s.rx.rxcnt b) (cnt : r.rxcnt = s.rx.rxcnt + 1)
      (ack : r.ackcnt = s.rx.countDown.ackcnt ∨ r.ackcnt = 2 ∨ r.ackcnt = 3) : RxEnd s ((.noMessage, none), { s with rx := r })
  | failed (r : Receiver) (c : ErrorCause) (buf : r.rxbuf = s.rx.rxbuf) :
      RxEnd s ((.frameError, some c), failed { s with rx := r })
  | delivered (r : Receiver) (buf : r.rxbuf = s.rx.rxbuf) : RxEnd s ((.messageOk, none), delivered { s with rx := r })

/-- `ACK_CHECK` arms with 2 or 3, or leaves the countdown (R171). -/
theorem ackCheck_ackcnt (r : Receiver) : r.ackCheck.ackcnt = r.ackcnt ∨ r.ackCheck.ackcnt = 2 ∨ r.ackCheck.ackcnt = 3 := by
  unfold Receiver.ackCheck
  split
  · by_cases h : r.run = 5
    · exact .inr (.inr (if_pos h))
    · exact .inr (.inl (if_neg h))
  · exact .inl rfl

theorem rxStep_end (smp : Level) (s : State) : RxEnd s (rxStep smp s) := by
  by_cases hidle : s.rx.rxs = .idle
  · cases smp with
    | false => rw [rxStep_idle_dominant s hidle]; exact .silent _ rfl (.inr rfl)
    | true => rw [rxStep_idle_recessive s hidle]; exact .silent _ (countDown_rxbuf s.rx) (.inl rfl)
  · rw [rxStep_frame smp s hidle]
    obtain ⟨r, rfl | ⟨b, -, -, rfl⟩, h⟩ | ⟨c, h⟩ | h :=
      rxFrame_cases smp { s with rx := { s.rx.countDown with rxs := .frame } } <;> rw [h]
    · exact .silent _ (by simp) (.inl (by simp))
    · exact .stored _ b (by simp [Receiver.stored]) (by simp [Receiver.stored])
        ((ackCheck_ackcnt _).imp_left fun h => h.trans (decBit_ackcnt smp _))
    · exact .failed _ c (by simp)
    · exact .delivered _ (by simp)

/-! ### What `RX_STEP` does not read -/

/-- The latches, the other nodes' levels and the levels driven, replaced. -/
def withLine (p : LineDriver) (o d : List Level) (s : State) : State :=
  { s with pin := p, io := { s.io with other := o, drove := d } }

theorem rxFrame_withLine (smp : Level) (p : LineDriver) (o d : List Level) (s : State) :
    rxFrame smp (withLine p o d s) = ((rxFrame smp s).1, withLine p o d (rxFrame smp s).2) := by
  cases he : (s.rx.decBit smp).1 with
  | append b =>
    by_cases hn : (s.rx.decBit smp).2.rxcnt = s.par.rxbufBits
    · rw [rxFrame_overflow smp b s he hn, rxFrame_overflow smp b (withLine p o d s) he hn]; rfl
    · rw [rxFrame_stored smp b s he hn, rxFrame_stored smp b (withLine p o d s) he hn]; rfl
  | drop => rw [rxFrame_silent smp s (.inl he), rxFrame_silent smp (withLine p o d s) (.inl he)]; rfl
  | hold => rw [rxFrame_silent smp s (.inr he), rxFrame_silent smp (withLine p o d s) (.inr he)]; rfl
  | frameEnd =>
    cases hv : (s.rx.decBit smp).2.verdict with
    | none => rw [rxFrame_good smp s he hv, rxFrame_good smp (withLine p o d s) he hv]; rfl
    | some c => rw [rxFrame_bad smp s c he hv, rxFrame_bad smp (withLine p o d s) c he hv]; rfl
  | stuffError => rw [rxFrame_stuffError smp s he, rxFrame_stuffError smp (withLine p o d s) he]; rfl

/-- `RX_STEP` reads its sample, and nothing of the line (R164). -/
theorem rxStep_withLine (smp : Level) (p : LineDriver) (o d : List Level) (s : State) :
    rxStep smp (withLine p o d s) = ((rxStep smp s).1, withLine p o d (rxStep smp s).2) := by
  by_cases hi : s.rx.rxs = .idle
  · cases smp with
    | false => rw [rxStep_idle_dominant s hi, rxStep_idle_dominant (withLine p o d s) hi]; rfl
    | true => rw [rxStep_idle_recessive s hi, rxStep_idle_recessive (withLine p o d s) hi]; rfl
  · rw [rxStep_frame smp s hi, rxStep_frame smp (withLine p o d s) hi]
    exact rxFrame_withLine smp p o d { s with rx := { s.rx.countDown with rxs := .frame } }

/-! ### The scheduler -/

/-- What `RX_STEP` gives on the level of the pin in the slot of an accepted `READ`. -/
def slotStep (s : State) : RxResult × State := rxStep (sampleRx s) (slotState (opStart s))

/-- The state an accepted `READ` leaves. -/
def State.readAccepted (s : State) : State :=
  respond (.status (slotStep s).1.1 (slotStep s).1.2) { ackDrive (slotStep s).2 with readStatus := (slotStep s).1.1 }

theorem exec_read_accepted (now : BitVec 32) (s : State) (hc : s.cfg.configured = true) (hb : s.fc.state ≠ .busOff)
    (ha : s.cfg.bittime.toNat ≤ (now - s.rx.lastsample).toNat) : exec (.read now) s = .next s.readAccepted := by
  rw [exec_read now s hc, readOp_accepted now (opStart s) hb ((accepts_iff now (opStart s)).mpr ha)]
  rfl

theorem exec_read_early (now : BitVec 32) (s : State) (hc : s.cfg.configured = true) (hb : s.fc.state ≠ .busOff)
    (ha : (now - s.rx.lastsample).toNat < s.cfg.bittime.toNat) :
    exec (.read now) s = .next { answered (.status .noMessage none) s with readStatus := .noMessage } := by
  have hearly : (opStart s).accepts now = false :=
    Bool.eq_false_iff.mpr fun h => absurd ((accepts_iff now (opStart s)).mp h) (Nat.not_le.mpr ha)
  rw [exec_read now s hc, readOp_early now (opStart s) hb hearly]
  rfl

/-- The three results of a `READ`: mute in Bus-Off, too early, accepted (R161, R162). -/
theorem exec_read_cases (now : BitVec 32) (s t : State) (h : exec (.read now) s = .next t) :
    (s.fc.state = .busOff ∧ t = { answered (.status .noMessage (some .busOff)) s with readStatus := .noMessage }) ∨
      (s.fc.state ≠ .busOff ∧ t = { answered (.status .noMessage none) s with readStatus := .noMessage }) ∨
      (s.fc.state ≠ .busOff ∧ t = s.readAccepted) := by
  have hc := configured_of_read now s t h
  by_cases hb : s.fc.state = .busOff
  · rw [exec_read_busOff now s hc hb] at h
    exact .inl ⟨hb, (Host.Outcome.next.inj h).symm⟩
  by_cases ha : (now - s.rx.lastsample).toNat < s.cfg.bittime.toNat
  · rw [exec_read_early now s hc hb ha] at h
    exact .inr (.inl ⟨hb, (Host.Outcome.next.inj h).symm⟩)
  · rw [exec_read_accepted now s hc hb (Nat.le_of_not_lt ha)] at h
    exact .inr (.inr ⟨hb, (Host.Outcome.next.inj h).symm⟩)

/-- What an accepted `READ` keeps or lets pass: the line belongs to the slot, the rest to `RX_STEP` (R163). -/
theorem slotStep_kept (s : State) : RxKept (slotState (opStart s)) (slotStep s).2 := rxStep_kept _ _

@[simp] theorem readAccepted_rx (s : State) : s.readAccepted.rx = (slotStep s).2.rx := ackDrive_rx _
@[simp] theorem readAccepted_fc (s : State) : s.readAccepted.fc = (slotStep s).2.fc := ackDrive_fc _
@[simp] theorem readAccepted_rxf (s : State) : s.readAccepted.rxf = (slotStep s).2.rxf := ackDrive_rxf _
@[simp] theorem readAccepted_rsp (s : State) :
    s.readAccepted.io.rsp = .status (slotStep s).1.1 (slotStep s).1.2 := rfl
@[simp] theorem readAccepted_readStatus (s : State) : s.readAccepted.readStatus = (slotStep s).1.1 := rfl
@[simp] theorem readAccepted_cfg (s : State) : s.readAccepted.cfg = s.cfg := (ackDrive_cfg _).trans (slotStep_kept s).cfg
@[simp] theorem readAccepted_tx (s : State) : s.readAccepted.tx = s.tx := (ackDrive_tx _).trans (slotStep_kept s).tx
@[simp] theorem readAccepted_txf (s : State) : s.readAccepted.txf = s.txf := (ackDrive_txf _).trans (slotStep_kept s).txf
@[simp] theorem readAccepted_par (s : State) : s.readAccepted.par = s.par := (ackDrive_par _).trans (slotStep_kept s).par
@[simp] theorem readAccepted_sendOk (s : State) : s.readAccepted.sendOk = s.sendOk :=
  (ackDrive_sendOk _).trans (slotStep_kept s).sendOk
@[simp] theorem readAccepted_host (s : State) : s.readAccepted.io.host = s.io.host :=
  (congrArg Environment.host (ackDrive_io _)).trans (slotStep_kept s).host
@[simp] theorem readAccepted_other (s : State) : s.readAccepted.io.other = s.io.other.tail :=
  (congrArg Environment.other (ackDrive_io _)).trans (slotStep_kept s).other
@[simp] theorem readAccepted_drove (s : State) : s.readAccepted.io.drove = [s.drive] :=
  (congrArg Environment.drove (ackDrive_io _)).trans (slotStep_kept s).drove

/-- The line after an accepted `READ`: dominant for an acknowledge that is due, and recessive after one that was (R172). -/
theorem readAccepted_pin (s : State) :
    s.readAccepted.pin = if s.readAccepted.rx.ackcnt = 1 then { txdir := .output, txlvl := dominant }
      else if s.rx.ackcnt = 1 then { txdir := .output, txlvl := recessive } else s.pin := by
  have hpin : s.readAccepted.pin = (ackDrive (slotStep s).2).pin := rfl
  rw [hpin, readAccepted_rx, ackDrive_pin, (slotStep_kept s).pin]
  rfl

/-- Settles O32: the state in the slot is the one `RX_STEP` is applied to alone, but for the line, which it does not read. -/
theorem readSchedulerKeepsItsPhase : Obligations.ReadSchedulerKeepsItsPhase := by
  unfold Obligations.ReadSchedulerKeepsItsPhase
  refine fun s now smp hc hb hsmp => ⟨exec_read_early now s hc hb, fun ha => ?_⟩
  obtain rfl : smp = sampleRx s := hsmp
  refine ⟨_, _, exec_read_accepted now s hc hb ha, ?_, readAccepted_other s, readAccepted_drove s, exec_rxStep _ _, ?_⟩
  · rw [readAccepted_rx]
    exact (slotStep_kept s).lastsample
  · have hslot : slotState (opStart s) = withLine (slotState (opStart s)).pin s.io.other.tail [s.drive]
        (opStart { s with rx := { s.rx with lastsample := s.rx.lastsample + s.cfg.bittime } }) := rfl
    rw [readAccepted_rx, readAccepted_fc, readAccepted_rxf, readAccepted_rsp, slotStep, hslot, rxStep_withLine]
    exact ⟨rfl, rfl, rfl, rfl⟩

/-! ### `READ` as one function -/

/-- The registers a `READ` writes, with its status. -/
def State.readRegs (st : ReadStatus) (s : State) : ReadResult := { st := st, fc := s.fc, rx := s.rx, rxf := s.rxf }

theorem countDown_pos (r : Receiver) :
    (if 0 < r.ackcnt.toNat then { r with ackcnt := r.ackcnt - 1 } else r) = r.countDown := by
  by_cases h : r.ackcnt = 0
  · rw [Receiver.countDown, if_pos h, if_neg (by rw [h]; decide)]
  · have hpos : 0 < r.ackcnt.toNat := Nat.pos_of_ne_zero fun h0 => h (BitVec.eq_of_toNat_eq h0)
    rw [Receiver.countDown, if_neg h, if_pos hpos]

/-- R177 on the event of `DEC_BIT` and the receiver it leaves. -/
def readEvent (cap : Nat) (fc : FaultConf) (e : DecEvent × Receiver) (rxf f : RxFrame) : ReadResult :=
  match e.1 with
  | .drop | .hold => { st := .noMessage, fc := fc, rx := e.2, rxf := rxf }
  | .stuffError => readFail fc e.2 rxf
  | .append b =>
    if e.2.rxcnt = cap then readFail fc e.2 rxf
    else { st := .noMessage, fc := fc, rx := (e.2.stored b).ackCheck, rxf := rxf }
  | .frameEnd =>
    match e.2.verdict with
    | some _ => readFail fc e.2 rxf
    | none => { st := .messageOk, fc := fc.onRxSuccess, rx := e.2.exited, rxf := f }

/-- R177 past its scheduler, on the receiver `rx` whose slot has moved on and whose acknowledge has been counted down. -/
def readSampled (cap : Nat) (smp : Level) (fc : FaultConf) (rx : Receiver) (rxf f : RxFrame) : ReadResult :=
  if rx.rxs = .idle then
    if smp = dominant then
      { st := .noMessage, fc := fc, rxf := rxf
        rx := { rx with rxcnt := 0, lastbit := dominant, run := 1, ackcnt := 0, rxs := .sof } }
    else { st := .noMessage, fc := fc, rx := rx, rxf := rxf }
  else readEvent cap fc ({ rx with rxs := .frame : Receiver }.decBit smp) rxf f

theorem readWhole_accepted (cap : Nat) (now bittime : BitVec 32) (smp : Level) (fc : FaultConf) (rx : Receiver) (rxf f : RxFrame)
    (hb : fc.state ≠ .busOff) (ha : ¬ (now - rx.lastsample).toNat < bittime.toNat) :
    readWhole cap now bittime smp fc rx rxf f =
      readSampled cap smp fc { rx with lastsample := rx.lastsample + bittime }.countDown rxf f := by
  rw [← countDown_pos]
  exact (if_neg hb).trans (if_neg ha)

/-- R177 on an event is what a sample in `Frame` does. -/
theorem readEvent_eq (smp : Level) (s : State) :
    readEvent s.par.rxbufBits s.fc (s.rx.decBit smp) s.rxf (rxAssemble (s.rx.decBit smp).2.rxbuf s.io.fresh) =
      (rxFrame smp s).2.readRegs (rxFrame smp s).1.1 := by
  cases he : (s.rx.decBit smp).1 with
  | append b =>
    by_cases hn : (s.rx.decBit smp).2.rxcnt = s.par.rxbufBits
    · rw [rxFrame_overflow smp b s he hn]; simp only [readEvent, he, if_pos hn]; rfl
    · rw [rxFrame_stored smp b s he hn]; simp only [readEvent, he, if_neg hn]; rfl
  | drop => rw [rxFrame_silent smp s (.inl he)]; simp only [readEvent, he]; rfl
  | hold => rw [rxFrame_silent smp s (.inr he)]; simp only [readEvent, he]; rfl
  | frameEnd =>
    cases hv : (s.rx.decBit smp).2.verdict with
    | none => rw [rxFrame_good smp s he hv]; simp only [readEvent, he, hv]; rfl
    | some c => rw [rxFrame_bad smp s c he hv]; simp only [readEvent, he, hv]; rfl
  | stuffError => rw [rxFrame_stuffError smp s he]; simp only [readEvent, he]; rfl

/-- R177 past its scheduler is `RX_STEP`. -/
theorem readSampled_eq (smp : Level) (s : State) :
    readSampled s.par.rxbufBits smp s.fc s.rx.countDown s.rxf (rxAssemble s.rx.rxbuf s.io.fresh) =
      (rxStep smp s).2.readRegs (rxStep smp s).1.1 := by
  by_cases hidle : s.rx.rxs = .idle
  · have hcd : s.rx.countDown.rxs = .idle := by rw [countDown_rxs, hidle]
    rw [readSampled, if_pos hcd]
    cases smp with
    | false => rw [rxStep_idle_dominant s hidle, if_pos rfl, countDown_eq]; rfl
    | true => rw [rxStep_idle_recessive s hidle, if_neg (by decide)]; rfl
  · have hcd : ¬ s.rx.countDown.rxs = .idle := by rw [countDown_rxs]; exact hidle
    have hbuf : s.rx.rxbuf = ({ s.rx.countDown with rxs := .frame }.decBit smp).2.rxbuf := by simp
    rw [readSampled, if_neg hcd, rxStep_frame smp s hidle, ← readEvent_eq, hbuf]

/-- Settles O33: gate and scheduler branch by branch, `RX_STEP` by `readSampled_eq`; the frame is what the buffer assembles to. -/
theorem readIsOneFunctionOfClockAndLevel : Obligations.ReadIsOneFunctionOfClockAndLevel := by
  unfold Obligations.ReadIsOneFunctionOfClockAndLevel
  intro s now smp hc hsmp
  obtain rfl : smp = sampleRx s := hsmp
  have hid : (rxAssemble s.rx.rxbuf s.io.fresh).id = s.rx.rxbuf.field 0 11 := rfl
  have hdlc := toNat_rxAssemble_dlc s.rx.rxbuf s.io.fresh
  have hbytes : ∀ k, k < (rxAssemble s.rx.rxbuf s.io.fresh).dlc.toNat →
      (dataBytes (rxAssemble s.rx.rxbuf s.io.fresh).data).getD k 0 = s.rx.rxbuf.field (18 + 8 * k) 8 := by
    rw [hdlc]
    exact rxAssemble_byte s.rx.rxbuf s.io.fresh
  by_cases hb : s.fc.state = .busOff
  · exact ⟨_, _, s.readRegs .noMessage, _, exec_read_busOff now s hc hb, (if_pos hb).symm, rfl, rfl, rfl, rfl, rfl, hid, hdlc,
      hbytes, rfl, rfl, rfl, rfl, rfl, rfl, rfl⟩
  by_cases ha : (now - s.rx.lastsample).toNat < s.cfg.bittime.toNat
  · exact ⟨_, _, s.readRegs .noMessage, _, exec_read_early now s hc hb ha, ((if_neg hb).trans (if_pos ha)).symm, rfl, rfl, rfl,
      rfl, rfl, hid, hdlc, hbytes, rfl, rfl, rfl, rfl, rfl, rfl, rfl⟩
  · have hwhole : (slotStep s).2.readRegs (slotStep s).1.1 = readWhole s.par.rxbufBits now s.cfg.bittime (sampleRx s) s.fc s.rx
        s.rxf (rxAssemble s.rx.rxbuf s.io.fresh) :=
      ((readWhole_accepted _ _ _ _ _ _ _ _ hb ha).trans (readSampled_eq (sampleRx s) (slotState (opStart s)))).symm
    exact ⟨_, _, _, _, exec_read_accepted now s hc hb (Nat.le_of_not_lt ha), hwhole, rfl, rfl, readAccepted_fc s,
      readAccepted_rx s, readAccepted_rxf s, hid, hdlc, hbytes,
      (congrArg FaultConf.tec (readAccepted_fc s)).trans (slotStep_kept s).tec, readAccepted_txf s, readAccepted_sendOk s,
      readAccepted_cfg s, readAccepted_tx s, readAccepted_par s, readAccepted_host s⟩

end Sys2Proof.Machine
end

section
/-! The bit period of an acknowledge, and where the receive buffer is stored to (44_receiver.md R168, R172; 20_memory.md R43). -/

namespace Sys2Proof.Machine

open Sys2Proof.Statements

/-! ### The acknowledge -/

/-- The countdown from 1 ends (R164). -/
theorem countDown_of_due (r : Receiver) (h : r.ackcnt = 1) : r.countDown.ackcnt = 0 := by
  rw [countDown_ackcnt, h]; decide

/-- Two accepted samples do not both leave an acknowledge due: its bit period is one (R172). -/
theorem rxStep_not_due (smp : Level) (s : State) (h : s.rx.ackcnt = 1) : (rxStep smp s).2.rx.ackcnt ≠ 1 := by
  have hzero := countDown_of_due s.rx h
  have hne : (0 : BitVec 2) ≠ 1 := by decide
  have hend := rxStep_end smp s
  generalize rxStep smp s = q at hend ⊢
  cases hend with
  | silent r _ ack =>
    have ack : r.ackcnt = 0 := ack.elim (fun h => h.trans hzero) id
    exact ack.trans_ne hne
  | stored r b _ _ ack =>
    obtain ack | ack | ack := ack
    · exact (ack.trans hzero).trans_ne hne
    · exact ack.trans_ne (by decide)
    · exact ack.trans_ne (by decide)
  | failed => exact hne
  | delivered => exact hne

/-- A sample that leaves an acknowledge due ends no frame, so it calls no hook. -/
theorem rxStep_fc_of_due (smp : Level) (s : State) (h : (rxStep smp s).2.rx.ackcnt = 1) : (rxStep smp s).2.fc = s.fc := by
  have hend := rxStep_end smp s
  generalize rxStep smp s = q at hend h ⊢
  cases hend with
  | silent | stored => rfl
  | failed | delivered => cases h

/-- Settles O34: the accepted `READ`s by their line (`readAccepted_pin`), the bit period without one by `step_rest`. -/
theorem acknowledgeIsDrivenForOnePeriod : Obligations.AcknowledgeIsDrivenForOnePeriod := by
  unfold Obligations.AcknowledgeIsDrivenForOnePeriod
  intro s t now hc hb hbusy ha h
  rw [exec_read_accepted now s hc hb ha] at h
  obtain rfl := Host.Outcome.next.inj h
  have hpin := readAccepted_pin s
  refine ⟨readAccepted_drove s, fun hdue => by rw [hpin, if_pos hdue], fun hdue => by rw [hpin, if_neg hdue], fun hdue => ?_⟩
  have hfc : s.readAccepted.fc = s.fc :=
    (readAccepted_fc s).trans (rxStep_fc_of_due _ _ ((congrArg Receiver.ackcnt (readAccepted_rx s)).symm.trans hdue))
  have hcfg := readAccepted_cfg s
  have htx := readAccepted_tx s
  rw [if_pos hdue] at hpin
  generalize s.readAccepted = t at *
  have hdrive : t.drive = dominant := by rw [state_drive, hpin, drive_output]
  have hct : t.cfg.configured = true := by rw [hcfg]; exact hc
  refine ⟨?_, fun later hlater => ?_⟩
  · have hidle : State.busy { t with io := { t.io with host := [] } } = false := by
      rw [state_busy] at hbusy ⊢
      rw [← hbusy, ← htx]
    refine ⟨_, step_rest _ hct hidle rfl, congrArg (fun l => [l]) hdrive, if_pos hdue, rfl, rfl⟩
  · have hbt : t.fc.state ≠ .busOff := by rw [hfc]; exact hb
    have hover : t.readAccepted.rx.ackcnt ≠ 1 := by
      rw [readAccepted_rx]
      exact rxStep_not_due _ _ hdue
    refine ⟨_, exec_read_accepted later t hct hbt hlater, ?_, ?_, hover⟩
    · rw [readAccepted_drove, hdrive]
    · rw [readAccepted_pin, if_neg hover, if_pos hdue]

/-! ### The receive buffer -/

theorem decBit_append_lastbit (b : Level) (r : Receiver) (h : r.run.toNat < 5) : (r.decBit b).2.lastbit = b := by
  rw [decBit_append b r h]
  split
  case isTrue hb => exact hb.symm
  case isFalse => rfl

theorem decBit_append_run (b : Level) (r : Receiver) (h : r.run.toNat < 5) :
    (r.decBit b).2.run.toNat = if b = r.lastbit then r.run.toNat + 1 else 1 := by
  rw [decBit_append b r h]
  split
  · exact BitVec.toNat_add_of_lt (show r.run.toNat + 1 < 8 by omega)
  · rfl

/-- A bit appended below the capacity (R168). -/
theorem rxStep_append (smp : Level) (s : State) (hf : s.rx.rxs = .frame) (hrun : s.rx.run.toNat < 5)
    (hn : s.rx.rxcnt ≠ s.par.rxbufBits) :
    rxStep smp s = ((.noMessage, none), { s with rx := ((s.rx.countDown.decBit smp).2.stored smp).ackCheck }) := by
  have hrx : { s.rx.countDown with rxs := .frame } = s.rx.countDown := by rw [← hf, ← countDown_rxs]
  have hev : (s.rx.countDown.decBit smp).1 = .append smp := by
    rw [decBit_append smp _ (by rw [countDown_run]; exact hrun)]
  rw [rxStep_frame smp s (by simp [hf]), hrx]
  exact rxFrame_stored smp smp { s with rx := s.rx.countDown } hev (by simpa using hn)

/-- A bit for a full buffer (R168). -/
theorem rxStep_overflow (smp : Level) (s : State) (hf : s.rx.rxs = .frame) (hrun : s.rx.run.toNat < 5)
    (hn : s.rx.rxcnt = s.par.rxbufBits) :
    rxStep smp s = ((.frameError, some .overflow), failed { s with rx := (s.rx.countDown.decBit smp).2 }) := by
  have hrx : { s.rx.countDown with rxs := .frame } = s.rx.countDown := by rw [← hf, ← countDown_rxs]
  have hev : (s.rx.countDown.decBit smp).1 = .append smp := by
    rw [decBit_append smp _ (by rw [countDown_run]; exact hrun)]
  rw [rxStep_frame smp s (by simp [hf]), hrx]
  exact rxFrame_overflow smp smp { s with rx := s.rx.countDown } hev (by simpa using hn)

/-- Settles O36: by the room left in the buffer. -/
theorem appendStoresOneBit : Obligations.AppendStoresOneBit := by
  unfold Obligations.AppendStoresOneBit
  intro s smp hwf hf hrun hle
  have hrun' : s.rx.countDown.run.toNat < 5 := by rw [countDown_run]; exact hrun
  refine ⟨_, exec_rxStep smp s, ?_⟩
  by_cases hn : s.rx.rxcnt = s.par.rxbufBits
  · rw [rxStep_overflow smp (opStart s) hf hrun hn]
    have hbuf : (s.rx.countDown.decBit smp).2.rxbuf = s.rx.rxbuf := by simp
    have hcnt : (s.rx.countDown.decBit smp).2.rxcnt = s.rx.rxcnt := by simp
    exact ⟨fun a _ => congrArg (Memory.read · a) hbuf, fun hlt => absurd hn (Nat.ne_of_lt hlt), fun _ => ⟨hbuf, hcnt, rfl⟩⟩
  · rw [rxStep_append smp (opStart s) hf hrun hn]
    have hstored : (s.rx.countDown.decBit smp).2.stored smp =
        { (s.rx.countDown.decBit smp).2 with rxbuf := s.rx.rxbuf.write s.rx.rxcnt smp, rxcnt := s.rx.rxcnt + 1 } := by
      simp [Receiver.stored]
    have hlast := decBit_append_lastbit smp s.rx.countDown hrun'
    have hrun2 := decBit_append_run smp s.rx.countDown hrun'
    rw [countDown_lastbit, countDown_run] at hrun2
    have hrxs : (s.rx.countDown.decBit smp).2.rxs = .frame := by rw [decBit_rxs, countDown_rxs, hf]
    have hack : (s.rx.countDown.decBit smp).2.ackcnt = if s.rx.ackcnt = 0 then 0 else s.rx.ackcnt - 1 := by
      rw [decBit_ackcnt, countDown_ackcnt]
    simp only [opStart_rx, opStart_par, opStart_fc, opStart_rxf, opStart_readStatus, respond_rx, hstored]
    generalize (s.rx.countDown.decBit smp).2 = r at hlast hrun2 hrxs hack ⊢
    refine ⟨fun a ha => ?_, fun _ => ⟨?_, ?_, ?_, ?_, ?_, rfl, rfl, rfl, rfl, ?_⟩, fun h => absurd h hn⟩ <;>
      simp only [ackCheck_rxbuf, ackCheck_rxcnt, ackCheck_rxs, ackCheck_lastbit, ackCheck_run]
    · exact read_write_other _ _ _ _ ha
    · exact read_write_same _ _ _ 0 hwf
    · exact hrxs
    · exact hlast
    · exact hrun2
    · refine ⟨{ s with rx := { r with rxbuf := s.rx.rxbuf.write s.rx.rxcnt smp, rxcnt := s.rx.rxcnt + 1 } }, _,
        exec_ackCheck _, ackCheck_frame _, ?_⟩
      rw [ackCheck_frame, ← hack]

/-- Where a `READ` stores: nowhere, its count as it was or 0; or at the count, which goes up by one. -/
theorem exec_read_buffer (now : BitVec 32) (s t : State) (h : exec (.read now) s = .next t) :
    t.rx.rxbuf = s.rx.rxbuf ∨
      ∃ b, t.rx.rxbuf = s.rx.rxbuf.write s.rx.rxcnt b ∧ t.rx.rxcnt = s.rx.rxcnt + 1 := by
  obtain ⟨-, rfl⟩ | ⟨-, rfl⟩ | ⟨-, rfl⟩ := exec_read_cases now s t h
  · exact .inl rfl
  · exact .inl rfl
  · rw [readAccepted_rx, slotStep]
    have hend := rxStep_end (sampleRx s) (slotState (opStart s))
    generalize rxStep (sampleRx s) (slotState (opStart s)) = q at hend ⊢
    cases hend with
    | silent r buf _ => exact .inl buf
    | stored r b buf cnt _ => exact .inr ⟨b, buf, cnt⟩
    | failed r c buf => exact .inl buf
    | delivered r buf => exact .inl buf

/-- The commands but `READ` leave the receive buffer. -/
theorem rxbuf_of_command (i : Instr) (s t : State)
    (hi : i = .nop ∨ (∃ baud now, i = .begin baud now) ∨ ∃ f, i = .send f) (h : exec i s = .next t) :
    t.rx.rxbuf = s.rx.rxbuf := by
  obtain rfl | ⟨baud, now, rfl⟩ | ⟨f, rfl⟩ := hi
  · rw [exec_nop] at h
    cases h; rfl
  · rw [exec_begin baud now s (baudOk_of_begin baud now s t h)] at h
    cases h; rfl
  · exact congrArg Receiver.rxbuf (exec_send_kept f s t h).rx

/-- Settles O37: the two ways of `exec_read_buffer`, and the commands that store nothing. -/
theorem commandsStoreOnlyByAppend : Obligations.CommandsStoreOnlyByAppend := by
  unfold Obligations.CommandsStoreOnlyByAppend
  refine fun s t => ⟨fun now h a ha => ?_, fun now h hcnt a => ?_, fun i hi h a => ?_⟩
  · obtain hbuf | ⟨b, hbuf, -⟩ := exec_read_buffer now s t h
    · rw [hbuf]
    · rw [hbuf, read_write_other _ _ _ _ ha]
  · obtain hbuf | ⟨b, -, hup⟩ := exec_read_buffer now s t h
    · rw [hbuf]
    · omega
  · rw [rxbuf_of_command i s t hi h]

end Sys2Proof.Machine
end

section
/-! What a step runs and what every instruction keeps: the parameter, the ports of the receive frame, and Bus-Off
(00_scope.md R4; 46_host_interface.md R216, R217, R221; 45_fault_confinement.md R206). -/

namespace Sys2Proof.Machine

open Sys2Proof.Statements

/-! ### What is accepted -/

/-- What is accepted stood at the head, and leaves the rest waiting (R217). -/
theorem fetch_some (s s' : State) (p : Presented) (h : fetch s = some (p, s')) :
    ∃ rest, s.io.host = p :: rest ∧ s' = { s with io := { s.io with host := rest } } := by
  cases hh : s.io.host with
  | nil => rw [fetch_of_empty s hh] at h; cases h
  | cons q rest =>
    simp only [fetch, hh] at h
    split at h
    · cases h
      exact ⟨rest, rfl, rfl⟩
    · cases h

/-- What is presented decodes to one of the four commands, to a frame format or to the construction (R70, R73). -/
inductive Accepts : Presented → Instr → Prop where
  | nop (c : CmdPorts) : Accepts (.command c) .nop
  | setup (c : CmdPorts) (code : c.cmd = 0b01#2) : Accepts (.command c) (.begin c.baud c.now)
  | send (c : CmdPorts) (f : TxFrame) : Accepts (.command c) (.send f)
  | read (c : CmdPorts) (now : BitVec 32) : Accepts (.command c) (.read now)
  | frame (bits : List Level) (d : Nat) (f : WireFrame) (i : Instr) (format : Instr.ofFormat d f = some i) :
      Accepts (.frame bits) i
  | construct (rxPin txPin : Nat) : Accepts (.construct rxPin txPin) (.new rxPin txPin)

theorem accepts_of_decode (p : Presented) (i : Instr) (h : decode p = .ok i) : Accepts p i := by
  cases p with
  | command c =>
    obtain rfl : decodeCommand c = i := Except.ok.inj h
    unfold decodeCommand
    split_ifs with h0 h1 h2
    · exact .nop c
    · exact .setup c h1
    · exact .send c _
    · exact .read c _
  | frame bits =>
    obtain ⟨d, f, hi⟩ := decodeFrame_format bits i h
    exact .frame bits d f i hi
  | construct rxPin txPin =>
    cases h
    exact .construct rxPin txPin

/-! ### Runs of bit periods -/

/-- What every bit period keeps, a run of them keeps. -/
theorem readPeriods_invariant (P : State → Prop) (hP : ∀ l s, P s → P (readPeriod l s).2) (ls : List Level) (s : State)
    (hs : P s) : P (readPeriods ls s).2 := by
  induction ls generalizing s with
  | nil => exact hs
  | cons l ls ih => exact ih _ (hP l s hs)

/-- What passes on the wire and is answered was received by a configured node. -/
theorem receiveLevels_next (ls : List Level) (s t : State) (h : receiveLevels ls s = .next t) :
    s.cfg.configured = true ∧ t = respond (.statuses (readPeriods ls (opStart s)).1) (readPeriods ls (opStart s)).2 := by
  cases hc : s.cfg.configured with
  | false => rw [receiveLevels_unconfigured ls s hc] at h; cases h
  | true =>
    rw [receiveLevels_configured ls s hc] at h
    exact ⟨rfl, (Host.Outcome.next.inj h).symm⟩

theorem exec_format_next (d : Nat) (f : WireFrame) (i : Instr) (s t : State) (hi : Instr.ofFormat d f = some i)
    (h : exec i s = .next t) : receiveLevels (wireImage f) s = .next t := by
  rw [← h, exec_ofFormat d f i hi, receiveFrame]

/-! ### The parameter -/

theorem fetch_par (s s' : State) (p : Presented) (h : fetch s = some (p, s')) : s'.par = s.par := by
  obtain ⟨rest, -, rfl⟩ := fetch_some s s' p h
  rfl

theorem readPeriod_par (l : Level) (s : State) : (readPeriod l s).2.par = s.par := by
  by_cases hb : s.fc.state = .busOff
  · rw [readPeriod_busOff l s hb]; simp
  · rw [readPeriod_active l s hb]
    exact (ackDrive_par _).trans (rxStep_kept _ (slotState (presentLevel l s))).par

theorem receiveLevels_par (ls : List Level) (s t : State) (h : receiveLevels ls s = .next t) : t.par = s.par := by
  obtain ⟨-, rfl⟩ := receiveLevels_next ls s t h
  exact readPeriods_invariant (fun u => u.par = s.par) (fun l u hu => (readPeriod_par l u).trans hu) ls (opStart s) rfl

@[simp] theorem txDrive_par (s : State) : (txDrive s).par = s.par := by
  unfold txDrive
  split <;> simp

/-- The end of a bit period of the transmitter keeps the parameter, and the levels already put out. -/
theorem txSettle_kept (smp : Level) (s : State) :
    (txSettle smp s).par = s.par ∧ (txSettle smp s).io.drove = s.io.drove := by
  unfold txSettle
  repeat' split
  all_goals exact ⟨rfl, rfl⟩

theorem txPeriod_par (s : State) : (txPeriod s).par = s.par := by
  obtain ⟨hpar, -⟩ := txSettle_kept (sampleRx (txDrive s)) (hold (txDrive s))
  exact hpar.trans (txDrive_par s)

theorem exec_par (i : Instr) (s t : State) (h : exec i s = .next t) : t.par = s.par := by
  cases i with
  | send f => exact (exec_send_kept f s t h).par
  | read now =>
    obtain ⟨-, rfl⟩ | ⟨-, rfl⟩ | ⟨-, rfl⟩ := exec_read_cases now s t h
    · rfl
    · rfl
    · exact readAccepted_par s
  | df0 f | df1 f | df2 f | df3 f | df4 f | df5 f | df6 f | df7 f | df8 f => exact receiveLevels_par (wireImage f) s t h
  | rxStep smp =>
    rw [exec_rxStep] at h
    cases h
    exact (rxStep_kept smp (opStart s)).par
  | rxDecode =>
    rw [exec_rxDecode_frame] at h
    cases h; rfl
  | nop | new | driveDominant | driveRecessive | release | sampleRx | encInit | encBit | encSeq | decInit | decBit | crc15Step | crc15 |
      txBuild | ackCheck | classify | onTxFailure | onRxFailure | onTxSuccess | onRxSuccess =>
    cases h; rfl
  | _ baud now => -- `BEGIN`, the one left, whose name is no plain name of a case
    rw [exec_begin baud now s (baudOk_of_begin baud now s t h)] at h
    cases h; rfl

/-- Settles O59: each instruction (`exec_par`), bits of no format, a bit period. -/
theorem theParametersNeverChange : Obligations.TheParametersNeverChange := by
  unfold Obligations.TheParametersNeverChange
  refine fun s t => ⟨fun i h => exec_par i s t h, fun h => ?_⟩
  obtain ⟨p, s', i, hf, -, hstep⟩ | ⟨bits, s', e, hf, -, hstep⟩ | ⟨-, hstep⟩ := step_cases s
  · exact (exec_par i s' t (hstep.symm.trans h)).trans (fetch_par s s' p hf)
  · exact (receiveLevels_par (wireLevels bits) s' t (hstep.symm.trans h)).trans (fetch_par s s' _ hf)
  · rw [hstep] at h
    cases h
    split
    · exact txPeriod_par (opStart s)
    · exact restPeriod_par (opStart s)

/-! ### The ports of the receive frame -/

/-- After an operation that was no `READ` the host is shown no status and no received frame (R12, R14). -/
theorem outPorts_of_no_status (s : State) (h : s.io.rsp.lastStatus = none) :
    s.outPorts.readStatus = none ∧ s.outPorts.rxId = none ∧ s.outPorts.rxDlc = none ∧ s.outPorts.rxData = none := by
  have hrxf : s.rxfValid = false := by rw [State.rxfValid, h]; rfl
  simp [State.outPorts, h, hrxf]

/-- After an operation that ended with a `READ` the host is shown its status, and the frame of a `MessageOk` (R216, R221). -/
theorem outPorts_of_status (s : State) (h : s.io.rsp.lastStatus = some s.readStatus) :
    s.outPorts.readStatus = some s.readStatus.code ∧
      (s.readStatus = .messageOk → s.outPorts.rxId = some s.rxf.id ∧ s.outPorts.rxDlc = some s.rxf.dlc ∧
        s.outPorts.rxData = some ((dataBytes s.rxf.data).take s.rxf.dlc.toNat)) ∧
      (s.readStatus ≠ .messageOk →
        s.outPorts.rxId = none ∧ s.outPorts.rxDlc = none ∧ s.outPorts.rxData = none) := by
  have hrxf : s.rxfValid = decide (s.readStatus = .messageOk) := by simp [State.rxfValid, h]
  refine ⟨by simp [State.outPorts, h], fun hok => ?_, fun hbad => ?_⟩
  · simp [State.outPorts, hrxf, hok]
  · simp [State.outPorts, hrxf, hbad]

/-- `SEND` answers with its Boolean. -/
theorem exec_send_rsp (f : TxFrame) (s t : State) (h : exec (.send f) s = .next t) : ∃ ok c, t.io.rsp = .sent ok c := by
  cases exec_send_end f s t h with
  | busOff _ eq => rw [eq]; exact ⟨_, _, rfl⟩
  | lost _ _ ended => exact ⟨_, _, ended.rsp⟩
  | noAck _ _ ended => exact ⟨_, _, ended.rsp⟩
  | acked _ _ ended => exact ⟨_, _, ended.rsp⟩

/-- The commands but `READ` answer, and with no status. -/
theorem no_status_of_command (i : Instr) (s t : State)
    (hi : i = .nop ∨ (∃ baud now, i = .begin baud now) ∨ ∃ f, i = .send f) (h : exec i s = .next t) :
    t.rspValid = true ∧ t.io.rsp.lastStatus = none := by
  obtain rfl | ⟨baud, now, rfl⟩ | ⟨f, rfl⟩ := hi
  · rw [exec_nop] at h
    cases h; exact ⟨rfl, rfl⟩
  · rw [exec_begin baud now s (baudOk_of_begin baud now s t h)] at h
    cases h; exact ⟨rfl, rfl⟩
  · obtain ⟨ok, c, hrsp⟩ := exec_send_rsp f s t h
    rw [State.rspValid, hrsp]
    exact ⟨rfl, rfl⟩

/-- A `READ` answers with the status it writes (R14). -/
theorem exec_read_status (now : BitVec 32) (s t : State) (h : exec (.read now) s = .next t) :
    t.rspValid = true ∧ t.io.rsp.lastStatus = some t.readStatus := by
  obtain ⟨-, rfl⟩ | ⟨-, rfl⟩ | ⟨-, rfl⟩ := exec_read_cases now s t h <;> exact ⟨rfl, rfl⟩

/-- The `READ` of a bit period writes the status it returns. -/
theorem readPeriod_readStatus (l : Level) (s : State) : (readPeriod l s).2.readStatus = (readPeriod l s).1.1 := by
  by_cases hb : s.fc.state = .busOff
  · rw [readPeriod_busOff l s hb, restPeriod_readStatus]; rfl
  · rw [readPeriod_active l s hb]

/-- `READ_STATUS` after a run of `READ`s is the status of the last (log 10). -/
theorem readPeriods_lastStatus (ls : List Level) (s : State) (h : ls ≠ []) :
    (readPeriods ls s).1.getLast?.map Prod.fst = some (readPeriods ls s).2.readStatus := by
  induction ls generalizing s with
  | nil => exact absurd rfl h
  | cons l ls ih =>
    by_cases hls : ls = []
    · subst hls
      simp [readPeriods, readPeriod_readStatus]
    · have hne : (readPeriods ls (readPeriod l s).2).1 ≠ [] := by
        rw [← List.length_pos_iff, readPeriods_length]
        exact List.length_pos_iff.mpr hls
      exact (congrArg (Option.map Prod.fst) (List.getLast?_cons_of_ne_nil hne)).trans (ih (readPeriod l s).2 hls)

/-- A frame format answers with the statuses of its `READ`s, of which there are some. -/
theorem exec_format_status (d : Nat) (f : WireFrame) (i : Instr) (s t : State) (hi : Instr.ofFormat d f = some i)
    (h : exec i s = .next t) : t.rspValid = true ∧ t.io.rsp.lastStatus = some t.readStatus := by
  obtain ⟨-, ht⟩ := receiveLevels_next _ s t (exec_format_next d f i s t hi h)
  have hlen : (readPeriods (wireImage f) (opStart s)).1 ≠ [] := by
    rw [← List.length_pos_iff, readPeriods_length, wireImage_length]; omega
  have hlast := readPeriods_lastStatus (wireImage f) (opStart s) (by simp [wireImage])
  generalize readPeriods (wireImage f) (opStart s) = q at ht hlen hlast
  subst ht
  exact ⟨by simpa [State.rspValid] using hlen, hlast⟩

/-- Settles O56: by the status of the last `READ`, if there was one. -/
theorem receiveFrameShownOnlyAfterMessageOk : Obligations.ReceiveFrameShownOnlyAfterMessageOk := by
  unfold Obligations.ReceiveFrameShownOnlyAfterMessageOk
  refine fun s t => ⟨fun i hi h => ?_, fun i hi h => ?_⟩
  · obtain ⟨hvalid, hnone⟩ := no_status_of_command i s t hi h
    exact ⟨hvalid, outPorts_of_no_status t hnone⟩
  · have hstatus : t.rspValid = true ∧ t.io.rsp.lastStatus = some t.readStatus := by
      obtain ⟨now, rfl⟩ | ⟨d, f, hf⟩ := hi
      · exact exec_read_status now s t h
      · exact exec_format_status d f i s t hf h
    obtain ⟨hvalid, hlast⟩ := hstatus
    exact ⟨hvalid, outPorts_of_status t hlast⟩

/-! ### Bus-Off -/

/-- What keeps everything and lets no period pass. -/
theorem MuteKept.of_answer (s t : State) (hfc : t.fc = s.fc) (hrx : t.rx = s.rx) (hrxf : t.rxf = s.rxf) (hcfg : t.cfg = s.cfg)
    (hpin : t.pin = s.pin) (hhost : t.io.host = s.io.host) (hother : t.io.other = s.io.other)
    (hdrove : t.io.drove = s.io.drove) : MuteKept s t :=
  ⟨hfc, hrx, hrxf, hcfg, hhost, hother, fun _ => hpin,
    fun h => ⟨by rw [state_drive, hpin]; exact h, 0, by rw [hdrove]; exact (List.append_nil _).symm⟩⟩

theorem receiveLevels_mute (ls : List Level) (s t : State) (hb : s.fc.state = .busOff) (h : receiveLevels ls s = .next t) :
    MuteKept (opStart s) t := by
  obtain ⟨hc, rfl⟩ := receiveLevels_next ls s t h
  obtain ⟨hfc, hrx, hrxf, hcfg, hhost, hother, hpin, hdrive⟩ := readPeriods_busOff ls (opStart s) hb hc
  exact ⟨hfc, hrx, hrxf, hcfg, hhost, hother, hpin, hdrive⟩

/-- What is accepted in Bus-Off is mute, but for `BEGIN` and the construction (R206). -/
theorem exec_busOff (p : Presented) (i : Instr) (s t : State) (hp : Accepts p i) (hb : s.fc.state = .busOff)
    (h : exec i s = .next t) :
    MuteKept (opStart s) t ∨ (∃ c, p = .command c ∧ c.cmd = 0b01#2 ∧ fcIs t.fc 0 0) ∨
      (∃ rx tx, p = .construct rx tx ∧ fcIs t.fc 0 0) := by
  cases hp with
  | nop c =>
    rw [exec_nop] at h
    cases h; exact .inl (.of_answer _ _ rfl rfl rfl rfl rfl rfl rfl rfl)
  | setup c code =>
    rw [exec_begin _ _ s (baudOk_of_begin _ _ s t h)] at h
    cases h; exact .inr (.inl ⟨c, rfl, code, rfl, rfl, rfl⟩)
  | send c f =>
    rw [exec_send f s (configured_of_send f s t h), sendOp_busOff f s hb] at h
    cases h; exact .inl (.of_answer _ _ rfl rfl rfl rfl rfl rfl rfl rfl)
  | read c now =>
    rw [exec_read_busOff now s (configured_of_read now s t h) hb] at h
    cases h; exact .inl (.of_answer _ _ rfl rfl rfl rfl rfl rfl rfl rfl)
  | frame bits d f i format => exact .inl (receiveLevels_mute _ s t hb (exec_format_next d f i s t format h))
  | construct rxPin txPin =>
    rw [exec_new] at h
    cases h; exact .inr (.inr ⟨rxPin, txPin, rfl, rfl, rfl, rfl⟩)

/-- What `MuteKept` says of the drive of a node between two steps. -/
theorem MuteKept.silent {s t : State} (h : MuteKept (opStart s) t) :
    t.fc = s.fc ∧ t.rx = s.rx ∧ t.rxf = s.rxf ∧ t.io.other = s.io.other ∧ (s.rx.ackcnt ≠ 1 → t.pin = s.pin) ∧
      (s.drive = recessive → t.drive = recessive ∧ ∀ l ∈ t.io.drove, l = recessive) := by
  refine ⟨h.fc, h.rx, h.rxf, h.other, h.pin, fun hd => ?_⟩
  obtain ⟨hdrive, m, hdrove⟩ := h.drive hd
  refine ⟨hdrive, fun l hl => ?_⟩
  rw [hdrove, opStart_drove, List.nil_append] at hl
  exact List.eq_of_mem_replicate hl

/-- Settles O47: what is accepted by `exec_busOff`, bits of no format by `receiveLevels_mute`, a bit period by `step_rest`. -/
theorem busOffIsLeftOnlyByBeginOrReset : Obligations.BusOffIsLeftOnlyByBeginOrReset := by
  unfold Obligations.BusOffIsLeftOnlyByBeginOrReset
  intro s t hbusy hb h
  obtain ⟨p, s', i, hf, hd, hstep⟩ | ⟨bits, s', e, hf, -, hstep⟩ | ⟨hf, hstep⟩ := step_cases s
  · obtain ⟨rest, hh, rfl⟩ := fetch_some s s' p hf
    obtain hmute | ⟨c, rfl, hcode, hfc⟩ | ⟨rx, tx, rfl, hfc⟩ :=
      exec_busOff p i _ t (accepts_of_decode p i hd) (by exact hb) (hstep.symm.trans h)
    · obtain ⟨hfc, hrx, hrxf, hother, hpin, hdrive⟩ := hmute.silent
      exact .inl ⟨hfc, hrx, hrxf, fun _ => hother, fun _ => ⟨hpin, hdrive⟩⟩
    · exact .inr (.inl ⟨c, rest, hh, hcode, hfc⟩)
    · exact .inr (.inr ⟨rx, tx, rest, hh, hfc⟩)
  · obtain ⟨rest, hh, rfl⟩ := fetch_some s s' _ hf
    obtain ⟨hfc, hrx, hrxf, hother, hpin, hdrive⟩ := (receiveLevels_mute _ _ t (by exact hb) (hstep.symm.trans h)).silent
    exact .inl ⟨hfc, hrx, hrxf, fun _ => hother, fun _ => ⟨hpin, hdrive⟩⟩
  · have hh : s.io.host = [] := by
      cases hh : s.io.host with
      | nil => rfl
      | cons p rest => rw [fetch_of_idle s p rest hh hbusy] at hf; cases hf
    refine .inl ?_
    cases hc : s.cfg.configured with
    | false =>
      rw [hstep, hbusy, if_neg Bool.false_ne_true] at h
      cases h
      exact ⟨restPeriod_fc _, restPeriod_rx _, restPeriod_rxf _, fun hne => absurd hh hne, fun h => absurd h (by simp)⟩
    | true =>
      rw [step_rest s hc hbusy hh] at h
      cases h
      refine ⟨rfl, rfl, rfl, fun hne => absurd hh hne, fun _ => ⟨fun hack => if_neg hack, fun hd => ⟨?_, ?_⟩⟩⟩
      · rw [state_drive]
        dsimp only
        split
        · exact drive_output recessive
        · exact hd
      · intro l hl
        exact (List.mem_singleton.mp hl).trans hd

end Sys2Proof.Machine
end

section
/-! Several nodes on one bus, one bit period at a time: every node samples the wired-AND of all drives (40_line_driver.md R97;
60_exceptions.md R258; log 27). -/

namespace Sys2Proof.Machine

/-- The wired-AND of all is that of one node and of the others. -/
theorem busLevel_eq (nodes : List State) (i : Nat) (h : i < nodes.length) :
    busLevel nodes = (driveOf nodes[i] && othersLevel nodes i) :=
  (List.Perm.all_eq (List.getElem_cons_eraseIdx_perm h)).symm

/-! ### What a node puts on the bus in a bit period -/

theorem txDrive_pin_congr (s t : State) (htx : t.tx = s.tx) (hpin : t.pin = s.pin) : (txDrive t).pin = (txDrive s).pin := by
  unfold txDrive
  rw [htx]
  split <;> simp [hpin]

theorem txDrive_drove (s : State) : (txDrive s).io.drove = s.io.drove := by
  unfold txDrive
  split <;> simp

/-- A sender drives what its phase sets its latches to (R133). -/
theorem txPeriod_drove (s : State) : (txPeriod s).io.drove = s.io.drove ++ [(txDrive s).drive] := by
  obtain ⟨-, hdrove⟩ := txSettle_kept (sampleRx (txDrive s)) (hold (txDrive s))
  exact hdrove.trans (by rw [hold_drove, txDrive_drove])

/-- A node that reads drives what its latches hold (R95). -/
theorem readPeriod_drove (l : Level) (s : State) (hc : s.cfg.configured = true) :
    (readPeriod l s).2.io.drove = s.io.drove ++ [s.drive] := by
  have hself : withOutputs s.io.drove s.io.rsp s = s := rfl
  have h := readPeriod_withOutputs l s.io.drove s.io.rsp s hc
  rw [hself] at h
  exact congrArg (fun q : RxResult × State => q.2.io.drove) h

theorem restStart_pin_congr (s t : State) (hcfg : t.cfg = s.cfg) (hpin : t.pin = s.pin) (hfresh : t.io.fresh = s.io.fresh) :
    (restStart t).pin = (restStart s).pin := by
  unfold restStart
  rw [hcfg]
  split
  · exact hpin
  · rw [hfresh]

theorem restStart_configured (s : State) (hc : s.cfg.configured = true) : restStart s = s := if_pos hc

/-- In its bit period a node drives what the others see (R97). -/
theorem nodePeriod_drove (o : Level) (s : State) : (nodePeriod o s).io.drove = s.io.drove ++ [driveOf s] := by
  cases hb : s.busy with
  | true =>
    rw [nodePeriod, if_pos hb, driveOf, startPeriod, if_pos hb, txPeriod_drove, state_drive, state_drive,
      txDrive_pin_congr s (presentLevel o s) rfl rfl]
    rfl
  | false =>
    rw [nodePeriod, hb, if_neg Bool.false_ne_true, driveOf, startPeriod, hb, if_neg Bool.false_ne_true]
    cases hc : s.cfg.configured with
    | true => rw [if_pos rfl, readPeriod_drove o s hc, restStart_configured s hc]
    | false =>
      rw [if_neg Bool.false_ne_true, restPeriod_drove, state_drive, state_drive,
        restStart_pin_congr s (presentLevel o s) rfl rfl rfl]
      rfl

/-- Settles O8: each node's sample is the AND of its own drive and the others', which is the bus. -/
theorem everyNodeSamplesTheWiredAnd : Obligations.EveryNodeSamplesTheWiredAnd := by
  unfold Obligations.EveryNodeSamplesTheWiredAnd
  refine fun nodes i h => ⟨(busLevel_eq nodes i h).symm, fun j hj hdom => ?_, fun hall => ?_, ?_⟩
  · rw [busLevel_eq nodes j hj, hdom, Bool.false_and]
  · refine List.all_eq_true.mpr fun s hs => ?_
    obtain ⟨j, hj, rfl⟩ := List.mem_iff_getElem.mp hs
    exact hall j hj
  · simp [busPeriod, h, nodePeriod_drove]

end Sys2Proof.Machine
end

section
/-! The invariant between host operations: it holds at reset, and every step keeps it (10_state.md R34; 45_fault_confinement.md
R205; log 4). -/

namespace Sys2Proof.Machine

/-- Counters at zero are consistent and in range. -/
theorem good_zero : ({ tec := 0, rec_ := 0, state := .errorActive } : FaultConf).Good := ⟨by decide, by decide, by decide⟩

/-- Settles O57: the counters are zero, the buffer is empty, and the rest is asked of a configured node. -/
theorem resetIsGood : Obligations.ResetIsGood := by
  unfold Obligations.ResetIsGood
  exact ⟨good_zero, rfl, rfl, rfl, nofun, nofun, nofun, nofun, nofun, Nat.le_refl 128⟩

/-! ### What keeps the invariant -/

/-- The outputs, the frames and the flags are not in the invariant. -/
theorem State.Inv.of_registers {s t : State} (h : s.Inv) (hfc : t.fc = s.fc) (htx : t.tx.txph = .txIdle) (hrx : t.rx = s.rx)
    (hcfg : t.cfg = s.cfg) (hpin : t.pin = s.pin) (hpar : t.par = s.par) : t.Inv := by
  constructor <;> simp only [hfc, htx, hrx, hcfg, hpin, hpar]
  exacts [h.fc_good, h.buf_wf, h.buf_capacity, h.rx_good, h.bittime_pos, h.bittime_max, h.line_output, h.line_idle, h.par_bound]

/-- The registers of a configured node replaced: counters, receiver, line. -/
theorem State.Inv.of_configured {s t : State} (h : s.Inv) (hc : s.cfg.configured = true) (hfc : t.fc.Good)
    (htx : t.tx.txph = .txIdle) (hrx : RxOk s.par.rxbufBits t.rx) (hcfg : t.cfg = s.cfg) (hpar : t.par = s.par)
    (hout : t.pin.txdir = .output) (hline : t.pin.txlvl = dominant → t.rx.ackcnt = 1) : t.Inv where
  fc_good := hfc
  tx_idle := htx
  buf_wf := hrx.wf
  buf_capacity := by rw [hpar]; exact hrx.below
  rx_good := fun _ => by rw [hpar]; exact hrx.good
  bittime_pos := fun _ => by rw [hcfg]; exact h.bittime_pos hc
  bittime_max := fun _ => by rw [hcfg]; exact h.bittime_max hc
  line_output := fun _ => hout
  line_idle := fun _ => hline
  par_bound := by rw [hpar]; exact h.par_bound

theorem State.Inv.rxOk {s : State} (h : s.Inv) (hc : s.cfg.configured = true) : RxOk s.par.rxbufBits s.rx :=
  ⟨h.rx_good hc, h.buf_wf, h.buf_capacity⟩

theorem State.Inv.not_busy {s : State} (h : s.Inv) : s.busy = false := by rw [state_busy, h.tx_idle]; rfl

theorem State.Inv.opStart {s : State} (h : s.Inv) : (opStart s).Inv := h.of_registers rfl h.tx_idle rfl rfl rfl rfl

/-- What is accepted leaves the registers. -/
theorem State.Inv.fetched {s s' : State} {p : Presented} (h : s.Inv) (hf : fetch s = some (p, s')) : s'.Inv := by
  obtain ⟨rest, -, rfl⟩ := fetch_some s s' p hf
  exact h.of_registers rfl h.tx_idle rfl rfl rfl rfl

/-! ### The bit period without a `READ` -/

theorem inv_restPeriod (s : State) (h : s.Inv) : (restPeriod s).Inv := by
  cases hc : s.cfg.configured with
  | false =>
    have hcr : (restPeriod s).cfg.configured = false := by rw [restPeriod_cfg]; exact hc
    have hoff : ¬ (restPeriod s).cfg.configured = true := by rw [hcr]; decide
    exact ⟨by rw [restPeriod_fc]; exact h.fc_good, by rw [restPeriod_tx]; exact h.tx_idle,
      by rw [restPeriod_rx]; exact h.buf_wf, by rw [restPeriod_rx, restPeriod_par]; exact h.buf_capacity,
      fun hc => absurd hc hoff, fun hc => absurd hc hoff, fun hc => absurd hc hoff, fun hc => absurd hc hoff,
      fun hc => absurd hc hoff, by rw [restPeriod_par]; exact h.par_bound⟩
  | true =>
    rw [restPeriod_configured s hc]
    by_cases hack : s.rx.ackcnt = 1
    · rw [if_pos hack]
      exact h.of_configured hc h.fc_good h.tx_idle (h.rxOk hc) rfl rfl rfl nofun
    · rw [if_neg hack]
      exact h.of_configured hc h.fc_good h.tx_idle (h.rxOk hc) rfl rfl (h.line_output hc) (h.line_idle hc)

/-! ### The commands -/

theorem inv_nop (s t : State) (h : s.Inv) (ht : exec .nop s = .next t) : t.Inv := by
  rw [exec_nop] at ht
  cases ht
  exact h.of_registers rfl h.tx_idle rfl rfl rfl rfl

theorem inv_begin (baud now : BitVec 32) (s t : State) (h : s.Inv) (ht : exec (.begin baud now) s = .next t) : t.Inv := by
  have hok := baudOk_of_begin baud now s t ht
  rw [exec_begin baud now s hok] at ht
  cases ht
  obtain ⟨hmin, hmax⟩ := (baudOk_iff baud).mp hok
  have hpos : 1 ≤ 1000000 / baud.toNat := (Nat.one_le_div_iff hmin).mpr hmax
  have hbit : (beginOp baud now (opStart s)).cfg.bittime.toNat = 1000000 / baud.toNat := toNat_bittime baud
  exact
    { fc_good := good_zero
      tx_idle := h.tx_idle
      buf_wf := h.buf_wf
      buf_capacity := h.buf_capacity
      rx_good := fun _ => ⟨fun _ => rfl, fun hne => absurd rfl hne, fun hne => absurd rfl hne, fun hne => absurd rfl hne, nofun⟩
      bittime_pos := fun _ => hpos.trans_eq hbit.symm
      bittime_max := fun _ => hbit.trans_le (Nat.div_le_self _ _)
      line_output := fun _ => rfl
      line_idle := nofun
      par_bound := h.par_bound }

/-- The hooks of `SEND` keep the counters in range. -/
theorem sendResult_good (s : State) (f : TxFrame) (h : s.fc.Good) : (s.sendResult f).fc.Good := by
  by_cases hb : s.fc.state = .busOff
  · rw [State.sendResult, sendWhole_busOff _ _ _ hb]; exact h
  cases hl : s.lossOf f with
  | some p => rw [State.sendResult, sendWhole_lost _ _ _ p hb hl]; exact h
  | none =>
    cases hs : s.io.other.getD (wholeWire f).length recessive with
    | true => rw [State.sendResult, sendWhole_noAck _ _ _ hb hl hs]; exact onTxFailure_good _ h
    | false => rw [State.sendResult, sendWhole_acked _ _ _ hb hl hs]; exact onTxSuccess_good _ h

theorem inv_send (f : TxFrame) (s t : State) (h : s.Inv) (ht : exec (.send f) s = .next t) : t.Inv := by
  have hc := configured_of_send f s t ht
  by_cases hb : s.fc.state = .busOff
  · rw [exec_send f s hc, sendOp_busOff f s hb] at ht
    cases ht
    exact h.of_registers rfl h.tx_idle rfl rfl rfl rfl
  · have ended := exec_send_active f s t ht hb
    have hrx : t.rx = s.rx := ended.kept.rx
    refine h.of_configured hc (by rw [ended.fc]; exact sendResult_good s f h.fc_good) ended.idle (by rw [hrx]; exact h.rxOk hc)
      ended.kept.cfg ended.kept.par ?_ ?_ <;> rw [ended.pin]
    exact nofun

/-- An accepted `READ`: the receiver by `rxStep_ok`, the line by `readAccepted_pin`. -/
theorem inv_readAccepted (s : State) (h : s.Inv) (hc : s.cfg.configured = true) : s.readAccepted.Inv := by
  have good := h.rx_good hc
  have hslot : RxOk s.par.rxbufBits (slotState (opStart s)).rx :=
    ⟨⟨good.idle_has_no_ack, good.frame_run_pos, good.frame_run_bound, good.frame_count, good.run_six⟩, h.buf_wf,
      h.buf_capacity⟩
  obtain ⟨hrx, hfc⟩ := rxStep_ok (sampleRx s) (slotState (opStart s)) hslot h.fc_good
  have hpin := readAccepted_pin s
  refine h.of_configured hc (by rw [readAccepted_fc]; exact hfc) (by rw [readAccepted_tx]; exact h.tx_idle)
    (by rw [readAccepted_rx]; exact hrx) (readAccepted_cfg s) (readAccepted_par s) ?_ ?_
  · rw [hpin]
    split_ifs
    · rfl
    · rfl
    · exact h.line_output hc
  · by_cases hdue : s.readAccepted.rx.ackcnt = 1
    · exact fun _ => hdue
    · rw [hpin, if_neg hdue]
      split_ifs with hack
      · exact nofun
      · exact fun hdom => absurd (h.line_idle hc hdom) hack

theorem inv_read (now : BitVec 32) (s t : State) (h : s.Inv) (ht : exec (.read now) s = .next t) : t.Inv := by
  obtain ⟨-, rfl⟩ | ⟨-, rfl⟩ | ⟨-, rfl⟩ := exec_read_cases now s t ht
  · exact h.of_registers rfl h.tx_idle rfl rfl rfl rfl
  · exact h.of_registers rfl h.tx_idle rfl rfl rfl rfl
  · exact inv_readAccepted s h (configured_of_read now s _ ht)

/-! ### What passes on the wire -/

theorem inv_readPeriod (l : Level) (s : State) (h : s.Inv) (hc : s.cfg.configured = true) : (readPeriod l s).2.Inv := by
  by_cases hb : s.fc.state = .busOff
  · rw [readPeriod_busOff l s hb]
    exact inv_restPeriod _ (h.of_registers rfl h.tx_idle rfl rfl rfl rfl)
  · have hpresent : (presentLevel l s).Inv := h.of_registers rfl h.tx_idle rfl rfl rfl rfl
    have hafter : (afterRead l s).Inv := inv_read _ _ _ hpresent (exec_read_active l s hc hb)
    exact hafter.of_registers rfl hafter.tx_idle rfl rfl rfl rfl

theorem inv_receiveLevels (ls : List Level) (s t : State) (h : s.Inv) (ht : receiveLevels ls s = .next t) : t.Inv := by
  obtain ⟨hc, rfl⟩ := receiveLevels_next ls s t ht
  obtain ⟨hinv, -⟩ := readPeriods_invariant (fun u => u.Inv ∧ u.cfg.configured = true)
    (fun l u hu => ⟨inv_readPeriod l u hu.1 hu.2, by rw [readPeriod_cfg]; exact hu.2⟩) ls (opStart s) ⟨h.opStart, hc⟩
  exact hinv.of_registers rfl hinv.tx_idle rfl rfl rfl rfl

/-! ### The construction -/

theorem inv_construct (s : State) (h : s.Inv) : (construct s).Inv where
  fc_good := good_zero
  tx_idle := rfl
  buf_wf := ofBits_wfFrom _ 0
  buf_capacity := by
    have hbelow := ofBits_below
      ((List.range s.par.rxbufBits).map fun i => (Config.freeValue (s.io.fresh + (35 + i))).getLsbD 0) 0
    rwa [List.length_map, List.length_range, Nat.zero_add] at hbelow
  rx_good := nofun
  bittime_pos := nofun
  bittime_max := nofun
  line_output := nofun
  line_idle := nofun
  par_bound := h.par_bound

/-! ### A step -/

theorem inv_exec (p : Presented) (i : Instr) (s t : State) (hp : Accepts p i) (h : s.Inv) (ht : exec i s = .next t) : t.Inv := by
  cases hp with
  | nop c => exact inv_nop s t h ht
  | setup c _ => exact inv_begin c.baud c.now s t h ht
  | send c f => exact inv_send f s t h ht
  | read c now => exact inv_read now s t h ht
  | frame bits d f i format => exact inv_receiveLevels _ s t h (exec_format_next d f i s t format ht)
  | construct rxPin txPin =>
    rw [exec_new] at ht
    cases ht
    have hnew := inv_construct (opStart s) h.opStart
    exact hnew.of_registers rfl hnew.tx_idle rfl rfl rfl rfl

/-- Settles O58: between operations a step runs what is accepted, receives bits of no format, or lets a bit period pass. -/
theorem everyStepKeepsTheInvariant : Obligations.EveryStepKeepsTheInvariant := by
  unfold Obligations.EveryStepKeepsTheInvariant
  intro s t h ht
  obtain ⟨p, s', i, hf, hd, hstep⟩ | ⟨bits, s', e, hf, -, hstep⟩ | ⟨-, hstep⟩ := step_cases s
  · exact inv_exec p i s' t (accepts_of_decode p i hd) (h.fetched hf) (hstep.symm.trans ht)
  · exact inv_receiveLevels (wireLevels bits) s' t (h.fetched hf) (hstep.symm.trans ht)
  · rw [hstep, h.not_busy, if_neg Bool.false_ne_true] at ht
    cases ht
    exact inv_restPeriod (opStart s) h.opStart

end Sys2Proof.Machine
end
